-- ==== Sys2Proof/Word.lean ====
section
/-! DEFINITION. The word types of the CHIP-8 CORE (spec 00_scope.md R7, R13): everything is unsigned. -/

namespace Sys2Proof

/-- A memory cell, a general register, a timer (R7). -/
abbrev Byte := BitVec 8

/-- An instruction word, I, PC, a stack entry (R7). -/
abbrev Word := BitVec 16

/-- The index of a general register V0 to VF (R31). -/
abbrev Reg := Fin 16

/-- The index of a key 0 to 15 (R45). -/
abbrev Key := Fin 16

/-- FLAG_REG: VF, the flag register (R7, R32). -/
abbrev flagReg : Reg := 15

end Sys2Proof
end

