-- ==== Sys2Proof/Config.lean ====
section
/-! DEFINITION. What the host fixes at LOAD (spec 00_scope.md R8, R9, R10; 60_exceptions.md R344) and the free values:
constants with no body, so that nothing can be proved of what they are. -/

namespace Sys2Proof

/-- The configuration of a machine, fixed from one LOAD to the next (R344). -/
structure Config where
  /-- W, the columns of the display; 1 ≤ W (R8). -/
  width     : Nat
  /-- H, the rows of the display; 1 ≤ H (R8). -/
  height    : Nat
  /-- Q_LOGIC_VF: true is legacy (R9). -/
  qLogicVf  : Bool
  /-- Q_SHIFT_VY: true is legacy (R9). -/
  qShiftVy  : Bool
  /-- Q_MEM_INC_I: true is legacy (R9). -/
  qMemIncI  : Bool
  /-- FONT: the 80 bytes at MEM[0..79] (R10). -/
  font      : Vector Byte 80
  deriving DecidableEq, Repr

/-- R8: the display has at least one column and one row (decision D16). LOAD does not check it (log 21). -/
abbrev Config.wf (c : Config) : Prop := 1 ≤ c.width ∧ 1 ≤ c.height

/-- R11, R203: the byte of the k-th random draw. A FREE VALUE (DESIGN CHOICE, log 4, safe). -/
opaque Config.randomByte : Nat → Byte

/-- R9: the spec gives the quirk switches no default. FREE VALUE of State.reset (DESIGN CHOICE, log 3, safe). -/
opaque Config.bootLogicVf : Bool

/-- R9: as `Config.bootLogicVf` (log 3). -/
opaque Config.bootShiftVy : Bool

/-- R9: as `Config.bootLogicVf` (log 3). -/
opaque Config.bootMemIncI : Bool

/-- R10: the spec gives FONT's size and not its bytes. FREE VALUE of State.reset (DESIGN CHOICE, log 3, safe). -/
opaque Config.bootFont : Vector Byte 80

end Sys2Proof
end

