-- ==== Sys2Proof/Machine/Boot.lean ====
section
/-! DEFINITION. The configuration State.reset carries, and the conventional font a host may pass to LOAD. -/

namespace Sys2Proof.Machine

/-- The configuration of State.reset: the spec's nominal display size (R8; DESIGN CHOICE, log 2, unsafe), and the three
quirk switches and FONT left free (R9, R10; DESIGN CHOICE, log 3, safe). -/
def bootConfig : Config where
  width    := 64
  height   := 32
  qLogicVf := Config.bootLogicVf
  qShiftVy := Config.bootShiftVy
  qMemIncI := Config.bootMemIncI
  font     := Config.bootFont

/-- The conventional font (spec 93_implementation_defined.md G1, general knowledge): a value FONT may be instantiated with
(R10). No rule of the model reads it. -/
def conventionalFont : Vector Byte 80 := #v[
  0xF0, 0x90, 0x90, 0x90, 0xF0, 0x20, 0x60, 0x20, 0x20, 0x70,
  0xF0, 0x10, 0xF0, 0x80, 0xF0, 0xF0, 0x10, 0xF0, 0x10, 0xF0,
  0x90, 0x90, 0xF0, 0x10, 0x10, 0xF0, 0x80, 0xF0, 0x10, 0xF0,
  0xF0, 0x80, 0xF0, 0x90, 0xF0, 0xF0, 0x10, 0x20, 0x40, 0x40,
  0xF0, 0x90, 0xF0, 0x90, 0xF0, 0xF0, 0x90, 0xF0, 0x10, 0xF0,
  0xF0, 0x90, 0xF0, 0x90, 0x90, 0xE0, 0x90, 0xE0, 0x90, 0xE0,
  0xF0, 0x80, 0x80, 0x80, 0xF0, 0xE0, 0x90, 0x90, 0x90, 0xE0,
  0xF0, 0x80, 0xF0, 0x80, 0xF0, 0xF0, 0x80, 0xF0, 0x80, 0x80]

end Sys2Proof.Machine
end

