-- ==== Sys2Proof/Machine/Memory.lean ====
section
/-! DEFINITION. Main memory MEM (spec 20_memory.md R70-R76) as the sorted list of the cells that differ from what an
unlisted address reads as, and reading and writing it. The address checks are in Machine/Ops.lean. -/

namespace Sys2Proof.Machine

/-- The listed cells of MEM, addresses strictly rising. -/
abbrev Memory := List Host.Cell

/-- R7: one past the last address of MEM. -/
def memSize : Nat := 4096

/-- R7: the length of the font at the bottom of MEM. -/
def fontLen : Nat := 80

/-- R51, R73: what an unlisted address reads as: FONT at 0..79, and 0 elsewhere (decision D18). -/
def unlisted (font : Vector Byte 80) (a : Nat) : Byte := if h : a < 80 then font.get ⟨a, h⟩ else 0

/-- The byte the list of cells gives an address, if it lists it. -/
def lookupCell (m : Memory) (a : Nat) : Option Byte :=
  match m with
  | [] => none
  | c :: rest => if c.1 = a then some c.2 else lookupCell rest a

/-- Reading the cell at `a`. -/
def Memory.read (font : Vector Byte 80) (m : Memory) (a : Nat) : Byte := (lookupCell m a).getD (unlisted font a)

/-- Puts a cell before the first cell of a higher address. -/
def insertCell (m : Memory) (c : Host.Cell) : Memory :=
  match m with
  | [] => [c]
  | d :: rest => if c.1 < d.1 then c :: d :: rest else d :: insertCell rest c

/-- The list without the cells at `a`. -/
def removeCell (m : Memory) (a : Nat) : Memory := m.filter (fun c => c.1 != a)

/-- Writing the cell at `a`: writing what an unlisted address reads as removes the entry. -/
def Memory.write (font : Vector Byte 80) (m : Memory) (a : Nat) (b : Byte) : Memory :=
  if b = unlisted font a then removeCell m a else insertCell (removeCell m a) (a, b)

/-- Writing consecutive cells from `a` upward, in ascending order. -/
def Memory.writeBytes (font : Vector Byte 80) (m : Memory) (a : Nat) (bs : List Byte) : Memory :=
  match bs with
  | [] => m
  | b :: rest => Memory.writeBytes font (Memory.write font m a b) (a + 1) rest

/-- The canonical form: addresses strictly rising, and no cell equal to what an unlisted address reads as. -/
abbrev Memory.wf (font : Vector Byte 80) (m : Memory) : Prop :=
  m.Pairwise (fun c d => c.1 < d.1) ∧ ∀ c ∈ m, c.2 ≠ unlisted font c.1

end Sys2Proof.Machine
end

