-- ==== Sys2Proof/Machine/State.lean ====
section
/-! DEFINITION. The machine state (spec 10_state.md R30: "one record holding exactly these elements; nothing else is
state"), the reasons a step can stop, and the state after reset (R51). -/

namespace Sys2Proof.Machine

/-- R311: the causes of a fault. The spec describes the entry of each (R312), so a fault is a NEXT state: it is recorded
in FAULT_CAUSE with RUN = HALTED, and `step` never answers Outcome.fault (log 5). Each is the spec's own way to give an
undefined case no meaning: safe for claims about what follows, unsafe for the claim that the repository halts (92 D22). -/
inductive Fault where
  /-- Code 1, raised by the fetch: p > 4094 (R141). -/
  | fetchOutOfRange
  /-- Code 2, raised by the fetch: p odd, p ≤ 4094 (R141). -/
  | fetchMisaligned
  /-- Code 3, raised by the fetch: p even, p < 512 (R141). -/
  | fetchOutsideProgram
  /-- Code 4, raised by 2NNN: SP = 12 (R162). -/
  | stackOverflow
  /-- Code 5, raised by 00EE: SP = 0 (R160). -/
  | stackUnderflow
  /-- Code 6, raised by DXYN, FX33, FX55, FX65: a data address above 4095 (R78, R79). -/
  | memOutOfRange
  /-- Code 7, raised by FX33, FX55: a write address below 80 (R79). -/
  | fontWrite
  /-- Code 8, raised by EX9E, EXA1: VX > 15 (R280, R281). -/
  | keyIndexOutOfRange
  /-- Code 9, raised by the step on a disputed word (R145). -/
  | disputedEncoding
  deriving DecidableEq, Repr

/-- Why the model gives an instruction no meaning. -/
inductive Refusal where
  /-- Answered by exec's arm of an instruction not modelled yet: safe. No arm answers it: every instruction has its
  meaning. -/
  | notModelled (mnemonic : String)
  deriving DecidableEq, Repr

/-- R46: the key-wait latch's state. -/
inductive KeyWait where
  | idle
  | awaitRelease
  deriving DecidableEq, Repr

/-- R48: whether the machine runs. -/
inductive RunState where
  | running
  | halted
  deriving DecidableEq, Repr

/-- R18: what `raise Fault(cause, info)` carries. -/
structure Raise where
  cause : Fault
  info  : Nat
  deriving DecidableEq, Repr

/-- R30: the machine state. -/
structure State where
  /-- MEM (R71): the cells that differ from what an unlisted address reads as. -/
  mem        : Memory
  /-- V[0..15] (R31). -/
  v          : Vector Byte 16
  /-- I (R33). -/
  i          : Word
  /-- PC (R35). -/
  pc         : Word
  /-- STACK[0..11] (R38). -/
  stack      : Vector Word 12
  /-- SP, 0..12, the number of entries in use (R38). -/
  sp         : Fin 13
  /-- DISP (R40): row y of the list is the pixels (0, y), (1, y), … (log 13). -/
  disp       : List (List Bool)
  /-- REDRAW (R41). -/
  redraw     : Bool
  /-- DT (R43). -/
  dt         : Byte
  /-- ST (R43). -/
  st         : Byte
  /-- KEY[0..15] (R45): true is pressed. -/
  key        : Vector Bool 16
  /-- KW_STATE (R46). -/
  kwState    : KeyWait
  /-- KW_KEY (R46). -/
  kwKey      : Key
  /-- RUN (R48). -/
  run        : RunState
  /-- FAULT_CAUSE (R49): none is code 0. -/
  faultCause : Option Fault
  /-- FAULT_PC (R49). -/
  faultPc    : Word
  /-- FAULT_WORD (R49). -/
  faultWord  : Word
  /-- FAULT_INFO (R49). -/
  faultInfo  : Nat
  /-- ROM_IMG (R50). -/
  romImg     : List Byte
  /-- The configuration (R344), fixed from LOAD to LOAD: not state in the spec (R30), held here because a step takes
  nothing else (log 1). -/
  cfg        : Config
  /-- The model's own: the number of the next random draw (log 4). -/
  draws      : Nat
  deriving DecidableEq, Repr

/-- R51: the machine right after the LOAD of an empty ROM (log 8) under `bootConfig` (logs 2, 3). -/
def State.reset : State where
  mem        := []
  v          := Vector.replicate 16 0
  i          := 0
  pc         := 512
  stack      := Vector.replicate 12 0
  sp         := 0
  disp       := List.replicate 32 (List.replicate 64 false)
  redraw     := false
  dt         := 0
  st         := 0
  key        := Vector.replicate 16 false
  kwState    := .idle
  kwKey      := 0
  run        := .running
  faultCause := none
  faultPc    := 0
  faultWord  := 0
  faultInfo  := 0
  romImg     := []
  cfg        := bootConfig
  draws      := 0

end Sys2Proof.Machine
end

