-- ==== Sys2Proof/Machine/Operands.lean ====
section
/-! DEFINITION. The alu's pure functions on unsigned values, exact and then narrowed (spec 42_alu.md R191, 00_scope.md
R15), and the operand forms of the instructions (30_encoding.md R104, R105). -/

namespace Sys2Proof.Machine

/-- R15: wrap8. -/
def wrap8 (n : Nat) : Byte := BitVec.ofNat 8 n

/-- R15: wrap16. -/
def wrap16 (n : Nat) : Word := BitVec.ofNat 16 n

/-- R191: the sum of add8. -/
def add8 (a b : Byte) : Byte := wrap8 (a.toNat + b.toNat)

/-- R191: the difference of sub8, a − b + 256 narrowed. -/
def sub8 (a b : Byte) : Byte := wrap8 (a.toNat + 256 - b.toNat)

/-- R191: the result of shr1. -/
def shr1 (a : Byte) : Byte := wrap8 (a.toNat >>> 1)

/-- R191: the result of shl1. -/
def shl1 (a : Byte) : Byte := wrap8 (a.toNat <<< 1)

/-- R191: addI, for FX1E. -/
def addI (i : Word) (a : Byte) : Word := wrap16 (i.toNat + a.toNat)

/-- R191, R233: bcd, the hundreds, tens and ones digits in the order they are stored. -/
def bcdDigits (a : Byte) : List Byte :=
  [wrap8 (a.toNat / 100), wrap8 (a.toNat / 10 % 10), wrap8 (a.toNat % 10)]

/-- R105: NNN as a 16-bit address. -/
def addressOf (nnn : BitVec 12) : Word := nnn.setWidth 16

/-- R200, R202: the source of a shift, VY in legacy mode and VX in modern mode. -/
def shiftSource (c : Config) (vx vy : Byte) : Byte := if c.qShiftVy then vy else vx

/-- R234, R235: what FX55 and FX65 leave in I. -/
def indexAfter (c : Config) (i : Word) (x : Reg) : Word :=
  if c.qMemIncI then wrap16 (i.toNat + x.val + 1) else i

/-- R261: the column of a sprite's origin. With W = 0, which the spec excludes, it is VX (DESIGN CHOICE, log 21). -/
def originX (c : Config) (vx : Byte) : Nat := vx.toNat % c.width

/-- R261: the row of a sprite's origin. With H = 0, which the spec excludes, it is VY (DESIGN CHOICE, log 21). -/
def originY (c : Config) (vy : Byte) : Nat := vy.toNat % c.height

/-- R261: the rows of an `n`-row sprite from row `y0` that are not clipped. -/
def visibleRows (c : Config) (y0 n : Nat) : Nat := min n (c.height - y0)

/-- R261: the columns of a sprite from column `x0` that are not clipped. -/
def visibleCols (c : Config) (x0 : Nat) : Nat := min 8 (c.width - x0)

end Sys2Proof.Machine
end

