-- ==== Sys2Proof/Syntax.lean ====
section
/-! DEFINITION. The instructions, one constructor per row of spec/opcode_table.json (spec 30_encoding.md R107, R108),
named by the spec's pattern, and the transient instruction record (R55, R102). -/

namespace Sys2Proof

/-- R102: the record decode makes of every word, whatever the instruction: the raw word and all its fields. -/
structure InstrRecord where
  raw : Word
  t   : BitVec 4
  x   : Reg
  y   : Reg
  n   : BitVec 4
  nn  : Byte
  nnn : BitVec 12
  deriving DecidableEq, Repr

/-- The 34 instructions (R3, R107). `x` and `y` are register indices, `nn` an 8-bit constant, `nnn` a 12-bit address and
`n` a row count (R104, R105). -/
inductive Instr where
  /-- 00E0: clear the display (R260). -/
  | op00E0
  /-- 00EE: return from subroutine (R160). -/
  | op00EE
  /-- 1NNN: jump (R161). -/
  | op1NNN (nnn : BitVec 12)
  /-- 2NNN: call subroutine (R162). -/
  | op2NNN (nnn : BitVec 12)
  /-- 3XNN: skip if VX equals NN (R163). -/
  | op3XNN (x : Reg) (nn : Byte)
  /-- 4XNN: skip if VX differs from NN (R164). -/
  | op4XNN (x : Reg) (nn : Byte)
  /-- 5XY0: skip if VX equals VY (R165). -/
  | op5XY0 (x y : Reg)
  /-- 6XNN: load constant (R192). -/
  | op6XNN (x : Reg) (nn : Byte)
  /-- 7XNN: add constant (R193). -/
  | op7XNN (x : Reg) (nn : Byte)
  /-- 8XY0: copy register (R194). -/
  | op8XY0 (x y : Reg)
  /-- 8XY1: bitwise OR (R195). -/
  | op8XY1 (x y : Reg)
  /-- 8XY2: bitwise AND (R196). -/
  | op8XY2 (x y : Reg)
  /-- 8XY3: bitwise XOR (R197). -/
  | op8XY3 (x y : Reg)
  /-- 8XY4: add registers with carry (R198). -/
  | op8XY4 (x y : Reg)
  /-- 8XY5: subtract VY from VX (R199). -/
  | op8XY5 (x y : Reg)
  /-- 8XY6: shift right by one (R200). -/
  | op8XY6 (x y : Reg)
  /-- 8XY7: subtract VX from VY (R201). -/
  | op8XY7 (x y : Reg)
  /-- 8XYE: shift left by one (R202). -/
  | op8XYE (x y : Reg)
  /-- 9XY0: skip if VX differs from VY (R166). -/
  | op9XY0 (x y : Reg)
  /-- ANNN: load index (R230). -/
  | opANNN (nnn : BitVec 12)
  /-- BNNN: jump to NNN plus V0 (R167). -/
  | opBNNN (nnn : BitVec 12)
  /-- CXNN: random byte masked (R203). -/
  | opCXNN (x : Reg) (nn : Byte)
  /-- DXYN: draw an N-row sprite at (VX, VY) (R261). -/
  | opDXYN (x y : Reg) (n : Nat)
  /-- EX9E: skip if key VX is pressed (R280). -/
  | opEX9E (x : Reg)
  /-- EXA1: skip if key VX is not pressed (R281). -/
  | opEXA1 (x : Reg)
  /-- FX07: read the delay timer (R282). -/
  | opFX07 (x : Reg)
  /-- FX0A: wait for a key press and release (R283). -/
  | opFX0A (x : Reg)
  /-- FX15: set the delay timer (R284). -/
  | opFX15 (x : Reg)
  /-- FX18: set the sound timer (R285). -/
  | opFX18 (x : Reg)
  /-- FX1E: add register to index (R231). -/
  | opFX1E (x : Reg)
  /-- FX29: point the index at a font glyph (R232). -/
  | opFX29 (x : Reg)
  /-- FX33: store binary-coded decimal (R233). -/
  | opFX33 (x : Reg)
  /-- FX55: store registers V0 to VX (R234). -/
  | opFX55 (x : Reg)
  /-- FX65: load registers V0 to VX (R235). -/
  | opFX65 (x : Reg)
  deriving DecidableEq, Repr

/-- R111: the class of a word. Every one of the 65,536 words has exactly one. -/
inductive WordClass where
  /-- The word selects an instruction (R108). -/
  | instr (i : Instr)
  /-- R109: no row matches and no reading disputes it. The word is a no-op (R144). -/
  | unrecognized
  /-- R110: two readings of the source differ on it. The word faults (R145). -/
  | disputed
  deriving DecidableEq, Repr

/-- Why a byte sequence gives no instruction: the names by which the decoder rejects. -/
inductive DecodeError where
  /-- Fewer than two bytes: every instruction is exactly two (R100). -/
  | truncated
  /-- R109. -/
  | unrecognized (w : Word)
  /-- R110. -/
  | disputed (w : Word)
  deriving DecidableEq, Repr

end Sys2Proof
end

