-- ==== Sys2Proof/WellFormed.lean ====
section
/-! DEFINITION. Which terms are instructions the encoding admits. Register indices, NN and NNN are bounded by their types
(spec 30_encoding.md R105), so the checks left are the row count of DXYN and the agreement of an instruction record's
fields with its raw word. -/

namespace Sys2Proof

/-- R105: N is a 4-bit count 0..15. Every other operand is bounded by its type. -/
def Instr.wellFormed : Instr → Bool
  | .op00E0 => true
  | .op00EE => true
  | .op1NNN _ => true
  | .op2NNN _ => true
  | .op3XNN _ _ => true
  | .op4XNN _ _ => true
  | .op5XY0 _ _ => true
  | .op6XNN _ _ => true
  | .op7XNN _ _ => true
  | .op8XY0 _ _ => true
  | .op8XY1 _ _ => true
  | .op8XY2 _ _ => true
  | .op8XY3 _ _ => true
  | .op8XY4 _ _ => true
  | .op8XY5 _ _ => true
  | .op8XY6 _ _ => true
  | .op8XY7 _ _ => true
  | .op8XYE _ _ => true
  | .op9XY0 _ _ => true
  | .opANNN _ => true
  | .opBNNN _ => true
  | .opCXNN _ _ => true
  | .opDXYN _ _ n => decide (n < 16)
  | .opEX9E _ => true
  | .opEXA1 _ => true
  | .opFX07 _ => true
  | .opFX0A _ => true
  | .opFX15 _ => true
  | .opFX18 _ => true
  | .opFX1E _ => true
  | .opFX29 _ => true
  | .opFX33 _ => true
  | .opFX55 _ => true
  | .opFX65 _ => true

/-- R103: w = T·4096 + NNN = T·4096 + X·256 + NN = T·4096 + X·256 + Y·16 + N. -/
def InstrRecord.wellFormed (r : InstrRecord) : Bool :=
  decide (r.raw.toNat = r.t.toNat * 4096 + r.nnn.toNat) &&
  decide (r.raw.toNat = r.t.toNat * 4096 + r.x.val * 256 + r.nn.toNat) &&
  decide (r.raw.toNat = r.t.toNat * 4096 + r.x.val * 256 + r.y.val * 16 + r.n.toNat)

end Sys2Proof
end

