-- ==== Sys2Proof/Decode.lean ====
section
/-! DEFINITION. Decoding and encoding (spec 30_encoding.md R100-R111): the fields of a word, the opcode map as patterns of
digits, the classification of every word, the decoder over bytes, and the encoder. -/

namespace Sys2Proof

/-- R75: the 16-bit big-endian value of two bytes, the first the high byte. -/
def wordOfBytes (hi lo : Byte) : Word := hi ++ lo

/-- R75: bits 15..8, the byte at the lower address. -/
def highByte (w : Word) : Byte := w.extractLsb' 8 8

/-- R75: bits 7..0, the byte at the higher address. -/
def lowByte (w : Word) : Byte := w.extractLsb' 0 8

/-- The nibble of `w` whose lowest bit is bit `lo`. -/
def nibbleAt (w : Word) (lo : Nat) : BitVec 4 := w.extractLsb' lo 4

/-- A nibble as a register index (R105). -/
def regOfNibble (b : BitVec 4) : Reg := b.toFin

/-- A register index as a nibble (R105). -/
def nibbleOfReg (x : Reg) : BitVec 4 := BitVec.ofNat 4 x.val

/-- R102: decode extracts every field, whatever the instruction. It never fails. -/
def decode (w : Word) : InstrRecord where
  raw := w
  t   := nibbleAt w 12
  x   := regOfNibble (nibbleAt w 8)
  y   := regOfNibble (nibbleAt w 4)
  n   := nibbleAt w 0
  nn  := w.extractLsb' 0 8
  nnn := w.extractLsb' 0 12

/-- R101: a digit of a pattern, `none` for a letter (a field) and `some d` for a literal digit. A literal must match the
word's nibble at its place. -/
def digitMatches (d : Option (BitVec 4)) (b : BitVec 4) : Bool :=
  match d with
  | none => true
  | some k => b == k

/-- R101, R107: a row of the opcode map, as the four digits of its pattern, most significant first, and the instruction it
makes of a record. -/
structure OpcodeRow where
  d3 : Option (BitVec 4)
  d2 : Option (BitVec 4)
  d1 : Option (BitVec 4)
  d0 : Option (BitVec 4)
  build : InstrRecord → Instr

/-- R106: a word selects a row when it matches the pattern in every literal digit. -/
def rowMatches (w : Word) (r : OpcodeRow) : Bool :=
  digitMatches r.d3 (nibbleAt w 12) && digitMatches r.d2 (nibbleAt w 8) &&
  digitMatches r.d1 (nibbleAt w 4) && digitMatches r.d0 (nibbleAt w 0)

/-- R108: a digit's part of the mask, F for a literal digit. -/
def digitMask (d : Option (BitVec 4)) : BitVec 4 :=
  match d with
  | none => 0x0
  | some _ => 0xF

/-- R108: a digit's part of the match. -/
def digitMatch (d : Option (BitVec 4)) : BitVec 4 := d.getD 0

/-- R108: the mask of a row. -/
def rowMask (r : OpcodeRow) : Word :=
  (digitMask r.d3 ++ digitMask r.d2 ++ digitMask r.d1 ++ digitMask r.d0 : BitVec 16)

/-- R108: the match of a row. -/
def rowMatch (r : OpcodeRow) : Word :=
  (digitMatch r.d3 ++ digitMatch r.d2 ++ digitMatch r.d1 ++ digitMatch r.d0 : BitVec 16)

/-- R107, families 0 to 7. -/
def opcodeRowsLow : List OpcodeRow := [
  ⟨some 0x0, some 0x0, some 0xE, some 0x0, fun _ => .op00E0⟩,
  ⟨some 0x0, some 0x0, some 0xE, some 0xE, fun _ => .op00EE⟩,
  ⟨some 0x1, none, none, none, fun r => .op1NNN r.nnn⟩,
  ⟨some 0x2, none, none, none, fun r => .op2NNN r.nnn⟩,
  ⟨some 0x3, none, none, none, fun r => .op3XNN r.x r.nn⟩,
  ⟨some 0x4, none, none, none, fun r => .op4XNN r.x r.nn⟩,
  ⟨some 0x5, none, none, some 0x0, fun r => .op5XY0 r.x r.y⟩,
  ⟨some 0x6, none, none, none, fun r => .op6XNN r.x r.nn⟩,
  ⟨some 0x7, none, none, none, fun r => .op7XNN r.x r.nn⟩]

/-- R107, family 8: secondary dispatch by N. -/
def opcodeRowsAlu : List OpcodeRow := [
  ⟨some 0x8, none, none, some 0x0, fun r => .op8XY0 r.x r.y⟩,
  ⟨some 0x8, none, none, some 0x1, fun r => .op8XY1 r.x r.y⟩,
  ⟨some 0x8, none, none, some 0x2, fun r => .op8XY2 r.x r.y⟩,
  ⟨some 0x8, none, none, some 0x3, fun r => .op8XY3 r.x r.y⟩,
  ⟨some 0x8, none, none, some 0x4, fun r => .op8XY4 r.x r.y⟩,
  ⟨some 0x8, none, none, some 0x5, fun r => .op8XY5 r.x r.y⟩,
  ⟨some 0x8, none, none, some 0x6, fun r => .op8XY6 r.x r.y⟩,
  ⟨some 0x8, none, none, some 0x7, fun r => .op8XY7 r.x r.y⟩,
  ⟨some 0x8, none, none, some 0xE, fun r => .op8XYE r.x r.y⟩]

/-- R107, families 9 to D. -/
def opcodeRowsHigh : List OpcodeRow := [
  ⟨some 0x9, none, none, some 0x0, fun r => .op9XY0 r.x r.y⟩,
  ⟨some 0xA, none, none, none, fun r => .opANNN r.nnn⟩,
  ⟨some 0xB, none, none, none, fun r => .opBNNN r.nnn⟩,
  ⟨some 0xC, none, none, none, fun r => .opCXNN r.x r.nn⟩,
  ⟨some 0xD, none, none, none, fun r => .opDXYN r.x r.y r.n.toNat⟩]

/-- R107, families E and F: secondary dispatch by NN. -/
def opcodeRowsMisc : List OpcodeRow := [
  ⟨some 0xE, none, some 0x9, some 0xE, fun r => .opEX9E r.x⟩,
  ⟨some 0xE, none, some 0xA, some 0x1, fun r => .opEXA1 r.x⟩,
  ⟨some 0xF, none, some 0x0, some 0x7, fun r => .opFX07 r.x⟩,
  ⟨some 0xF, none, some 0x0, some 0xA, fun r => .opFX0A r.x⟩,
  ⟨some 0xF, none, some 0x1, some 0x5, fun r => .opFX15 r.x⟩,
  ⟨some 0xF, none, some 0x1, some 0x8, fun r => .opFX18 r.x⟩,
  ⟨some 0xF, none, some 0x1, some 0xE, fun r => .opFX1E r.x⟩,
  ⟨some 0xF, none, some 0x2, some 0x9, fun r => .opFX29 r.x⟩,
  ⟨some 0xF, none, some 0x3, some 0x3, fun r => .opFX33 r.x⟩,
  ⟨some 0xF, none, some 0x5, some 0x5, fun r => .opFX55 r.x⟩,
  ⟨some 0xF, none, some 0x6, some 0x5, fun r => .opFX65 r.x⟩]

/-- R107, R108: the opcode map, 34 rows. -/
def opcodeRows : List OpcodeRow := opcodeRowsLow ++ opcodeRowsAlu ++ opcodeRowsHigh ++ opcodeRowsMisc

/-- R110, R111: a word that matches no row is disputed in these cases. -/
def disputedRecord (r : InstrRecord) : Bool :=
  (r.t == 0x0 && (r.n == 0x0 || r.n == 0xE)) ||
  (r.t == 0x5 || r.t == 0x9) ||
  (r.t == 0xE && (r.n == 0x1 || r.n == 0xE))

/-- R111: the class of a word, total over all words. -/
def classify (w : Word) : WordClass :=
  match opcodeRows.find? (rowMatches w) with
  | some r => .instr (r.build (decode w))
  | none => if disputedRecord (decode w) then .disputed else .unrecognized

/-- R100: the instruction at the head of a byte sequence and the bytes after it, or the name of the rejection. -/
def decodeBytes : List Byte → Except DecodeError (Instr × List Byte)
  | hi :: lo :: rest =>
    match classify (wordOfBytes hi lo) with
    | .instr i => .ok (i, rest)
    | .unrecognized => .error (.unrecognized (wordOfBytes hi lo))
    | .disputed => .error (.disputed (wordOfBytes hi lo))
  | _ => .error .truncated

/-- Shape A (R104): family digit and NNN. -/
def wordA (t : BitVec 4) (nnn : BitVec 12) : Word := (t ++ nnn : BitVec 16)

/-- Shape XK (R104): family digit, X and NN. -/
def wordXK (t : BitVec 4) (x : Reg) (nn : Byte) : Word := (t ++ nibbleOfReg x ++ nn : BitVec 16)

/-- Shapes XY and XYN (R104): family digit, X, Y and the low digit. -/
def wordXY (t : BitVec 4) (x y : Reg) (n : BitVec 4) : Word :=
  (t ++ nibbleOfReg x ++ nibbleOfReg y ++ n : BitVec 16)

/-- R108: the word of an instruction. -/
def encode : Instr → Word
  | .op00E0 => 0x00E0
  | .op00EE => 0x00EE
  | .op1NNN nnn => wordA 0x1 nnn
  | .op2NNN nnn => wordA 0x2 nnn
  | .op3XNN x nn => wordXK 0x3 x nn
  | .op4XNN x nn => wordXK 0x4 x nn
  | .op5XY0 x y => wordXY 0x5 x y 0x0
  | .op6XNN x nn => wordXK 0x6 x nn
  | .op7XNN x nn => wordXK 0x7 x nn
  | .op8XY0 x y => wordXY 0x8 x y 0x0
  | .op8XY1 x y => wordXY 0x8 x y 0x1
  | .op8XY2 x y => wordXY 0x8 x y 0x2
  | .op8XY3 x y => wordXY 0x8 x y 0x3
  | .op8XY4 x y => wordXY 0x8 x y 0x4
  | .op8XY5 x y => wordXY 0x8 x y 0x5
  | .op8XY6 x y => wordXY 0x8 x y 0x6
  | .op8XY7 x y => wordXY 0x8 x y 0x7
  | .op8XYE x y => wordXY 0x8 x y 0xE
  | .op9XY0 x y => wordXY 0x9 x y 0x0
  | .opANNN nnn => wordA 0xA nnn
  | .opBNNN nnn => wordA 0xB nnn
  | .opCXNN x nn => wordXK 0xC x nn
  | .opDXYN x y n => wordXY 0xD x y (BitVec.ofNat 4 n)
  | .opEX9E x => wordXK 0xE x 0x9E
  | .opEXA1 x => wordXK 0xE x 0xA1
  | .opFX07 x => wordXK 0xF x 0x07
  | .opFX0A x => wordXK 0xF x 0x0A
  | .opFX15 x => wordXK 0xF x 0x15
  | .opFX18 x => wordXK 0xF x 0x18
  | .opFX1E x => wordXK 0xF x 0x1E
  | .opFX29 x => wordXK 0xF x 0x29
  | .opFX33 x => wordXK 0xF x 0x33
  | .opFX55 x => wordXK 0xF x 0x55
  | .opFX65 x => wordXK 0xF x 0x65

/-- The two bytes of a word as they stand in memory, the high byte at the lower address (R75). -/
def bytesOfWord (w : Word) : List Byte := [highByte w, lowByte w]

/-- The word whose bits are `w`, as the opcode table numbers them: the first `nbits` bits of `w`, the bits above them 0. -/
def tableWord (nbits w : Nat) : Word := BitVec.ofNat 16 (w % 2 ^ nbits)

/-- The instruction this decoder reads from an instruction whose bits are `w` (the host's question). -/
def decodeTableWord (nbits w : Nat) : Option Instr :=
  match decodeBytes (bytesOfWord (tableWord nbits w)) with
  | .ok (i, _) => some i
  | .error _ => none

end Sys2Proof
end

