-- ==== Sys2Proof/Machine/Flags.lean ====
section
/-! DEFINITION. Every value the spec writes to VF as a flag (spec 10_state.md R32; 42_alu.md R191; 44_display.md R261). -/

namespace Sys2Proof.Machine

/-- A flag as the byte VF holds. -/
def flagByte (b : Bool) : Byte := if b then 1 else 0

/-- R191, R198: the carry of a + b, that is a + b > 255. -/
def carryOut (a b : Byte) : Bool := decide (a.toNat + b.toNat > 255)

/-- R191, R199, R201: no borrow in a − b, that is b ≤ a. -/
def noBorrow (a b : Byte) : Bool := decide (b.toNat ≤ a.toNat)

/-- R191, R200: the bit a right shift by one shifts out, bit 0. -/
def shiftedOutRight (a : Byte) : Bool := a.getLsbD 0

/-- R191, R202: the bit a left shift by one shifts out, bit 7. -/
def shiftedOutLeft (a : Byte) : Bool := a.getLsbD 7

end Sys2Proof.Machine
end

