-- ==== Sys2Proof/Machine/Raster.lean ====
section
/-! DEFINITION. The display bitmap and the sprite rasterizer (spec 10_state.md R40, R42; 44_display.md R260, R261, R264).
The bitmap is a list of rows; pixel (x, y) is entry x of row y, and reads as 0 off the bitmap. -/

namespace Sys2Proof.Machine

/-- DISP as rows of pixels. -/
abbrev Bitmap := List (List Bool)

/-- R42: readPixel. -/
def readPixel (d : Bitmap) (x y : Nat) : Bool := (d.getD y []).getD x false

/-- R40: a pixel changes by XOR with 1. -/
def flipPixel (d : Bitmap) (x y : Nat) : Bitmap := d.modify y (fun row => row.modify x (fun p => !p))

/-- R42, R260: every pixel of a W × H bitmap 0. -/
def blankBitmap (w h : Nat) : Bitmap := List.replicate h (List.replicate w false)

/-- R264: what `draw` works on and returns: the bitmap, whether a set pixel was hit, whether any pixel changed. -/
structure Drawing where
  bitmap    : Bitmap
  collision : Bool
  changed   : Bool
  deriving DecidableEq, Repr

/-- R261: a set sprite bit at (x, y). -/
def plot (g : Drawing) (x y : Nat) : Drawing where
  bitmap    := flipPixel g.bitmap x y
  collision := g.collision || readPixel g.bitmap x y
  changed   := true

/-- R261: sprite bit `c` of the row byte `b`, the most significant bit first. -/
def spriteBit (b : Byte) (c : Nat) : Bool := b.getLsbD (7 - c)

/-- R261: the bits 0 to `cols` − 1 of the row byte `b`, drawn from column `x0` of row `y`. -/
def drawRow (g : Drawing) (b : Byte) (x0 y cols : Nat) : Drawing :=
  match cols with
  | 0 => g
  | c + 1 =>
    if spriteBit b c then plot (drawRow g b x0 y c) (x0 + c) y else drawRow g b x0 y c

/-- R261: the unclipped rows, the first at row `y`. -/
def drawRows (g : Drawing) (rows : List Byte) (x0 y cols : Nat) : Drawing :=
  match rows with
  | [] => g
  | b :: rest => drawRows (drawRow g b x0 y cols) rest x0 (y + 1) cols

end Sys2Proof.Machine
end

