-- ==== Sys2Proof/Machine/Ops.lean ====
section
/-! DEFINITION. The named operations over the state: the register file, PC, the stack, checked memory, the display, the
keypad, taking a fault, and the frame of a step (spec 10_state.md R34-R47; 20_memory.md R77-R80; 40_dispatch.md R140-R145;
60_exceptions.md R311, R312). -/

namespace Sys2Proof.Machine

/-! ### register_file (R34) -/

/-- R34: readV. -/
def State.readV (s : State) (r : Reg) : Byte := s.v.get r

/-- R34: writeV. -/
def State.writeV (s : State) (r : Reg) (b : Byte) : State := { s with v := s.v.set r.val b }

/-- Writes VX and then the flag, so that VF ends holding the flag when X = 15 (R190). -/
def State.writeWithFlag (s : State) (x : Reg) (b : Byte) (flag : Bool) : State :=
  (s.writeV x b).writeV flagReg (flagByte flag)

/-- R34: writeI. -/
def State.writeI (s : State) (w : Word) : State := { s with i := w }

/-! ### program_counter (R35, R37) -/

/-- R37: writePC. -/
def State.writePC (s : State) (w : Word) : State := { s with pc := w }

/-- R142: the fetch's advance, PC ← p + 2, and a skip's PC ← PC + 2. -/
def State.advancePC (s : State) : State := { s with pc := s.pc + 2 }

/-- R283: the rewind of FX0A, PC ← PC − 2. -/
def State.rewindPC (s : State) : State := { s with pc := s.pc - 2 }

/-- R169: a skip moves PC by 2 more when its condition holds. -/
def State.skipIf (s : State) (c : Bool) : State := if c then s.advancePC else s

/-! ### stack_memory (R38, R39) -/

/-- STACK[j]; there is no entry above 11. -/
def State.stackAt (s : State) (j : Nat) : Word := s.stack.toList.getD j 0

/-- R39: push. With SP at most 12, "SP = 12" is "not SP < 12". -/
def State.push (s : State) (w : Word) : Except Raise State :=
  if h : s.sp.val < 12 then
    .ok { s with stack := s.stack.set s.sp.val w h, sp := ⟨s.sp.val + 1, by omega⟩ }
  else .error ⟨.stackOverflow, s.sp.val⟩

/-- R39: pop. The slot keeps its value. -/
def State.pop (s : State) : Except Raise (Word × State) :=
  if s.sp.val = 0 then .error ⟨.stackUnderflow, s.sp.val⟩
  else .ok (s.stackAt (s.sp.val - 1), { s with sp := ⟨s.sp.val - 1, by omega⟩ })

/-! ### main memory (R71, R77-R80) -/

/-- The cell at `a`, for an address a check has passed. -/
def State.readMem (s : State) (a : Nat) : Byte := s.mem.read s.cfg.font a

/-- Writing the cell at `a`, for an address a check has passed. -/
def State.writeMem (s : State) (a : Nat) (b : Byte) : State := { s with mem := s.mem.write s.cfg.font a b }

/-- The `n` cells from `a` upward. -/
def State.readBytes (s : State) (a n : Nat) : List Byte := (List.range n).map (fun k => s.readMem (a + k))

/-- Writing consecutive cells from `a` upward. -/
def State.writeBytes (s : State) (a : Nat) (bs : List Byte) : State :=
  { s with mem := s.mem.writeBytes s.cfg.font a bs }

/-- R78: the check of a data read. -/
def checkRead (a : Nat) : Except Raise Unit :=
  if a > 4095 then .error ⟨.memOutOfRange, a⟩ else .ok ()

/-- R79: the checks of a data write. -/
def checkWrite (a : Nat) : Except Raise Unit :=
  if a > 4095 then .error ⟨.memOutOfRange, a⟩
  else if a < 80 then .error ⟨.fontWrite, a⟩
  else .ok ()

/-- R80: every address from `a` on is checked, in ascending order, before anything is written. -/
def checkEach (check : Nat → Except Raise Unit) (a : Nat) : Nat → Except Raise Unit
  | 0 => .ok ()
  | n + 1 =>
    match check a with
    | .error e => .error e
    | .ok _ => checkEach check (a + 1) n

/-! ### display_bitmap_mem and sprite_rasterizer (R41, R42, R264) -/

/-- R42: the pixel DISP[x][y]. -/
def State.pixel (s : State) (x y : Nat) : Bool := readPixel s.disp x y

/-- R264: clear, which marks the redraw. -/
def State.clearDisplay (s : State) : State :=
  { s with disp := blankBitmap s.cfg.width s.cfg.height, redraw := true }

/-- R264: draw. VF ends as the collision and REDRAW is set when a pixel changed. -/
def State.drawSprite (s : State) (rows : List Byte) (x0 y0 cols : Nat) : State :=
  let g := drawRows ⟨s.disp, false, false⟩ rows x0 y0 cols
  { s.writeV flagReg (flagByte g.collision) with disp := g.bitmap, redraw := s.redraw || g.changed }

/-! ### keypad_input_latch (R47) -/

/-- R47: pressed. -/
def State.pressed (s : State) (k : Key) : Bool := s.key.get k

/-- R283: the least key pressed (decision D13). -/
def State.leastPressed (s : State) : Option Key := (List.finRange 16).find? s.pressed

/-- R46: writing KW_STATE and KW_KEY. -/
def State.setLatch (s : State) (kw : KeyWait) (k : Key) : State := { s with kwState := kw, kwKey := k }

/-- R280, R281: the key VX names; there are sixteen (decision D12). -/
def keyOf (vx : Byte) : Except Raise Key :=
  if h : vx.toNat < 16 then .ok ⟨vx.toNat, h⟩ else .error ⟨.keyIndexOutOfRange, vx.toNat⟩

/-! ### timer_countdown_engine (R43) -/

/-- R43: writeDT. -/
def State.writeDT (s : State) (b : Byte) : State := { s with dt := b }

/-- R43: writeST. -/
def State.writeST (s : State) (b : Byte) : State := { s with st := b }

/-! ### the random source (R11) -/

/-- R11: the byte of this execution's draw, a free value. -/
def State.draw (s : State) : Byte := Config.randomByte s.draws

/-- The next draw takes a fresh byte (log 4). -/
def State.nextDraw (s : State) : State := { s with draws := s.draws + 1 }

/-! ### faults (R311, R312) and the frame of a step (R140) -/

/-- R311: the code of a cause, 0 when none. -/
def faultCode : Option Fault → BitVec 4
  | none => 0
  | some .fetchOutOfRange => 1
  | some .fetchMisaligned => 2
  | some .fetchOutsideProgram => 3
  | some .stackOverflow => 4
  | some .stackUnderflow => 5
  | some .memOutOfRange => 6
  | some .fontWrite => 7
  | some .keyIndexOutOfRange => 8
  | some .disputedEncoding => 9

/-- R312: fault entry, at the state `s` a step starts from, with `w` the fetched word (0 when the fetch failed). -/
def State.takeFault (s : State) (w : Word) (e : Raise) : State :=
  { s with run := .halted, faultCause := some e.cause, faultPc := s.pc, faultWord := w, faultInfo := e.info }

/-- R140: a step that raises keeps nothing of itself; a step that does not is committed whole. -/
def State.commit (s : State) (w : Word) (r : Except Raise State) : Host.Outcome State Fault Refusal :=
  match r with
  | .ok t => .next t
  | .error e => .next (s.takeFault w e)

/-- R140, R142: runs the rule of an instruction whose word is `w`: PC ← p + 2, then the rule. -/
def runRule (w : Word) (rule : State → Except Raise State) (s : State) : Host.Outcome State Fault Refusal :=
  s.commit w (rule s.advancePC)

/-- R141: the fetch at PC, after its three checks in their order. -/
def State.fetch (s : State) : Except Raise Word :=
  let p := s.pc.toNat
  if p > 4094 then .error ⟨.fetchOutOfRange, p⟩
  else if p % 2 = 1 then .error ⟨.fetchMisaligned, p⟩
  else if p < 512 then .error ⟨.fetchOutsideProgram, p⟩
  else .ok (wordOfBytes (s.readMem p) (s.readMem (p + 1)))

/-- R140: STEP, with `run` running an instruction from the state its fetch saw. In HALTED nothing changes (R148). -/
def stepWith (run : Instr → State → Host.Outcome State Fault Refusal) (s : State) :
    Host.Outcome State Fault Refusal :=
  match s.run with
  | .halted => .next s
  | .running =>
    match s.fetch with
    | .error e => .next (s.takeFault 0 e)
    | .ok w =>
      match classify w with
      | .instr i => run i s
      | .unrecognized => .next s.advancePC
      | .disputed => .next (s.takeFault w ⟨.disputedEncoding, w.toNat⟩)

/-- Whether a fetch at PC passes its checks (R141). -/
def State.fetchable (s : State) : Bool :=
  decide (s.pc.toNat ≤ 4094) && decide (s.pc.toNat % 2 = 0) && decide (512 ≤ s.pc.toNat)

/-- `s` with the word `w` where the next step fetches: PC stays when a fetch there passes, and is 512 otherwise; the machine
runs (log 17). -/
def State.placeWord (s : State) (w : Word) : State :=
  let t : State := if s.fetchable then s else s.writePC 512
  { t.writeBytes t.pc.toNat (bytesOfWord w) with run := .running }

end Sys2Proof.Machine
end

