-- ==== Sys2Proof/Machine/Alu.lean ====
section
/-! DEFINITION. Register and arithmetic instructions: 6XNN, 7XNN, 8XY0 to 8XYE, CXNN (spec 42_alu.md). Operands are read
from the state before execute, then V[X] is written, then VF (R190). No rule here raises. -/

namespace Sys2Proof.Machine

/-- R195-R197: writes a logic result, and VF ← 0 in legacy mode. -/
def State.writeLogic (s : State) (x : Reg) (b : Byte) : State :=
  if s.cfg.qLogicVf then (s.writeV x b).writeV flagReg 0 else s.writeV x b

/-- R192: V[X] ← NN. -/
def exec6XNN (x : Reg) (nn : Byte) (s : State) : Host.Outcome State Fault Refusal :=
  runRule (encode (.op6XNN x nn)) (fun t => .ok (t.writeV x nn)) s

/-- R193: V[X] ← wrap8(V[X] + NN), no flag. -/
def exec7XNN (x : Reg) (nn : Byte) (s : State) : Host.Outcome State Fault Refusal :=
  runRule (encode (.op7XNN x nn)) (fun t => .ok (t.writeV x (add8 (t.readV x) nn))) s

/-- R194: V[X] ← V[Y]. -/
def exec8XY0 (x y : Reg) (s : State) : Host.Outcome State Fault Refusal :=
  runRule (encode (.op8XY0 x y)) (fun t => .ok (t.writeV x (t.readV y))) s

/-- R195: V[X] ← V[X] OR V[Y]. -/
def exec8XY1 (x y : Reg) (s : State) : Host.Outcome State Fault Refusal :=
  runRule (encode (.op8XY1 x y)) (fun t => .ok (t.writeLogic x (t.readV x ||| t.readV y))) s

/-- R196: V[X] ← V[X] AND V[Y]. -/
def exec8XY2 (x y : Reg) (s : State) : Host.Outcome State Fault Refusal :=
  runRule (encode (.op8XY2 x y)) (fun t => .ok (t.writeLogic x (t.readV x &&& t.readV y))) s

/-- R197: V[X] ← V[X] XOR V[Y]. -/
def exec8XY3 (x y : Reg) (s : State) : Host.Outcome State Fault Refusal :=
  runRule (encode (.op8XY3 x y)) (fun t => .ok (t.writeLogic x (t.readV x ^^^ t.readV y))) s

/-- R198: V[X] ← wrap8(V[X] + V[Y]); VF ← carry. -/
def exec8XY4 (x y : Reg) (s : State) : Host.Outcome State Fault Refusal :=
  runRule (encode (.op8XY4 x y))
    (fun t => .ok (t.writeWithFlag x (add8 (t.readV x) (t.readV y)) (carryOut (t.readV x) (t.readV y)))) s

/-- R199: V[X] ← wrap8(V[X] − V[Y] + 256); VF ← no borrow. -/
def exec8XY5 (x y : Reg) (s : State) : Host.Outcome State Fault Refusal :=
  runRule (encode (.op8XY5 x y))
    (fun t => .ok (t.writeWithFlag x (sub8 (t.readV x) (t.readV y)) (noBorrow (t.readV x) (t.readV y)))) s

/-- R200: V[X] ← src >> 1; VF ← the bit shifted out. -/
def exec8XY6 (x y : Reg) (s : State) : Host.Outcome State Fault Refusal :=
  runRule (encode (.op8XY6 x y))
    (fun t =>
      let src := shiftSource t.cfg (t.readV x) (t.readV y)
      .ok (t.writeWithFlag x (shr1 src) (shiftedOutRight src))) s

/-- R201: V[X] ← wrap8(V[Y] − V[X] + 256); VF ← no borrow. -/
def exec8XY7 (x y : Reg) (s : State) : Host.Outcome State Fault Refusal :=
  runRule (encode (.op8XY7 x y))
    (fun t => .ok (t.writeWithFlag x (sub8 (t.readV y) (t.readV x)) (noBorrow (t.readV y) (t.readV x)))) s

/-- R202: V[X] ← wrap8(src << 1); VF ← the bit shifted out. -/
def exec8XYE (x y : Reg) (s : State) : Host.Outcome State Fault Refusal :=
  runRule (encode (.op8XYE x y))
    (fun t =>
      let src := shiftSource t.cfg (t.readV x) (t.readV y)
      .ok (t.writeWithFlag x (shl1 src) (shiftedOutLeft src))) s

/-- R203: V[X] ← r AND NN, r a free draw. -/
def execCXNN (x : Reg) (nn : Byte) (s : State) : Host.Outcome State Fault Refusal :=
  runRule (encode (.opCXNN x nn)) (fun t => .ok (t.nextDraw.writeV x (t.draw &&& nn))) s

end Sys2Proof.Machine
end

