-- ==== Sys2Proof/Machine/ControlFlow.lean ====
section
/-! DEFINITION. Control transfer: 00EE, 1NNN, 2NNN, 3XNN, 4XNN, 5XY0, 9XY0, BNNN (spec 41_control_flow.md). -/

namespace Sys2Proof.Machine

/-- R160: PC ← pop(). -/
def exec00EE (s : State) : Host.Outcome State Fault Refusal :=
  runRule (encode .op00EE) (fun t => t.pop.map (fun r => r.2.writePC r.1)) s

/-- R161: PC ← NNN. -/
def exec1NNN (nnn : BitVec 12) (s : State) : Host.Outcome State Fault Refusal :=
  runRule (encode (.op1NNN nnn)) (fun t => .ok (t.writePC (addressOf nnn))) s

/-- R162: push(PC), then PC ← NNN. -/
def exec2NNN (nnn : BitVec 12) (s : State) : Host.Outcome State Fault Refusal :=
  runRule (encode (.op2NNN nnn)) (fun t => (t.push t.pc).map (fun u => u.writePC (addressOf nnn))) s

/-- R163: skip if V[X] = NN. -/
def exec3XNN (x : Reg) (nn : Byte) (s : State) : Host.Outcome State Fault Refusal :=
  runRule (encode (.op3XNN x nn)) (fun t => .ok (t.skipIf (t.readV x == nn))) s

/-- R164: skip if V[X] ≠ NN. -/
def exec4XNN (x : Reg) (nn : Byte) (s : State) : Host.Outcome State Fault Refusal :=
  runRule (encode (.op4XNN x nn)) (fun t => .ok (t.skipIf (t.readV x != nn))) s

/-- R165: skip if V[X] = V[Y]. -/
def exec5XY0 (x y : Reg) (s : State) : Host.Outcome State Fault Refusal :=
  runRule (encode (.op5XY0 x y)) (fun t => .ok (t.skipIf (t.readV x == t.readV y))) s

/-- R166: skip if V[X] ≠ V[Y]. -/
def exec9XY0 (x y : Reg) (s : State) : Host.Outcome State Fault Refusal :=
  runRule (encode (.op9XY0 x y)) (fun t => .ok (t.skipIf (t.readV x != t.readV y))) s

/-- R167: PC ← NNN + V[0], not masked. -/
def execBNNN (nnn : BitVec 12) (s : State) : Host.Outcome State Fault Refusal :=
  runRule (encode (.opBNNN nnn)) (fun t => .ok (t.writePC (wrap16 (nnn.toNat + (t.readV 0).toNat)))) s

end Sys2Proof.Machine
end

