-- ==== Sys2Proof/Machine/Display.lean ====
section
/-! DEFINITION. The display instructions 00E0 and DXYN (spec 44_display.md). -/

namespace Sys2Proof.Machine

/-- R260: every pixel 0; REDRAW ← 1. -/
def exec00E0 (s : State) : Host.Outcome State Fault Refusal :=
  runRule (encode .op00E0) (fun t => .ok t.clearDisplay) s

/-- R261: the origin is read before VF changes; only the unclipped rows are checked and read. -/
def execDXYN (x y : Reg) (n : Nat) (s : State) : Host.Outcome State Fault Refusal :=
  runRule (encode (.opDXYN x y n))
    (fun t =>
      let x0 := originX t.cfg (t.readV x)
      let y0 := originY t.cfg (t.readV y)
      let rows := visibleRows t.cfg y0 n
      (checkEach checkRead t.i.toNat rows).map
        (fun _ => t.drawSprite (t.readBytes t.i.toNat rows) x0 y0 (visibleCols t.cfg x0))) s

end Sys2Proof.Machine
end

