-- ==== Sys2Proof/Machine/IndexMemory.lean ====
section
/-! DEFINITION. The index register and memory transfer: ANNN, FX1E, FX29, FX33, FX55, FX65 (spec 43_index_memory.md).
Every address is checked before any write (20_memory.md R80). -/

namespace Sys2Proof.Machine

/-- The bytes V[0], …, V[X] (R234). -/
def State.lowRegs (s : State) (x : Reg) : List Byte := s.v.toList.take (x.val + 1)

/-- R235: V[k] ← MEM[a + k] for k = 0..X; registers above X keep their values. -/
def State.loadLowRegs (s : State) (a : Nat) (x : Reg) : State :=
  { s with v := Vector.ofFn (fun r => if r ≤ x then s.readMem (a + r.val) else s.readV r) }

/-- R230: I ← NNN. -/
def execANNN (nnn : BitVec 12) (s : State) : Host.Outcome State Fault Refusal :=
  runRule (encode (.opANNN nnn)) (fun t => .ok (t.writeI (addressOf nnn))) s

/-- R231: I ← wrap16(I + V[X]), no flag. -/
def execFX1E (x : Reg) (s : State) : Host.Outcome State Fault Refusal :=
  runRule (encode (.opFX1E x)) (fun t => .ok (t.writeI (addI t.i (t.readV x)))) s

/-- R232: I ← V[X] × 5, V[X] not masked. -/
def execFX29 (x : Reg) (s : State) : Host.Outcome State Fault Refusal :=
  runRule (encode (.opFX29 x)) (fun t => .ok (t.writeI (wrap16 ((t.readV x).toNat * 5)))) s

/-- R233: the decimal digits of V[X] to MEM[I], MEM[I+1], MEM[I+2]. -/
def execFX33 (x : Reg) (s : State) : Host.Outcome State Fault Refusal :=
  runRule (encode (.opFX33 x))
    (fun t => (checkEach checkWrite t.i.toNat 3).map (fun _ => t.writeBytes t.i.toNat (bcdDigits (t.readV x)))) s

/-- R234: V[0]..V[X] to MEM[I..I+X]; I advances in legacy mode. -/
def execFX55 (x : Reg) (s : State) : Host.Outcome State Fault Refusal :=
  runRule (encode (.opFX55 x))
    (fun t => (checkEach checkWrite t.i.toNat (x.val + 1)).map
      (fun _ => (t.writeBytes t.i.toNat (t.lowRegs x)).writeI (indexAfter t.cfg t.i x))) s

/-- R235: MEM[I..I+X] to V[0]..V[X]; I advances in legacy mode. -/
def execFX65 (x : Reg) (s : State) : Host.Outcome State Fault Refusal :=
  runRule (encode (.opFX65 x))
    (fun t => (checkEach checkRead t.i.toNat (x.val + 1)).map
      (fun _ => (t.loadLowRegs t.i.toNat x).writeI (indexAfter t.cfg t.i x))) s

end Sys2Proof.Machine
end

