-- ==== Sys2Proof/Machine/KeypadTimers.lean ====
section
/-! DEFINITION. Keypad and timer instructions: EX9E, EXA1, FX07, FX0A, FX15, FX18 (spec 45_keypad_timers.md). -/

namespace Sys2Proof.Machine

/-- R280: skip if key V[X] is pressed. -/
def execEX9E (x : Reg) (s : State) : Host.Outcome State Fault Refusal :=
  runRule (encode (.opEX9E x)) (fun t => (keyOf (t.readV x)).map (fun k => t.skipIf (t.pressed k))) s

/-- R281: skip if key V[X] is not pressed. -/
def execEXA1 (x : Reg) (s : State) : Host.Outcome State Fault Refusal :=
  runRule (encode (.opEXA1 x)) (fun t => (keyOf (t.readV x)).map (fun k => t.skipIf (!t.pressed k))) s

/-- R282: V[X] ← DT. -/
def execFX07 (x : Reg) (s : State) : Host.Outcome State Fault Refusal :=
  runRule (encode (.opFX07 x)) (fun t => .ok (t.writeV x t.dt)) s

/-- R283: one poll of the key wait, PC being p + 2. -/
def State.pollKey (s : State) (x : Reg) : State :=
  match s.kwState with
  | .idle =>
    match s.leastPressed with
    | some k => (s.setLatch .awaitRelease k).rewindPC
    | none => s.rewindPC
  | .awaitRelease =>
    if s.pressed s.kwKey then s.rewindPC
    else (s.writeV x (BitVec.ofNat 8 s.kwKey.val)).setLatch .idle 0

/-- R283: wait for a key press and release, then V[X] ← its index. -/
def execFX0A (x : Reg) (s : State) : Host.Outcome State Fault Refusal :=
  runRule (encode (.opFX0A x)) (fun t => .ok (t.pollKey x)) s

/-- R284: DT ← V[X]. -/
def execFX15 (x : Reg) (s : State) : Host.Outcome State Fault Refusal :=
  runRule (encode (.opFX15 x)) (fun t => .ok (t.writeDT (t.readV x))) s

/-- R285: ST ← V[X]. -/
def execFX18 (x : Reg) (s : State) : Host.Outcome State Fault Refusal :=
  runRule (encode (.opFX18 x)) (fun t => .ok (t.writeST (t.readV x))) s

end Sys2Proof.Machine
end

