-- ==== Sys2Proof/Machine/Step.lean ====
section
/-! DEFINITION. One STEP of the machine (spec 40_dispatch.md R140), and placing an instruction where it fetches. -/

namespace Sys2Proof.Machine

/-- R140: STEP. -/
def step (s : State) : Host.Outcome State Fault Refusal := stepWith exec s

/-- `s` with the instruction whose bits are `w` stored where `step` fetches its next instruction (log 17). -/
def State.withFetchWord (s : State) (nbits w : Nat) : State := s.placeWord (tableWord nbits w)

end Sys2Proof.Machine
end

