-- ==== Sys2Proof/Machine/HostOps.lean ====
section
/-! DEFINITION. The host operations other than STEP (spec 60_exceptions.md R330, R340, R341; 70_reset_and_hazards.md R360,
R362). Each acts alike in RUNNING and in HALTED. -/

namespace Sys2Proof.Machine

/-- R7: PROG_BASE. -/
def progBase : Nat := 512

/-- R7: ROM_MAX. -/
def romMax : Nat := 3584

/-- R360: why a LOAD fails. -/
inductive LoadError where
  /-- The ROM has more than 3584 bytes: there is no machine afterwards. -/
  | romTooLarge
  deriving DecidableEq, Repr

/-- R51: every state element at its value after LOAD of `rom` under `c`, and after RESET. `k` is where the random source
stands, which no LOAD or RESET sets back: its next byte stays free (R11; log 4). -/
def baseline (c : Config) (rom : List Byte) (k : Nat) : State where
  mem        := Memory.writeBytes c.font [] progBase rom
  v          := Vector.replicate 16 0
  i          := 0
  pc         := BitVec.ofNat 16 progBase
  stack      := Vector.replicate 12 0
  sp         := 0
  disp       := blankBitmap c.width c.height
  redraw     := false
  dt         := 0
  st         := 0
  key        := Vector.replicate 16 false
  kwState    := .idle
  kwKey      := 0
  run        := .running
  faultCause := none
  faultPc    := 0
  faultWord  := 0
  faultInfo  := 0
  romImg     := rom
  cfg        := c
  draws      := k

/-- R360: LOAD. A configuration with W = 0 or H = 0, which the spec excludes (R8) without saying what LOAD does with it,
builds a machine like any other (DESIGN CHOICE, log 21, unsafe). -/
def load (c : Config) (rom : List Byte) (k : Nat) : Except LoadError State :=
  if rom.length > romMax then .error .romTooLarge else .ok (baseline c rom k)

/-- R362: RESET, from every state. -/
def State.resetOp (s : State) : State := baseline s.cfg s.romImg s.draws

/-- R330: a timer counts down toward 0. -/
def countDown (b : Byte) : Byte := if b.toNat > 0 then BitVec.ofNat 8 (b.toNat - 1) else b

/-- R330: TICK. -/
def State.tick (s : State) : State := { s with dt := countDown s.dt, st := countDown s.st }

/-- R340: SET_KEY(k, b). -/
def State.setKey (s : State) (k : Key) (b : Bool) : State := { s with key := s.key.set k.val b }

/-- R41, R340: CLEAR_REDRAW. -/
def State.clearRedraw (s : State) : State := { s with redraw := false }

/-- R340: READ_DISPLAY. -/
def State.readDisplay (s : State) : Bitmap := s.disp

/-- R44, R340: SOUND_EN, READ_SOUND. -/
def State.soundEn (s : State) : Bool := s.st != 0

/-- R340: READ_REDRAW. -/
def State.readRedraw (s : State) : Bool := s.redraw

end Sys2Proof.Machine
end

