-- ==== Sys2Proof/Machine/Schedule.lean ====
section
/-! DEFINITION. The whole machine under its host: one operation at a time, in any order (spec 60_exceptions.md R340-R343).
The reads change nothing and are the functions of Machine/HostOps.lean. -/

namespace Sys2Proof.Machine

/-- R340: the host operations that act on the machine. -/
inductive HostOp where
  /-- LOAD(bytes, configuration); `k` is where the random source stands (log 4). -/
  | load (c : Config) (rom : List Byte) (k : Nat)
  | reset
  | step
  | tick
  | setKey (k : Key) (b : Bool)
  /-- READ_DISPLAY, READ_SOUND, READ_REDRAW, READ_STATE. -/
  | read
  | clearRedraw
  deriving DecidableEq, Repr

/-- An operation on an existing machine; `none` is "no machine exists" (R360). -/
def applyToMachine (op : HostOp) (s : State) : Host.Outcome (Option State) Fault Refusal :=
  match op with
  | .load c rom k => .next (load c rom k).toOption
  | .reset => .next (some s.resetOp)
  | .step =>
    match step s with
    | .next t => .next (some t)
    | .fault f => .fault f
    | .refused r => .refused r
  | .tick => .next (some s.tick)
  | .setKey k b => .next (some (s.setKey k b))
  | .read => .next (some s)
  | .clearRedraw => .next (some s.clearRedraw)

/-- An operation of the host. Where no machine exists only LOAD is defined (R360, decision D32): the others leave it so. -/
def applyOp (op : HostOp) (m : Option State) : Host.Outcome (Option State) Fault Refusal :=
  match m with
  | some s => applyToMachine op s
  | none =>
    match op with
    | .load c rom k => .next (load c rom k).toOption
    | .reset => .next none
    | .step => .next none
    | .tick => .next none
    | .setKey _ _ => .next none
    | .read => .next none
    | .clearRedraw => .next none

/-- R342: a finite sequence of host operations. -/
def runOps (ops : List HostOp) (m : Option State) : Host.Outcome (Option State) Fault Refusal :=
  match ops with
  | [] => .next m
  | op :: rest =>
    match applyOp op m with
    | .next m' => runOps rest m'
    | .fault f => .fault f
    | .refused r => .refused r

end Sys2Proof.Machine
end

