-- ==== Sys2Proof/Safety.lean ====
section
/-! DEFINITION. What counts as a safe run (no fault has halted the machine: spec 40_dispatch.md R148, "a model should treat
a HALTED state as a fault outcome"), the machine's invariants, and the parts of the state a frame speaks of. -/

namespace Sys2Proof.Machine

/-- R148: a fault has halted the machine. -/
abbrev State.isHalted (s : State) : Prop := s.run = .halted

/-- The machine's stores are well formed: the configuration is legal (R8), memory is canonical, every listed cell is one a
program may write (R71, R79), the display is a W × H grid (R40), and ROM_IMG is a ROM a LOAD accepts (R50). -/
abbrev State.StoresOk (s : State) : Prop :=
  s.cfg.wf ∧
  Memory.wf s.cfg.font s.mem ∧
  (∀ c ∈ s.mem, fontLen ≤ c.1 ∧ c.1 < memSize) ∧
  s.disp.length = s.cfg.height ∧
  (∀ row ∈ s.disp, row.length = s.cfg.width) ∧
  s.romImg.length ≤ romMax

/-- R35: PC is at most 0x10FE, the largest value a rule writes, and every stack entry is at most 4096, the largest address
a call pushes. -/
abbrev State.AddressesOk (s : State) : Prop :=
  s.pc.toNat ≤ 0x10FE ∧ ∀ w ∈ s.stack.toList, w.toNat ≤ 4096

/-- R147: the word at PC is an FX0A. -/
def State.atKeyWait (s : State) : Bool :=
  match s.fetch with
  | .error _ => false
  | .ok w =>
    match classify w with
    | .instr (.opFX0A _) => true
    | _ => false

/-- R46, R146, R147: when the latch is idle KW_KEY is 0; when it waits for a release the machine runs and the word at PC is
an FX0A. -/
abbrev State.LatchOk (s : State) : Prop :=
  (s.kwState = .idle → s.kwKey = 0) ∧
  (s.kwState = .awaitRelease → s.run = .running ∧ s.atKeyWait = true)

/-- R49: the halt record is cleared while the machine runs, and holds a cause when it is halted. -/
abbrev State.HaltRecordOk (s : State) : Prop :=
  (s.run = .running → s.faultCause = none ∧ s.faultPc = 0 ∧ s.faultWord = 0 ∧ s.faultInfo = 0) ∧
  (s.run = .halted → s.faultCause ≠ none)

/-- The parts of the state other than PC, each a thing an instruction may leave unchanged. -/
inductive Part where
  | reg (r : Reg)
  | index
  | cell (a : Nat)
  | stackEntry (j : Nat)
  | stackPointer
  | pixel (x y : Nat)
  | redraw
  | delayTimer
  | soundTimer
  | key (k : Key)
  | latch
  | haltRecord
  | romImage
  | config
  | drawCounter
  deriving DecidableEq, Repr

/-- `t` holds in part `p` what `s` holds. -/
def Part.same (s t : State) : Part → Prop
  | .reg r => t.readV r = s.readV r
  | .index => t.i = s.i
  | .cell a => t.readMem a = s.readMem a
  | .stackEntry j => t.stackAt j = s.stackAt j
  | .stackPointer => t.sp = s.sp
  | .pixel x y => t.pixel x y = s.pixel x y
  | .redraw => t.redraw = s.redraw
  | .delayTimer => t.dt = s.dt
  | .soundTimer => t.st = s.st
  | .key k => t.key.get k = s.key.get k
  | .latch => t.kwState = s.kwState ∧ t.kwKey = s.kwKey
  | .haltRecord =>
    t.run = s.run ∧ t.faultCause = s.faultCause ∧ t.faultPc = s.faultPc ∧ t.faultWord = s.faultWord ∧
      t.faultInfo = s.faultInfo
  | .romImage => t.romImg = s.romImg
  | .config => t.cfg = s.cfg
  | .drawCounter => t.draws = s.draws

/-- From `s` to `t` nothing changes but PC and the parts `written` names. -/
def OnlyWrites (written : Part → Prop) (s t : State) : Prop := ∀ p, ¬ written p → Part.same s t p

end Sys2Proof.Machine
end

