-- ==== Sys2Proof/Certificates/Slice0/Obligations.lean ====
section
/-! DEFINITION. The statements for the provers, each a rule of the spec about the machine. `exec` runs an instruction from
the state its fetch saw (PC = p), so "PC + 2" below is the fetch's advance (R142). -/

namespace Sys2Proof.Machine

/-! ### words the statements share -/

/-- R312: `t` is `s` with the halt record written and nothing else changed, PC included. -/
def HaltsWith (s t : State) (code : BitVec 4) (word : Word) (info : Nat) : Prop :=
  t.run = .halted ∧ faultCode t.faultCause = code ∧ t.faultPc = s.pc ∧ t.faultWord = word ∧ t.faultInfo = info ∧
  t.pc = s.pc ∧ OnlyWrites (fun p => p = .haltRecord) s t

/-- R261: pixel (px, py) lies under a set bit of the unclipped part of the sprite at `a` with `n` rows and origin
(x0, y0): bit 7 at column x0. -/
def UnderSpriteBit (s : State) (a x0 y0 n px py : Nat) : Prop :=
  x0 ≤ px ∧ px < x0 + 8 ∧ px < s.cfg.width ∧ y0 ≤ py ∧ py < y0 + n ∧ py < s.cfg.height ∧
  (s.readMem (a + (py - y0))).getLsbD (7 - (px - x0)) = true

/-- R311: the causes an instruction's own rule lists. -/
def causesOf : Instr → List Fault
  | .op00EE => [.stackUnderflow]
  | .op2NNN _ => [.stackOverflow]
  | .opDXYN _ _ _ => [.memOutOfRange]
  | .opFX33 _ => [.memOutOfRange, .fontWrite]
  | .opFX55 _ => [.memOutOfRange, .fontWrite]
  | .opFX65 _ => [.memOutOfRange]
  | .opEX9E _ => [.keyIndexOutOfRange]
  | .opEXA1 _ => [.keyIndexOutOfRange]
  | _ => []

/-- R280, R281, R283: the instructions that read KEY. -/
def readsKeys : Instr → Bool
  | .opEX9E _ => true
  | .opEXA1 _ => true
  | .opFX0A _ => true
  | _ => false

/-- R30, R32, R33: the registers an instruction may write, VF among them where its rule writes a flag. -/
def writesReg (c : Config) (i : Instr) (r : Reg) : Prop :=
  match i with
  | .op6XNN x _ => r = x
  | .op7XNN x _ => r = x
  | .op8XY0 x _ => r = x
  | .op8XY1 x _ => r = x ∨ (c.qLogicVf = true ∧ r = flagReg)
  | .op8XY2 x _ => r = x ∨ (c.qLogicVf = true ∧ r = flagReg)
  | .op8XY3 x _ => r = x ∨ (c.qLogicVf = true ∧ r = flagReg)
  | .op8XY4 x _ => r = x ∨ r = flagReg
  | .op8XY5 x _ => r = x ∨ r = flagReg
  | .op8XY6 x _ => r = x ∨ r = flagReg
  | .op8XY7 x _ => r = x ∨ r = flagReg
  | .op8XYE x _ => r = x ∨ r = flagReg
  | .opCXNN x _ => r = x
  | .opDXYN _ _ _ => r = flagReg
  | .opFX07 x => r = x
  | .opFX0A x => r = x
  | .opFX65 x => r ≤ x
  | _ => False

/-- R30, column "written by": the parts an instruction may write from a state `s`. A cell names the address FX33 and FX55
store to, I + k. -/
def mayWrite (s : State) (i : Instr) : Part → Prop
  | .reg r => writesReg s.cfg i r
  | .index =>
    match i with
    | .opANNN _ => True
    | .opFX1E _ => True
    | .opFX29 _ => True
    | .opFX55 _ => s.cfg.qMemIncI = true
    | .opFX65 _ => s.cfg.qMemIncI = true
    | _ => False
  | .cell a =>
    match i with
    | .opFX33 _ => s.i.toNat ≤ a ∧ a ≤ s.i.toNat + 2
    | .opFX55 x => s.i.toNat ≤ a ∧ a ≤ s.i.toNat + x.val
    | _ => False
  | .stackEntry j =>
    match i with
    | .op2NNN _ => j = s.sp.val
    | _ => False
  | .stackPointer =>
    match i with
    | .op2NNN _ => True
    | .op00EE => True
    | _ => False
  | .pixel _ _ =>
    match i with
    | .op00E0 => True
    | .opDXYN _ _ _ => True
    | _ => False
  | .redraw =>
    match i with
    | .op00E0 => True
    | .opDXYN _ _ _ => True
    | _ => False
  | .delayTimer =>
    match i with
    | .opFX15 _ => True
    | _ => False
  | .soundTimer =>
    match i with
    | .opFX18 _ => True
    | _ => False
  | .key _ => False
  | .latch =>
    match i with
    | .opFX0A _ => True
    | _ => False
  | .haltRecord => causesOf i ≠ []
  | .romImage => False
  | .config => False
  | .drawCounter =>
    match i with
    | .opCXNN _ _ => True
    | _ => False

/-- R195-R197: what a logic instruction that combines bits by `f` leaves. VX ends as the result, unless X = 15 in legacy
mode; VF ends 0 in legacy mode. -/
def LogicResult (f : Bool → Bool → Bool) (x y : Reg) (s t : State) : Prop :=
  t.pc = s.pc + 2 ∧
  (s.cfg.qLogicVf = true → t.readV flagReg = 0) ∧
  (s.cfg.qLogicVf = false ∨ x ≠ flagReg → ∀ j, j < 8 →
    (t.readV x).getLsbD j = f ((s.readV x).getLsbD j) ((s.readV y).getLsbD j)) ∧
  OnlyWrites (fun p => p = .reg x ∨ (s.cfg.qLogicVf = true ∧ p = .reg flagReg)) s t

/-- `n` TICKs in a row. -/
def tickTimes : Nat → State → State
  | 0, s => s
  | n + 1, s => tickTimes n s.tick

/-- R363: an operation other than LOAD. -/
def isLoad : HostOp → Bool
  | .load _ _ _ => true
  | _ => false

/-- All the machine's invariants together. -/
def State.AllOk (s : State) : Prop := s.StoresOk ∧ s.AddressesOk ∧ s.LatchOk ∧ s.HaltRecordOk

end Sys2Proof.Machine

open Sys2Proof Sys2Proof.Machine

/-! ### load, reset and the host -/

/-- R51: every state element after a LOAD of a ROM, and after a RESET of a machine with that ROM_IMG and configuration. -/
def Obligations.LoadAndResetLeaveTheResetValues : Prop :=
  ∀ (c : Config) (rom : List Byte) (k : Nat) (s : State), rom.length ≤ 3584 →
    (load c rom k = .ok s ∨ ∃ u : State, u.cfg = c ∧ u.romImg = rom ∧ s = u.resetOp) →
    (∀ a (h : a < 80), s.readMem a = c.font.get ⟨a, h⟩) ∧
    (∀ a, 80 ≤ a → a < 512 → s.readMem a = 0) ∧
    (∀ j, j < rom.length → s.readMem (512 + j) = rom.getD j 0) ∧
    (∀ a, 512 + rom.length ≤ a → a ≤ 4095 → s.readMem a = 0) ∧
    (∀ r, s.readV r = 0) ∧ s.i = 0 ∧ s.pc = 512 ∧ (∀ j, s.stackAt j = 0) ∧ s.sp = 0 ∧ s.dt = 0 ∧ s.st = 0 ∧
    (∀ x y, s.pixel x y = false) ∧ s.redraw = false ∧ (∀ q, s.key.get q = false) ∧ s.kwState = .idle ∧ s.kwKey = 0 ∧
    s.run = .running ∧ faultCode s.faultCause = 0 ∧ s.faultPc = 0 ∧ s.faultWord = 0 ∧ s.faultInfo = 0 ∧
    s.romImg = rom ∧ s.cfg = c

/-- The model's choice (logs 2, 3, 8): State.reset is the LOAD of an empty ROM under the boot configuration, which is
64 × 32; the first STEP fetches 0x0000 and faults (R361). -/
def Obligations.ResetIsTheEmptyLoad : Prop :=
  load bootConfig [] 0 = .ok State.reset ∧ State.reset.cfg.width = 64 ∧ State.reset.cfg.height = 32 ∧
  ∃ t, step State.reset = .next t ∧ HaltsWith State.reset t 9 0 0

/-- R360, R361: LOAD fails exactly above 3584 bytes; else it answers the baseline of the bytes, copied verbatim. -/
def Obligations.LoadFailsExactlyAboveTheLimit : Prop :=
  ∀ (c : Config) (rom : List Byte) (k : Nat),
    (3584 < rom.length → load c rom k = .error .romTooLarge) ∧
    (rom.length ≤ 3584 → ∃ s, load c rom k = .ok s ∧ s = baseline c rom k ∧ s.romImg = rom ∧ s.cfg = c)

/-- R361: an empty ROM loads, and its first STEP faults on the disputed word 0x0000. -/
def Obligations.EmptyRomFaultsOnItsFirstStep : Prop :=
  ∀ (c : Config) (k : Nat), ∃ s t, load c [] k = .ok s ∧ step s = .next t ∧ HaltsWith s t 9 0 0

/-- R363: after any run of a machine without a further LOAD, RESET gives the state the LOAD gave, in every element of the
spec's state (all but the model's own draw counter, log 4). -/
def Obligations.ResetAfterAnyRunRestoresTheLoad : Prop :=
  ∀ (c : Config) (rom : List Byte) (k : Nat) (ops : List HostOp) (s : State),
    (∀ op ∈ ops, isLoad op = false) → runOps ops (some (baseline c rom k)) = .next (some s) →
    { s.resetOp with draws := k } = baseline c rom k

/-- R330: TICK takes one from each timer that is not 0 and changes nothing else. -/
def Obligations.TickCountsBothTimersDown : Prop :=
  ∀ s : State, s.tick.dt.toNat = s.dt.toNat - 1 ∧ s.tick.st.toNat = s.st.toNat - 1 ∧ s.tick.pc = s.pc ∧
    OnlyWrites (fun p => p = .delayTimer ∨ p = .soundTimer) s s.tick

/-- R331: from ST = n, SOUND_EN is 1 before each of the first n TICKs and 0 after the n-th, and ST stays 0. -/
def Obligations.SoundLastsExactlyItsTicks : Prop :=
  ∀ (s : State) (k : Nat), (tickTimes k s).st.toNat = s.st.toNat - k ∧
    ((tickTimes k s).soundEn = true ↔ k < s.st.toNat)

/-- R340: SET_KEY writes one key, CLEAR_REDRAW the redraw bit, and neither writes anything else, in RUNNING and in HALTED
alike (R341). -/
def Obligations.SetKeyAndClearRedrawWriteOnePart : Prop :=
  (∀ (s : State) (k : Key) (b : Bool), (s.setKey k b).key.get k = b ∧ (s.setKey k b).pc = s.pc ∧
    OnlyWrites (fun p => p = .key k) s (s.setKey k b)) ∧
  (∀ s : State, s.clearRedraw.redraw = false ∧ s.clearRedraw.pc = s.pc ∧
    OnlyWrites (fun p => p = .redraw) s s.clearRedraw)

/-! ### encoding -/

/-- R108: decoding the two bytes of a well-formed instruction, whatever follows them, gives the instruction back. -/
def Obligations.DecodingAnEncodedInstructionGivesItBack : Prop :=
  ∀ (i : Instr) (rest : List Byte), i.wellFormed = true → decodeBytes (bytesOfWord (encode i) ++ rest) = .ok (i, rest)

/-- R111: a word classified as an instruction is that instruction's word, and the instruction is well formed. -/
def Obligations.EncodingAClassifiedWordGivesItBack : Prop :=
  ∀ (w : Word) (i : Instr), classify w = .instr i → i.wellFormed = true ∧ encode i = w

/-- R108: the table of match and mask, row by row; a row selects the words whose masked bits are its match; no word selects
two rows. -/
def Obligations.OpcodeMapIsTheMatchAndMaskTable : Prop :=
  opcodeRows.map (fun r => ((rowMatch r).toNat, (rowMask r).toNat)) =
    [(0x00E0, 0xFFFF), (0x00EE, 0xFFFF), (0x1000, 0xF000), (0x2000, 0xF000), (0x3000, 0xF000), (0x4000, 0xF000),
     (0x5000, 0xF00F), (0x6000, 0xF000), (0x7000, 0xF000), (0x8000, 0xF00F), (0x8001, 0xF00F), (0x8002, 0xF00F),
     (0x8003, 0xF00F), (0x8004, 0xF00F), (0x8005, 0xF00F), (0x8006, 0xF00F), (0x8007, 0xF00F), (0x800E, 0xF00F)] ++
    [(0x9000, 0xF00F), (0xA000, 0xF000), (0xB000, 0xF000), (0xC000, 0xF000), (0xD000, 0xF000), (0xE09E, 0xF0FF),
     (0xE0A1, 0xF0FF), (0xF007, 0xF0FF), (0xF00A, 0xF0FF), (0xF015, 0xF0FF), (0xF018, 0xF0FF), (0xF01E, 0xF0FF),
     (0xF029, 0xF0FF), (0xF033, 0xF0FF), (0xF055, 0xF0FF), (0xF065, 0xF0FF)] ∧
  (∀ (w : Word), ∀ r ∈ opcodeRows, rowMatches w r = true ↔ w &&& rowMask r = rowMatch r) ∧
  (∀ (w : Word), opcodeRows.Pairwise (fun r q => ¬ (rowMatches w r = true ∧ rowMatches w q = true)))

/-- R109, R110: which words are unrecognized and which disputed, by family digit, N and NN of the word. -/
def Obligations.OtherWordsAreUnrecognizedOrDisputed : Prop :=
  ∀ w : Word,
    let n := w.toNat % 16
    let nn := w.toNat % 256
    let t := w.toNat / 4096
    (classify w = .unrecognized ↔
      (t = 0x0 ∧ n ≠ 0x0 ∧ n ≠ 0xE) ∨ (t = 0x8 ∧ n ∈ [0x8, 0x9, 0xA, 0xB, 0xC, 0xD, 0xF]) ∨
      (t = 0xE ∧ nn ∉ [0x9E, 0xA1] ∧ n ≠ 0x1 ∧ n ≠ 0xE) ∨
      (t = 0xF ∧ nn ∉ [0x07, 0x0A, 0x15, 0x18, 0x1E, 0x29, 0x33, 0x55, 0x65])) ∧
    (classify w = .disputed ↔
      (t = 0x0 ∧ w.toNat ≠ 0x00E0 ∧ w.toNat ≠ 0x00EE ∧ (n = 0x0 ∨ n = 0xE)) ∨ (t = 0x5 ∧ n ≠ 0x0) ∨
      (t = 0x9 ∧ n ≠ 0x0) ∨ (t = 0xE ∧ nn ∉ [0x9E, 0xA1] ∧ (n = 0x1 ∨ n = 0xE)))

/-- R102, R103: decode extracts every field of every word, and the fields make up the word. -/
def Obligations.DecodeExtractsEveryField : Prop :=
  ∀ w : Word,
    let r := decode w
    r.raw = w ∧ r.t.toNat = w.toNat / 4096 ∧ r.x.val = w.toNat / 256 % 16 ∧ r.y.val = w.toNat / 16 % 16 ∧
    r.n.toNat = w.toNat % 16 ∧ r.nn.toNat = w.toNat % 256 ∧ r.nnn.toNat = w.toNat % 4096 ∧ r.wellFormed = true

/-- Nine sample words, written out from R108, decode to their instructions, and two words that are no instructions to none. -/
def Obligations.SampleWordsDecode : Prop :=
  decodeTableWord 16 0x00E0 = some .op00E0 ∧ decodeTableWord 16 0x2300 = some (.op2NNN 0x300) ∧
  decodeTableWord 16 0x3210 = some (.op3XNN 2 0x10) ∧ decodeTableWord 16 0x8124 = some (.op8XY4 1 2) ∧
  decodeTableWord 16 0xA123 = some (.opANNN 0x123) ∧ decodeTableWord 16 0xD123 = some (.opDXYN 1 2 3) ∧
  decodeTableWord 16 0xE49E = some (.opEX9E 4) ∧ decodeTableWord 16 0xF30A = some (.opFX0A 3) ∧
  decodeTableWord 16 0xF255 = some (.opFX55 2) ∧ decodeTableWord 16 0x0000 = none ∧ decodeTableWord 16 0x8008 = none

/-! ### the step -/

/-- R140: in RUNNING, when the word at PC classifies as an instruction, STEP is exec of it, from the state the fetch saw;
that instruction is well formed and its word is the one fetched. -/
def Obligations.StepRunsTheDecodedInstruction : Prop :=
  ∀ (s : State) (w : Word) (i : Instr), s.run = .running → s.fetch = .ok w → classify w = .instr i →
    step s = exec i s ∧ encode i = w ∧ i.wellFormed = true

/-- R141: the word fetched, and the three checks in their order. -/
def Obligations.FetchChecksInOrder : Prop :=
  ∀ s : State, s.run = .running →
    (4094 < s.pc.toNat → ∃ t, step s = .next t ∧ HaltsWith s t 1 0 s.pc.toNat) ∧
    (s.pc.toNat ≤ 4094 → s.pc.toNat % 2 = 1 → ∃ t, step s = .next t ∧ HaltsWith s t 2 0 s.pc.toNat) ∧
    (s.pc.toNat < 512 → s.pc.toNat % 2 = 0 → ∃ t, step s = .next t ∧ HaltsWith s t 3 0 s.pc.toNat) ∧
    (512 ≤ s.pc.toNat → s.pc.toNat ≤ 4094 → s.pc.toNat % 2 = 0 → ∃ w, s.fetch = .ok w ∧
      w.toNat = (s.readMem s.pc.toNat).toNat * 256 + (s.readMem (s.pc.toNat + 1)).toNat)

/-- R144: an unrecognized word advances PC and does nothing else. -/
def Obligations.UnrecognizedWordOnlyAdvancesPc : Prop :=
  ∀ (s : State) (w : Word), s.run = .running → s.fetch = .ok w → classify w = .unrecognized →
    ∃ t, step s = .next t ∧ t.pc = s.pc + 2 ∧ OnlyWrites (fun _ => False) s t

/-- R145: a disputed word faults with its own value recorded. -/
def Obligations.DisputedWordFaults : Prop :=
  ∀ (s : State) (w : Word), s.run = .running → s.fetch = .ok w → classify w = .disputed →
    ∃ t, step s = .next t ∧ HaltsWith s t 9 w w.toNat

/-- R148: from HALTED, STEP changes nothing, TICK and SET_KEY still act, and only LOAD and RESET make the machine run
again, which they do. -/
def Obligations.OnlyLoadAndResetLeaveHalted : Prop :=
  (∀ s : State, s.run = .halted → step s = .next s) ∧
  (∀ s : State, s.run = .halted → s.tick.dt.toNat = s.dt.toNat - 1 ∧ s.tick.st.toNat = s.st.toNat - 1 ∧
    ∀ (k : Key) (b : Bool), (s.setKey k b).key.get k = b) ∧
  (∀ (s t : State) (op : HostOp), s.run = .halted → applyToMachine op s = .next (some t) →
    (t.run = .running ↔ op = .reset ∨ isLoad op = true))

/-- Every STEP, and every instruction, answers a next state: the model stops on nothing. That a fault is a next state, and
that a STEP from HALTED, which has no transition, answers the same state as a next one, is the model's choice (logs 5, 6). -/
def Obligations.EveryStepAnswersANextState : Prop :=
  (∀ (i : Instr) (s : State), ∃ t, exec i s = .next t) ∧ (∀ s : State, ∃ t, step s = .next t)

/-- R311, R312: an instruction that starts in RUNNING ends in RUNNING with the halt record unchanged, or halts precisely
with a cause its own rule lists, PC = p. -/
def Obligations.FaultsArePreciseAndListed : Prop :=
  ∀ (i : Instr) (s t : State), s.run = .running → exec i s = .next t →
    (t.run = .running ∧ Part.same s t .haltRecord) ∨
    ∃ f ∈ causesOf i, t.faultCause = some f ∧ HaltsWith s t (faultCode (some f)) (encode i) t.faultInfo

/-! ### control transfer -/

/-- R160: 00EE pops PC; on an empty stack it faults. -/
def Obligations.ReturnPopsPc : Prop :=
  (encode .op00EE).toNat = 0x00EE ∧
  ∀ s : State,
    (s.sp ≠ 0 → ∃ t, exec .op00EE s = .next t ∧ t.sp.val = s.sp.val - 1 ∧ t.pc = s.stackAt (s.sp.val - 1) ∧
      OnlyWrites (fun p => p = .stackPointer) s t) ∧
    (s.sp = 0 → ∃ t, exec .op00EE s = .next t ∧ HaltsWith s t 5 0x00EE 0)

/-- R161, R167: 1NNN and BNNN load PC, the latter with V0 added and not masked. -/
def Obligations.JumpsLoadPc : Prop :=
  ∀ (nnn : BitVec 12) (s : State),
    (encode (.op1NNN nnn)).toNat = 0x1000 + nnn.toNat ∧ (encode (.opBNNN nnn)).toNat = 0xB000 + nnn.toNat ∧
    (∃ t, exec (.op1NNN nnn) s = .next t ∧ t.pc.toNat = nnn.toNat ∧ OnlyWrites (fun _ => False) s t) ∧
    (∃ t, exec (.opBNNN nnn) s = .next t ∧ t.pc.toNat = nnn.toNat + (s.readV 0).toNat ∧
      OnlyWrites (fun _ => False) s t)

/-- R162: 2NNN pushes PC + 2 and jumps; on a full stack it faults. -/
def Obligations.CallPushesTheReturnAddress : Prop :=
  ∀ (nnn : BitVec 12) (s : State),
    (encode (.op2NNN nnn)).toNat = 0x2000 + nnn.toNat ∧
    (s.sp.val < 12 → ∃ t, exec (.op2NNN nnn) s = .next t ∧ t.sp.val = s.sp.val + 1 ∧
      t.stackAt s.sp.val = s.pc + 2 ∧ t.pc.toNat = nnn.toNat ∧
      OnlyWrites (fun p => p = .stackPointer ∨ p = .stackEntry s.sp.val) s t) ∧
    (s.sp = 12 → ∃ t, exec (.op2NNN nnn) s = .next t ∧ HaltsWith s t 4 (encode (.op2NNN nnn)) 12)

/-- R163, R164: skip on a constant. -/
def Obligations.ConstantSkips : Prop :=
  ∀ (x : Reg) (nn : Byte) (s : State),
    (encode (.op3XNN x nn)).toNat = 0x3000 + x.val * 256 + nn.toNat ∧
    (encode (.op4XNN x nn)).toNat = 0x4000 + x.val * 256 + nn.toNat ∧
    (∃ t, exec (.op3XNN x nn) s = .next t ∧ t.pc = (if s.readV x = nn then s.pc + 4 else s.pc + 2) ∧
      OnlyWrites (fun _ => False) s t) ∧
    (∃ t, exec (.op4XNN x nn) s = .next t ∧ t.pc = (if s.readV x = nn then s.pc + 2 else s.pc + 4) ∧
      OnlyWrites (fun _ => False) s t)

/-- R165, R166: skip on two registers. -/
def Obligations.RegisterSkips : Prop :=
  ∀ (x y : Reg) (s : State),
    (encode (.op5XY0 x y)).toNat = 0x5000 + x.val * 256 + y.val * 16 ∧
    (encode (.op9XY0 x y)).toNat = 0x9000 + x.val * 256 + y.val * 16 ∧
    (∃ t, exec (.op5XY0 x y) s = .next t ∧ t.pc = (if s.readV x = s.readV y then s.pc + 4 else s.pc + 2) ∧
      OnlyWrites (fun _ => False) s t) ∧
    (∃ t, exec (.op9XY0 x y) s = .next t ∧ t.pc = (if s.readV x = s.readV y then s.pc + 2 else s.pc + 4) ∧
      OnlyWrites (fun _ => False) s t)

/-- R168: a 1NNN at PC that names PC is a fixed point of STEP. -/
def Obligations.SelfJumpIsAFixedPoint : Prop :=
  ∀ (s : State) (nnn : BitVec 12), s.fetch = .ok (encode (.op1NNN nnn)) → nnn.toNat = s.pc.toNat → step s = .next s

/-- R160, corner case: a 00EE right after a 2NNN returns to the address after the call, with SP and the entries below it as
before. -/
def Obligations.ReturnUndoesCall : Prop :=
  ∀ (nnn : BitVec 12) (s t : State), s.sp.val < 12 → exec (.op2NNN nnn) s = .next t →
    ∃ u, exec .op00EE t = .next u ∧ u.pc = s.pc + 2 ∧
      OnlyWrites (fun p => p = .stackEntry s.sp.val) s u

/-! ### registers and arithmetic -/

/-- R192, R193, R194: load constant, add constant without a flag, copy register. -/
def Obligations.LoadAddAndCopy : Prop :=
  ∀ (x y : Reg) (nn : Byte) (s : State),
    (encode (.op6XNN x nn)).toNat = 0x6000 + x.val * 256 + nn.toNat ∧
    (encode (.op7XNN x nn)).toNat = 0x7000 + x.val * 256 + nn.toNat ∧
    (encode (.op8XY0 x y)).toNat = 0x8000 + x.val * 256 + y.val * 16 ∧
    (∃ t, exec (.op6XNN x nn) s = .next t ∧ t.readV x = nn ∧ t.pc = s.pc + 2 ∧
      OnlyWrites (fun p => p = .reg x) s t) ∧
    (∃ t, exec (.op7XNN x nn) s = .next t ∧ (t.readV x).toNat = ((s.readV x).toNat + nn.toNat) % 256 ∧
      t.pc = s.pc + 2 ∧ OnlyWrites (fun p => p = .reg x) s t) ∧
    (∃ t, exec (.op8XY0 x y) s = .next t ∧ t.readV x = s.readV y ∧ t.pc = s.pc + 2 ∧
      OnlyWrites (fun p => p = .reg x) s t)

/-- R195, R196, R197: the logic instructions bit by bit; VF ← 0 in legacy mode and is untouched in modern mode. -/
def Obligations.LogicInstructions : Prop :=
  ∀ (x y : Reg) (s : State),
    (encode (.op8XY1 x y)).toNat = 0x8001 + x.val * 256 + y.val * 16 ∧
    (encode (.op8XY2 x y)).toNat = 0x8002 + x.val * 256 + y.val * 16 ∧
    (encode (.op8XY3 x y)).toNat = 0x8003 + x.val * 256 + y.val * 16 ∧
    (∃ t, exec (.op8XY1 x y) s = .next t ∧ LogicResult or x y s t) ∧
    (∃ t, exec (.op8XY2 x y) s = .next t ∧ LogicResult and x y s t) ∧
    (∃ t, exec (.op8XY3 x y) s = .next t ∧ LogicResult xor x y s t)

/-- R198: add with carry; VF ends as the carry, also when X = 15. -/
def Obligations.AddWithCarry : Prop :=
  ∀ (x y : Reg) (s : State),
    (encode (.op8XY4 x y)).toNat = 0x8004 + x.val * 256 + y.val * 16 ∧
    ∃ t, exec (.op8XY4 x y) s = .next t ∧ t.pc = s.pc + 2 ∧
      (x ≠ flagReg → (t.readV x).toNat = ((s.readV x).toNat + (s.readV y).toNat) % 256) ∧
      (t.readV flagReg).toNat = ((s.readV x).toNat + (s.readV y).toNat) / 256 ∧
      OnlyWrites (fun p => p = .reg x ∨ p = .reg flagReg) s t

/-- R199, R201: the two subtractions; VF ends as no borrow, also when X = 15. -/
def Obligations.SubtractWithNoBorrow : Prop :=
  ∀ (x y : Reg) (s : State),
    (encode (.op8XY5 x y)).toNat = 0x8005 + x.val * 256 + y.val * 16 ∧
    (encode (.op8XY7 x y)).toNat = 0x8007 + x.val * 256 + y.val * 16 ∧
    (∃ t, exec (.op8XY5 x y) s = .next t ∧ t.pc = s.pc + 2 ∧
      (x ≠ flagReg → t.readV x = s.readV x - s.readV y) ∧
      t.readV flagReg = (if (s.readV x).toNat < (s.readV y).toNat then 0 else 1) ∧
      OnlyWrites (fun p => p = .reg x ∨ p = .reg flagReg) s t) ∧
    (∃ t, exec (.op8XY7 x y) s = .next t ∧ t.pc = s.pc + 2 ∧
      (x ≠ flagReg → t.readV x = s.readV y - s.readV x) ∧
      t.readV flagReg = (if (s.readV y).toNat < (s.readV x).toNat then 0 else 1) ∧
      OnlyWrites (fun p => p = .reg x ∨ p = .reg flagReg) s t)

/-- R200, R202: the shifts by one of VY (legacy) or VX (modern); VF ends as the bit shifted out. -/
def Obligations.ShiftsByOne : Prop :=
  ∀ (x y : Reg) (s : State),
    (encode (.op8XY6 x y)).toNat = 0x8006 + x.val * 256 + y.val * 16 ∧
    (encode (.op8XYE x y)).toNat = 0x800E + x.val * 256 + y.val * 16 ∧
    ∀ src : Byte, (s.cfg.qShiftVy = true → src = s.readV y) → (s.cfg.qShiftVy = false → src = s.readV x) →
      (∃ t, exec (.op8XY6 x y) s = .next t ∧ t.pc = s.pc + 2 ∧
        (x ≠ flagReg → (t.readV x).toNat = src.toNat / 2) ∧ (t.readV flagReg).toNat = src.toNat % 2 ∧
        OnlyWrites (fun p => p = .reg x ∨ p = .reg flagReg) s t) ∧
      (∃ t, exec (.op8XYE x y) s = .next t ∧ t.pc = s.pc + 2 ∧
        (x ≠ flagReg → (t.readV x).toNat = src.toNat * 2 % 256) ∧ (t.readV flagReg).toNat = src.toNat / 128 ∧
        OnlyWrites (fun p => p = .reg x ∨ p = .reg flagReg) s t)

/-- VX ← r AND NN for the free byte r of this draw (R203); the draw counter, which makes the next draw another, is the
model's choice (log 4). -/
def Obligations.RandomByteIsMasked : Prop :=
  ∀ (x : Reg) (nn : Byte) (s : State),
    (encode (.opCXNN x nn)).toNat = 0xC000 + x.val * 256 + nn.toNat ∧
    ∃ t, exec (.opCXNN x nn) s = .next t ∧ t.readV x = Config.randomByte s.draws &&& nn ∧ t.readV x &&& ~~~nn = 0 ∧
      t.draws = s.draws + 1 ∧ t.pc = s.pc + 2 ∧ OnlyWrites (fun p => p = .reg x ∨ p = .drawCounter) s t

/-- R204, first law: 6XNN then 7XNN is one 6XNN of the wrapped sum, but for PC. -/
def Obligations.LoadThenAddIsOneLoad : Prop :=
  ∀ (x : Reg) (a b : Byte) (s t u v : State), exec (.op6XNN x a) s = .next t → exec (.op7XNN x b) t = .next u →
    exec (.op6XNN x (BitVec.ofNat 8 (a.toNat + b.toNat))) s = .next v → u = { v with pc := v.pc + 2 }

/-- R204, last law: 8XY4 then 8XY5 restores VX when X ≠ Y and neither is 15. -/
def Obligations.AddThenSubtractRestores : Prop :=
  ∀ (x y : Reg) (s t u : State), x ≠ y → x ≠ flagReg → y ≠ flagReg → exec (.op8XY4 x y) s = .next t →
    exec (.op8XY5 x y) t = .next u → ∀ r, r ≠ flagReg → u.readV r = s.readV r

/-! ### index and memory -/

/-- R230, R231, R232: the instructions that compute I, none of them with a flag. -/
def Obligations.IndexInstructions : Prop :=
  ∀ (nnn : BitVec 12) (x : Reg) (s : State),
    (encode (.opANNN nnn)).toNat = 0xA000 + nnn.toNat ∧
    (encode (.opFX1E x)).toNat = 0xF01E + x.val * 256 ∧ (encode (.opFX29 x)).toNat = 0xF029 + x.val * 256 ∧
    (∃ t, exec (.opANNN nnn) s = .next t ∧ t.i.toNat = nnn.toNat ∧ t.pc = s.pc + 2 ∧
      OnlyWrites (fun p => p = .index) s t) ∧
    (∃ t, exec (.opFX1E x) s = .next t ∧ t.i.toNat = (s.i.toNat + (s.readV x).toNat) % 65536 ∧ t.pc = s.pc + 2 ∧
      OnlyWrites (fun p => p = .index) s t) ∧
    (∃ t, exec (.opFX29 x) s = .next t ∧ t.i.toNat = (s.readV x).toNat * 5 ∧ t.pc = s.pc + 2 ∧
      OnlyWrites (fun p => p = .index) s t)

/-- R233: the three decimal digits of VX at I, I + 1, I + 2; the faults when an address is not a writable cell. -/
def Obligations.BcdStoresThreeDigits : Prop :=
  ∀ (x : Reg) (s : State),
    (encode (.opFX33 x)).toNat = 0xF033 + x.val * 256 ∧
    (80 ≤ s.i.toNat → s.i.toNat + 2 ≤ 4095 → ∃ t, exec (.opFX33 x) s = .next t ∧ t.pc = s.pc + 2 ∧
      (t.readMem s.i.toNat).toNat * 100 + (t.readMem (s.i.toNat + 1)).toNat * 10 +
        (t.readMem (s.i.toNat + 2)).toNat = (s.readV x).toNat ∧
      (t.readMem s.i.toNat).toNat ≤ 2 ∧ (t.readMem (s.i.toNat + 1)).toNat ≤ 9 ∧
      (t.readMem (s.i.toNat + 2)).toNat ≤ 9 ∧
      OnlyWrites (fun p => ∃ a, s.i.toNat ≤ a ∧ a ≤ s.i.toNat + 2 ∧ p = .cell a) s t) ∧
    (4095 < s.i.toNat + 2 → ∃ t, exec (.opFX33 x) s = .next t ∧
      HaltsWith s t 6 (encode (.opFX33 x)) (max s.i.toNat 4096)) ∧
    (s.i.toNat < 80 → ∃ t, exec (.opFX33 x) s = .next t ∧ HaltsWith s t 7 (encode (.opFX33 x)) s.i.toNat)

/-- R234: V0 to VX to the cells from I upward, and what I holds after; the faults when an address is not a writable cell. -/
def Obligations.StoreRegistersToMemory : Prop :=
  ∀ (x : Reg) (s : State),
    (encode (.opFX55 x)).toNat = 0xF055 + x.val * 256 ∧
    (80 ≤ s.i.toNat → s.i.toNat + x.val ≤ 4095 → ∃ t, exec (.opFX55 x) s = .next t ∧ t.pc = s.pc + 2 ∧
      (∀ q : Reg, q ≤ x → t.readMem (s.i.toNat + q.val) = s.readV q) ∧
      (s.cfg.qMemIncI = true → t.i.toNat = s.i.toNat + x.val + 1) ∧
      OnlyWrites (fun p => (∃ a, s.i.toNat ≤ a ∧ a ≤ s.i.toNat + x.val ∧ p = .cell a) ∨
        (s.cfg.qMemIncI = true ∧ p = .index)) s t) ∧
    (4095 < s.i.toNat + x.val → ∃ t, exec (.opFX55 x) s = .next t ∧
      HaltsWith s t 6 (encode (.opFX55 x)) (max s.i.toNat 4096)) ∧
    (s.i.toNat < 80 → ∃ t, exec (.opFX55 x) s = .next t ∧ HaltsWith s t 7 (encode (.opFX55 x)) s.i.toNat)

/-- R235: the cells from I upward to V0 to VX, and what I holds after; the fault above 4095. The font may be read. -/
def Obligations.LoadRegistersFromMemory : Prop :=
  ∀ (x : Reg) (s : State),
    (encode (.opFX65 x)).toNat = 0xF065 + x.val * 256 ∧
    (s.i.toNat + x.val ≤ 4095 → ∃ t, exec (.opFX65 x) s = .next t ∧ t.pc = s.pc + 2 ∧
      (∀ q : Reg, q ≤ x → t.readV q = s.readMem (s.i.toNat + q.val)) ∧
      (s.cfg.qMemIncI = true → t.i.toNat = s.i.toNat + x.val + 1) ∧
      OnlyWrites (fun p => (∃ q, q ≤ x ∧ p = .reg q) ∨ (s.cfg.qMemIncI = true ∧ p = .index)) s t) ∧
    (4095 < s.i.toNat + x.val → ∃ t, exec (.opFX65 x) s = .next t ∧
      HaltsWith s t 6 (encode (.opFX65 x)) (max s.i.toNat 4096))

/-- R236: an FX65 from any state whose I and memory are those an FX55 stored with and left restores V0 to VX, in both
modes. -/
def Obligations.DumpThenLoadRestoresRegisters : Prop :=
  ∀ (x : Reg) (s t u v : State), s.run = .running → exec (.opFX55 x) s = .next t → t.run = .running →
    (∀ a, u.readMem a = t.readMem a) → u.i = s.i → exec (.opFX65 x) u = .next v → ∀ q, q ≤ x → v.readV q = s.readV q

/-- R88, R372: a byte FX55 stores is what a later fetch reads; the high byte of the word is the one at the even address. -/
def Obligations.StoredBytesAreFetched : Prop :=
  ∀ (x q r : Reg) (s t u : State), s.run = .running → exec (.opFX55 x) s = .next t → t.run = .running → q ≤ x →
    r ≤ x → r.val = q.val + 1 → (∀ a, u.readMem a = t.readMem a) → u.pc.toNat = s.i.toNat + q.val →
    512 ≤ u.pc.toNat → u.pc.toNat % 2 = 0 → ∃ w, u.fetch = .ok w ∧
      w.toNat = (s.readV q).toNat * 256 + (s.readV r).toNat

/-! ### display -/

/-- R260: 00E0 clears every pixel and sets REDRAW. -/
def Obligations.ClearDisplayClearsEveryPixel : Prop :=
  (encode .op00E0).toNat = 0x00E0 ∧
  ∀ s : State, ∃ t, exec .op00E0 s = .next t ∧ (∀ x y, t.pixel x y = false) ∧ t.redraw = true ∧ t.pc = s.pc + 2 ∧
    OnlyWrites (fun p => (∃ x y, p = .pixel x y) ∨ p = .redraw) s t

/-- R261, R262: DXYN XORs the unclipped part of the sprite into the display; VF is the collision, REDRAW is set when a
pixel changes; a row address above 4095 faults before anything is written, and a clipped row cannot fault. -/
def Obligations.DrawXorsTheClippedSprite : Prop :=
  ∀ (x y : Reg) (n : Nat) (s : State), n < 16 → s.StoresOk →
    (encode (.opDXYN x y n)).toNat = 0xD000 + x.val * 256 + y.val * 16 + n ∧
    ∀ x0 y0 rows : Nat, x0 = (s.readV x).toNat % s.cfg.width → y0 = (s.readV y).toNat % s.cfg.height →
      rows = min n (s.cfg.height - y0) →
      (rows = 0 ∨ s.i.toNat + rows ≤ 4096 → ∃ t, exec (.opDXYN x y n) s = .next t ∧ t.pc = s.pc + 2 ∧
        (∀ px py, (t.pixel px py ≠ s.pixel px py ↔ UnderSpriteBit s s.i.toNat x0 y0 n px py)) ∧
        (t.readV flagReg = 1 ∨ t.readV flagReg = 0) ∧
        (t.readV flagReg = 1 ↔ ∃ px py, UnderSpriteBit s s.i.toNat x0 y0 n px py ∧ s.pixel px py = true) ∧
        (t.redraw = true ↔ s.redraw = true ∨ ∃ px py, UnderSpriteBit s s.i.toNat x0 y0 n px py) ∧
        OnlyWrites (fun p => p = .reg flagReg ∨ p = .redraw ∨
          ∃ px py, UnderSpriteBit s s.i.toNat x0 y0 n px py ∧ p = .pixel px py) s t) ∧
      (rows ≠ 0 → 4096 < s.i.toNat + rows → ∃ t, exec (.opDXYN x y n) s = .next t ∧
        HaltsWith s t 6 (encode (.opDXYN x y n)) (max s.i.toNat 4096))

/-- R263: drawing the same sprite again, with no change of registers, memory or display between, restores the display. VF
then tells whether the first draw set a pixel, that is whether a set sprite bit fell on a clear one: R261 gives this, and so
does the source's own property, "wherever any bit had been set by the first". R263's "exactly when some sprite bit in the
unclipped area is set" is the last clause, for a display clear under the sprite (log 20, DEDUCED). -/
def Obligations.DrawingTwiceRestoresTheDisplay : Prop :=
  ∀ (x y : Reg) (n : Nat) (s t t' u : State), x ≠ flagReg → y ≠ flagReg → s.StoresOk → s.run = .running →
    exec (.opDXYN x y n) s = .next t → t.run = .running →
    t'.run = .running → t'.cfg = s.cfg → t'.disp = t.disp → t'.readV x = t.readV x → t'.readV y = t.readV y →
    t'.i = s.i → (∀ a, t'.readMem a = s.readMem a) → exec (.opDXYN x y n) t' = .next u →
    (∀ px py, u.pixel px py = s.pixel px py) ∧
    (u.readV flagReg = 1 ↔ ∃ px py, UnderSpriteBit s s.i.toNat ((s.readV x).toNat % s.cfg.width)
      ((s.readV y).toNat % s.cfg.height) n px py ∧ s.pixel px py = false) ∧
    ((∀ px py, UnderSpriteBit s s.i.toNat ((s.readV x).toNat % s.cfg.width) ((s.readV y).toNat % s.cfg.height) n px py →
        s.pixel px py = false) →
      (u.readV flagReg = 1 ↔ ∃ px py, UnderSpriteBit s s.i.toNat ((s.readV x).toNat % s.cfg.width)
        ((s.readV y).toNat % s.cfg.height) n px py))

/-! ### keypad and timers -/

/-- R280, R281: skip on the level of key VX; above 15 there is no key and the instruction faults. -/
def Obligations.KeySkips : Prop :=
  ∀ (x : Reg) (s : State),
    (encode (.opEX9E x)).toNat = 0xE09E + x.val * 256 ∧ (encode (.opEXA1 x)).toNat = 0xE0A1 + x.val * 256 ∧
    (∀ k : Key, (s.readV x).toNat = k.val →
      (∃ t, exec (.opEX9E x) s = .next t ∧ t.pc = (if s.key.get k = true then s.pc + 4 else s.pc + 2) ∧
        OnlyWrites (fun _ => False) s t) ∧
      (∃ t, exec (.opEXA1 x) s = .next t ∧ t.pc = (if s.key.get k = true then s.pc + 2 else s.pc + 4) ∧
        OnlyWrites (fun _ => False) s t)) ∧
    (15 < (s.readV x).toNat →
      (∃ t, exec (.opEX9E x) s = .next t ∧ HaltsWith s t 8 (encode (.opEX9E x)) (s.readV x).toNat) ∧
      (∃ t, exec (.opEXA1 x) s = .next t ∧ HaltsWith s t 8 (encode (.opEXA1 x)) (s.readV x).toNat))

/-- R282, R284, R285: moving DT to VX, VX to DT and VX to ST; SOUND_EN follows ST at once. -/
def Obligations.TimerMoves : Prop :=
  ∀ (x : Reg) (s : State),
    (encode (.opFX07 x)).toNat = 0xF007 + x.val * 256 ∧ (encode (.opFX15 x)).toNat = 0xF015 + x.val * 256 ∧
    (encode (.opFX18 x)).toNat = 0xF018 + x.val * 256 ∧
    (∃ t, exec (.opFX07 x) s = .next t ∧ t.readV x = s.dt ∧ t.pc = s.pc + 2 ∧ OnlyWrites (fun p => p = .reg x) s t) ∧
    (∃ t, exec (.opFX15 x) s = .next t ∧ t.dt = s.readV x ∧ t.pc = s.pc + 2 ∧
      OnlyWrites (fun p => p = .delayTimer) s t) ∧
    (∃ t, exec (.opFX18 x) s = .next t ∧ t.st = s.readV x ∧ (t.soundEn = true ↔ s.readV x ≠ 0) ∧ t.pc = s.pc + 2 ∧
      OnlyWrites (fun p => p = .soundTimer) s t)

/-- R283: one poll of the key wait, in its four cases. -/
def Obligations.KeyWaitPoll : Prop :=
  ∀ (x : Reg) (s : State),
    (encode (.opFX0A x)).toNat = 0xF00A + x.val * 256 ∧
    (s.kwState = .idle → (∀ k, s.key.get k = false) → exec (.opFX0A x) s = .next s) ∧
    (∀ k : Key, s.kwState = .idle → s.key.get k = true → (∀ j, j < k → s.key.get j = false) →
      ∃ t, exec (.opFX0A x) s = .next t ∧ t.kwState = .awaitRelease ∧ t.kwKey = k ∧ t.pc = s.pc ∧
        OnlyWrites (fun p => p = .latch) s t) ∧
    (s.kwState = .awaitRelease → s.key.get s.kwKey = true → exec (.opFX0A x) s = .next s) ∧
    (s.kwState = .awaitRelease → s.key.get s.kwKey = false →
      ∃ t, exec (.opFX0A x) s = .next t ∧ (t.readV x).toNat = s.kwKey.val ∧ t.kwState = .idle ∧ t.kwKey = 0 ∧
        t.pc = s.pc + 2 ∧ OnlyWrites (fun p => p = .reg x ∨ p = .latch) s t)

/-- R286: with an FX0A at PC and only key k ever pressed: STEPs without a key change nothing; the STEP after the press
latches; STEPs while it is held change nothing; the STEP after the release loads k and moves on. -/
def Obligations.KeyWaitScenario : Prop :=
  ∀ (x : Reg) (k : Key) (s : State), s.run = .running → s.fetch = .ok (encode (.opFX0A x)) → s.kwState = .idle →
    (∀ j, s.key.get j = false) →
    step s = .next s ∧
    ∃ t u, step (s.setKey k true) = .next t ∧ t.kwState = .awaitRelease ∧ t.kwKey = k ∧ t.pc = s.pc ∧ (∀ r, t.readV r = s.readV r) ∧ step t = .next t ∧
      step (t.setKey k false) = .next u ∧ (u.readV x).toNat = k.val ∧ u.pc = s.pc + 2 ∧ u.kwState = .idle

/-! ### whole-machine rules -/

/-- R30: no instruction changes a part of the state that the table does not list it as a writer of. -/
def Obligations.OnlyListedWritersWriteEachPart : Prop :=
  ∀ (i : Instr) (s t : State), exec i s = .next t → ∀ p, ¬ mayWrite s i p → Part.same s t p

/-- R43, R41: no instruction reads ST or REDRAW: what they hold changes nothing but themselves. -/
def Obligations.NoInstructionReadsStOrRedraw : Prop :=
  ∀ (i : Instr) (s : State) (b : Byte) (r : Bool), ∃ t t', exec i s = .next t ∧
    exec i { s with st := b, redraw := r } = .next t' ∧ t' = { t with st := t'.st, redraw := t'.redraw }

/-- R287: KEY is read by EX9E, EXA1 and FX0A and by nothing else: what it holds changes nothing in any other
instruction. No instruction writes it. -/
def Obligations.OnlyKeyInstructionsReadKeys : Prop :=
  (∀ (i : Instr) (s : State) (keys : Vector Bool 16), readsKeys i = false → ∃ t, exec i s = .next t ∧
    exec i { s with key := keys } = .next { t with key := keys }) ∧
  (∀ (i : Instr) (s t : State), exec i s = .next t → t.key = s.key)

/-- R73, R79: no STEP changes a cell of the font. -/
def Obligations.FontIsNeverMutated : Prop :=
  ∀ (s t : State), step s = .next t → ∀ a, a < 80 → t.readMem a = s.readMem a

/-- Every STEP keeps the machine's stores well formed: memory canonical and within the writable cells, the display a W × H
grid. -/
def Obligations.StepKeepsStoresOk : Prop :=
  ∀ (s t : State), s.StoresOk → step s = .next t → t.StoresOk

/-- R35: every STEP keeps PC at most 0x10FE and the stack entries at most 4096, so that PC never wraps. -/
def Obligations.StepKeepsAddressesOk : Prop :=
  ∀ (s t : State), s.AddressesOk → step s = .next t → t.AddressesOk

/-- R147: every STEP keeps the latch's rule: while it waits for a release the word at PC is an FX0A. -/
def Obligations.StepKeepsLatchOk : Prop :=
  ∀ (s t : State), s.LatchOk → step s = .next t → t.LatchOk

/-- R49: every STEP keeps the halt record cleared while the machine runs and filled when it is halted. -/
def Obligations.StepKeepsHaltRecordOk : Prop :=
  ∀ (s t : State), s.HaltRecordOk → step s = .next t → t.HaltRecordOk

/-- The invariants hold after every LOAD that succeeds under a legal configuration, and at State.reset, whose display size
is the model's choice (log 2). -/
def Obligations.LoadEstablishesTheInvariants : Prop :=
  (∀ (c : Config) (rom : List Byte) (k : Nat) (s : State), c.wf → load c rom k = .ok s → s.AllOk) ∧ State.reset.AllOk

/-- R342: no operation of the host, in any order, breaks the invariants. -/
def Obligations.EveryScheduleKeepsTheInvariants : Prop :=
  ∀ (ops : List HostOp) (s t : State), (∀ op ∈ ops, ∀ c rom k, op = .load c rom k → c.wf) → s.AllOk →
    runOps ops (some s) = .next (some t) → t.AllOk

/-- R360, R362, R363: from every state, every operation of the host but LOAD keeps the configuration and ROM_IMG, so that a
RESET after it gives what a RESET before it would have given (all but the model's own draw counter, log 4). -/
def Obligations.EveryOperationButLoadKeepsTheResetState : Prop :=
  ∀ (op : HostOp) (s t : State), isLoad op = false → applyToMachine op s = .next (some t) →
    t.cfg = s.cfg ∧ t.romImg = s.romImg ∧ ∀ k : Nat, { t.resetOp with draws := k } = { s.resetOp with draws := k }
end

