-- ==== Sys2Proof/Laws/Checks.lean ====
section
/-! SUPPORT. What the address checks, the fetch, the key check and the frame of a step can answer, said once. -/

namespace Sys2Proof.Machine

/-- R78, R80: the reads of `n` cells from `a` pass exactly when none lies above 4095; else the first that does is named. -/
theorem checkEach_checkRead (a n : Nat) :
    checkEach checkRead a n =
      if n = 0 ∨ a + n ≤ 4096 then .ok () else .error ⟨.memOutOfRange, max a 4096⟩ := by
  induction n generalizing a with
  | zero => rfl
  | succ n ih =>
    by_cases h : a > 4095
    · have : ¬ (n + 1 = 0 ∨ a + (n + 1) ≤ 4096) := by omega
      simp only [checkEach, checkRead, if_pos h, if_neg this, Except.error.injEq, Raise.mk.injEq, true_and]
      omega
    · simp only [checkEach, checkRead, if_neg h, ih]
      by_cases h2 : n = 0 ∨ a + 1 + n ≤ 4096
      · rw [if_pos h2, if_pos (by omega)]
      · rw [if_neg h2, if_neg (by omega)]
        simp only [Except.error.injEq, Raise.mk.injEq, true_and]
        omega

/-- R79, R80: the writes of `n + 1` cells from `a` pass exactly when none lies above 4095 or below 80; else the first that
fails is named. -/
theorem checkEach_checkWrite (a n : Nat) :
    checkEach checkWrite a (n + 1) =
      if a < 80 then .error ⟨.fontWrite, a⟩
      else if a + n ≤ 4095 then .ok () else .error ⟨.memOutOfRange, max a 4096⟩ := by
  by_cases h80 : a < 80
  · have : ¬ a > 4095 := by omega
    simp [checkEach, checkWrite, h80, this]
  · rw [if_neg h80]
    induction n generalizing a with
    | zero =>
      by_cases h : a > 4095
      · simp only [checkEach, checkWrite, if_pos h]
        rw [if_neg (by omega)]
        simp only [Except.error.injEq, Raise.mk.injEq, true_and]
        omega
      · simp [checkEach, checkWrite, h, h80]
    | succ n ih =>
      by_cases h : a > 4095
      · rw [checkEach]
        simp only [checkWrite, if_pos h]
        rw [if_neg (by omega)]
        simp only [Except.error.injEq, Raise.mk.injEq, true_and]
        omega
      · have := ih (a + 1) (by omega)
        rw [checkEach]
        simp only [checkWrite, if_neg h, if_neg h80, this]
        by_cases h2 : a + 1 + n ≤ 4095
        · rw [if_pos h2, if_pos (by omega)]
        · rw [if_neg h2, if_neg (by omega)]
          simp only [Except.error.injEq, Raise.mk.injEq, true_and]
          omega

/-- R280, R281: the key check passes exactly up to 15. -/
theorem keyOf_ok {vx : Byte} (h : vx.toNat ≤ 15) : keyOf vx = .ok ⟨vx.toNat, by omega⟩ := by
  unfold keyOf; rw [dif_pos (by omega)]

theorem keyOf_error {vx : Byte} (h : 15 < vx.toNat) : keyOf vx = .error ⟨.keyIndexOutOfRange, vx.toNat⟩ := by
  unfold keyOf; rw [dif_neg (by omega)]

/-- R141: a fetch passes exactly at an even PC in 512..4094. -/
theorem State.fetch_ok {s : State} {w : Word} (h : s.fetch = .ok w) :
    512 ≤ s.pc.toNat ∧ s.pc.toNat ≤ 4094 ∧ s.pc.toNat % 2 = 0 ∧
      w = wordOfBytes (s.readMem s.pc.toNat) (s.readMem (s.pc.toNat + 1)) := by
  unfold State.fetch at h
  dsimp only at h
  split at h
  · cases h
  · split at h
    · cases h
    · split at h
      · cases h
      · next h1 h2 h3 => exact ⟨by omega, by omega, by omega, by cases h; rfl⟩

theorem State.fetch_of_range {s : State} (h1 : 512 ≤ s.pc.toNat) (h2 : s.pc.toNat ≤ 4094) (h3 : s.pc.toNat % 2 = 0) :
    s.fetch = .ok (wordOfBytes (s.readMem s.pc.toNat) (s.readMem (s.pc.toNat + 1))) := by
  unfold State.fetch
  dsimp only
  rw [if_neg (by omega), if_neg (by omega), if_neg (by omega)]

/-- R140: a rule that answers a state is committed whole. -/
theorem runRule_ok {w : Word} {rule : State → Except Raise State} {s t : State} (h : rule s.advancePC = .ok t) :
    runRule w rule s = .next t := by
  simp [runRule, State.commit, h]

/-- R312: a rule that raises leaves the state of the step's start with the halt record written. -/
theorem runRule_error {w : Word} {rule : State → Except Raise State} {s : State} {e : Raise}
    (h : rule s.advancePC = .error e) : runRule w rule s = .next (s.takeFault w e) := by
  simp [runRule, State.commit, h]

/-- Everything the frame of a step can answer. -/
theorem runRule_next {w : Word} {rule : State → Except Raise State} {s t : State} (h : runRule w rule s = .next t) :
    rule s.advancePC = .ok t ∨ ∃ e, rule s.advancePC = .error e ∧ t = s.takeFault w e := by
  unfold runRule State.commit at h
  split at h
  · next u hu => cases h; exact .inl hu
  · next e he => cases h; exact .inr ⟨e, he, rfl⟩

/-- A step always answers a next state when its instruction does. -/
theorem runRule_total (w : Word) (rule : State → Except Raise State) (s : State) : ∃ t, runRule w rule s = .next t := by
  unfold runRule State.commit
  split
  · exact ⟨_, rfl⟩
  · exact ⟨_, rfl⟩

/-- Everything STEP can do: nothing in HALTED, a fetch fault, an instruction, a no-op, a disputed word. -/
theorem stepWith_cases (run : Instr → State → Host.Outcome State Fault Refusal) (s : State) :
    (s.run = .halted ∧ stepWith run s = .next s) ∨
    (s.run = .running ∧ ∃ e, s.fetch = .error e ∧ stepWith run s = .next (s.takeFault 0 e)) ∨
    (s.run = .running ∧ ∃ w i, s.fetch = .ok w ∧ classify w = .instr i ∧ stepWith run s = run i s) ∨
    (s.run = .running ∧ ∃ w, s.fetch = .ok w ∧ classify w = .unrecognized ∧ stepWith run s = .next s.advancePC) ∨
    (s.run = .running ∧ ∃ w, s.fetch = .ok w ∧ classify w = .disputed ∧
      stepWith run s = .next (s.takeFault w ⟨.disputedEncoding, w.toNat⟩)) := by
  unfold stepWith
  cases hr : s.run with
  | halted => exact .inl ⟨rfl, rfl⟩
  | running =>
    cases hf : s.fetch with
    | error e => exact .inr (.inl ⟨rfl, e, rfl, rfl⟩)
    | ok w =>
      cases hc : classify w with
      | instr i => exact .inr (.inr (.inl ⟨rfl, w, i, rfl, hc, by simp [hc]⟩))
      | unrecognized => exact .inr (.inr (.inr (.inl ⟨rfl, w, rfl, hc, by simp [hc]⟩)))
      | disputed => exact .inr (.inr (.inr (.inr ⟨rfl, w, rfl, hc, by simp [hc]⟩)))

end Sys2Proof.Machine
end

