-- ==== Sys2Proof/Laws/Decode.lean ====
section
/-! SUPPORT. The nibbles and fields of the words the encoder makes, and what a word that matches a row is. -/

namespace Sys2Proof

@[simp] theorem regOfNibble_nibbleOfReg (x : Reg) : regOfNibble (nibbleOfReg x) = x := by
  apply Fin.ext
  simp [regOfNibble, nibbleOfReg]

@[simp] theorem nibbleOfReg_regOfNibble (b : BitVec 4) : nibbleOfReg (regOfNibble b) = b := by
  apply BitVec.eq_of_toNat_eq
  simp [regOfNibble, nibbleOfReg]

/-- The bits of four nibbles in a row. -/
theorem getLsbD_cat4 (a b c d : BitVec 4) (i : Nat) :
    (a ++ b ++ c ++ d : BitVec 16).getLsbD i =
      if i < 4 then d.getLsbD i else if i < 8 then c.getLsbD (i - 4)
      else if i < 12 then b.getLsbD (i - 8) else a.getLsbD (i - 12) := by
  have h : (a ++ b ++ c ++ d : BitVec (4 + 4 + 4 + 4)).getLsbD i =
      if i < 4 then d.getLsbD i else if i < 8 then c.getLsbD (i - 4)
      else if i < 12 then b.getLsbD (i - 8) else a.getLsbD (i - 12) := by
    simp only [BitVec.getLsbD_append, Nat.sub_sub]
    by_cases h1 : i < 4
    · simp [h1]
    · by_cases h2 : i < 8
      · have : i - 4 < 4 := by omega
        simp [h1, h2, this]
      · by_cases h3 : i < 12
        · have : ¬ i - 4 < 4 := by omega
          have : i - (4 + 4) < 4 := by omega
          simp [*]
        · have : ¬ i - 4 < 4 := by omega
          have : ¬ i - (4 + 4) < 4 := by omega
          simp [*]
  exact h

/-- The nibbles of four nibbles in a row (R103). -/
theorem nibbleAt_cat4 (a b c d : BitVec 4) :
    nibbleAt (a ++ b ++ c ++ d : BitVec 16) 12 = a ∧ nibbleAt (a ++ b ++ c ++ d : BitVec 16) 8 = b ∧
      nibbleAt (a ++ b ++ c ++ d : BitVec 16) 4 = c ∧ nibbleAt (a ++ b ++ c ++ d : BitVec 16) 0 = d := by
  refine ⟨?_, ?_, ?_, ?_⟩
  all_goals
    apply BitVec.eq_of_getLsbD_eq
    intro i hi
    simp only [nibbleAt, BitVec.getLsbD_extractLsb', getLsbD_cat4, hi, decide_true, Bool.true_and]
  · rw [if_neg (by omega), if_neg (by omega), if_neg (by omega)]; simp
  · rw [if_neg (by omega), if_neg (by omega), if_pos (by omega)]; simp
  · rw [if_neg (by omega), if_pos (by omega)]; simp
  · simp [hi]

/-- A word is its four nibbles in a row (R103). -/
theorem cat4_nibbleAt (w : Word) :
    (nibbleAt w 12 ++ nibbleAt w 8 ++ nibbleAt w 4 ++ nibbleAt w 0 : BitVec 16) = w := by
  apply BitVec.eq_of_getLsbD_eq
  intro i hi
  simp only [getLsbD_cat4, nibbleAt, BitVec.getLsbD_extractLsb']
  by_cases h1 : i < 4
  · simp [h1]
  · by_cases h2 : i < 8
    · have h3 : i - 4 < 4 := by omega
      have h4 : 4 + (i - 4) = i := by omega
      simp [h1, h2, h3, h4]
    · by_cases h3 : i < 12
      · have h4 : i - 8 < 4 := by omega
        have h5 : 8 + (i - 8) = i := by omega
        simp [h1, h2, h3, h4, h5]
      · have h4 : i - 12 < 4 := by omega
        have h5 : 12 + (i - 12) = i := by omega
        simp [h1, h2, h3, h4, h5]

/-! ### the nibbles of each shape's word -/

@[simp] theorem nibbleAt_wordXY_12 (t : BitVec 4) (x y : Reg) (n : BitVec 4) : nibbleAt (wordXY t x y n) 12 = t :=
  (nibbleAt_cat4 _ _ _ _).1

@[simp] theorem nibbleAt_wordXY_8 (t : BitVec 4) (x y : Reg) (n : BitVec 4) :
    nibbleAt (wordXY t x y n) 8 = nibbleOfReg x := (nibbleAt_cat4 _ _ _ _).2.1

@[simp] theorem nibbleAt_wordXY_4 (t : BitVec 4) (x y : Reg) (n : BitVec 4) :
    nibbleAt (wordXY t x y n) 4 = nibbleOfReg y := (nibbleAt_cat4 _ _ _ _).2.2.1

@[simp] theorem nibbleAt_wordXY_0 (t : BitVec 4) (x y : Reg) (n : BitVec 4) : nibbleAt (wordXY t x y n) 0 = n :=
  (nibbleAt_cat4 _ _ _ _).2.2.2

/-- The bits of a word of shape A. -/
theorem getLsbD_wordA (t : BitVec 4) (nnn : BitVec 12) (i : Nat) :
    (wordA t nnn).getLsbD i = if i < 12 then nnn.getLsbD i else t.getLsbD (i - 12) := by
  have h : (t ++ nnn : BitVec (4 + 12)).getLsbD i = if i < 12 then nnn.getLsbD i else t.getLsbD (i - 12) := by
    simp only [BitVec.getLsbD_append]
  exact h

/-- The bits of a word of shape XK. -/
theorem getLsbD_wordXK (t : BitVec 4) (x : Reg) (nn : Byte) (i : Nat) :
    (wordXK t x nn).getLsbD i =
      if i < 8 then nn.getLsbD i else if i < 12 then (nibbleOfReg x).getLsbD (i - 8) else t.getLsbD (i - 12) := by
  have h : (t ++ nibbleOfReg x ++ nn : BitVec (4 + 4 + 8)).getLsbD i =
      if i < 8 then nn.getLsbD i else if i < 12 then (nibbleOfReg x).getLsbD (i - 8) else t.getLsbD (i - 12) := by
    simp only [BitVec.getLsbD_append, Nat.sub_sub]
    by_cases h1 : i < 8
    · simp [h1]
    · by_cases h2 : i < 12
      · have : i - 8 < 4 := by omega
        simp [*]
      · have : ¬ i - 8 < 4 := by omega
        simp [*]
  exact h

/-- Shape XK as four nibbles. -/
theorem wordXK_eq_cat4 (t : BitVec 4) (x : Reg) (nn : Byte) :
    wordXK t x nn = (t ++ nibbleOfReg x ++ nn.extractLsb' 4 4 ++ nn.extractLsb' 0 4 : BitVec 16) := by
  apply BitVec.eq_of_getLsbD_eq
  intro i hi
  simp only [getLsbD_wordXK, getLsbD_cat4, BitVec.getLsbD_extractLsb']
  by_cases h1 : i < 4
  · have : i < 8 := by omega
    simp [*]
  · by_cases h2 : i < 8
    · have h3 : i - 4 < 4 := by omega
      have h4 : 4 + (i - 4) = i := by omega
      simp [h1, h2, h3, h4]
    · simp [h1, h2]

@[simp] theorem nibbleAt_wordXK_12 (t : BitVec 4) (x : Reg) (nn : Byte) : nibbleAt (wordXK t x nn) 12 = t := by
  rw [wordXK_eq_cat4]; exact (nibbleAt_cat4 _ _ _ _).1

@[simp] theorem nibbleAt_wordXK_8 (t : BitVec 4) (x : Reg) (nn : Byte) :
    nibbleAt (wordXK t x nn) 8 = nibbleOfReg x := by
  rw [wordXK_eq_cat4]; exact (nibbleAt_cat4 _ _ _ _).2.1

@[simp] theorem nibbleAt_wordXK_4 (t : BitVec 4) (x : Reg) (nn : Byte) :
    nibbleAt (wordXK t x nn) 4 = nn.extractLsb' 4 4 := by
  rw [wordXK_eq_cat4]; exact (nibbleAt_cat4 _ _ _ _).2.2.1

@[simp] theorem nibbleAt_wordXK_0 (t : BitVec 4) (x : Reg) (nn : Byte) :
    nibbleAt (wordXK t x nn) 0 = nn.extractLsb' 0 4 := by
  rw [wordXK_eq_cat4]; exact (nibbleAt_cat4 _ _ _ _).2.2.2

@[simp] theorem nn_wordXK (t : BitVec 4) (x : Reg) (nn : Byte) : (wordXK t x nn).extractLsb' 0 8 = nn := by
  apply BitVec.eq_of_getLsbD_eq
  intro i hi
  simp [getLsbD_wordXK, hi]

@[simp] theorem nnn_wordA (t : BitVec 4) (nnn : BitVec 12) : (wordA t nnn).extractLsb' 0 12 = nnn := by
  apply BitVec.eq_of_getLsbD_eq
  intro i hi
  simp [getLsbD_wordA, hi]

@[simp] theorem nibbleAt_wordA_12 (t : BitVec 4) (nnn : BitVec 12) : nibbleAt (wordA t nnn) 12 = t := by
  apply BitVec.eq_of_getLsbD_eq
  intro i hi
  simp [nibbleAt, getLsbD_wordA, hi]

/-! ### the words as numbers (R103) -/

/-- R103: w = T·4096 + NNN. -/
theorem toNat_wordA (t : BitVec 4) (nnn : BitVec 12) : (wordA t nnn).toNat = t.toNat * 4096 + nnn.toNat := by
  have h : (t ++ nnn : BitVec (4 + 12)).toNat = t.toNat * 4096 + nnn.toNat := by
    rw [BitVec.toNat_append, ← Nat.shiftLeft_add_eq_or_of_lt nnn.isLt, Nat.shiftLeft_eq]
  exact h

/-- R103: w = T·4096 + X·256 + NN. -/
theorem toNat_wordXK (t : BitVec 4) (x : Reg) (nn : Byte) :
    (wordXK t x nn).toNat = t.toNat * 4096 + x.val * 256 + nn.toNat := by
  have hx : (nibbleOfReg x).toNat = x.val := by
    simp [nibbleOfReg]
  have h : (t ++ nibbleOfReg x ++ nn : BitVec (4 + 4 + 8)).toNat = t.toNat * 4096 + x.val * 256 + nn.toNat := by
    rw [BitVec.toNat_append, ← Nat.shiftLeft_add_eq_or_of_lt nn.isLt, BitVec.toNat_append,
      ← Nat.shiftLeft_add_eq_or_of_lt (nibbleOfReg x).isLt, Nat.shiftLeft_eq, Nat.shiftLeft_eq, hx]
    omega
  exact h

/-- R103: w = T·4096 + X·256 + Y·16 + N. -/
theorem toNat_wordXY (t : BitVec 4) (x y : Reg) (n : BitVec 4) :
    (wordXY t x y n).toNat = t.toNat * 4096 + x.val * 256 + y.val * 16 + n.toNat := by
  have hx : (nibbleOfReg x).toNat = x.val := by
    simp [nibbleOfReg]
  have hy : (nibbleOfReg y).toNat = y.val := by
    simp [nibbleOfReg]
  have h : (t ++ nibbleOfReg x ++ nibbleOfReg y ++ n : BitVec (4 + 4 + 4 + 4)).toNat =
      t.toNat * 4096 + x.val * 256 + y.val * 16 + n.toNat := by
    rw [BitVec.toNat_append, ← Nat.shiftLeft_add_eq_or_of_lt n.isLt, BitVec.toNat_append,
      ← Nat.shiftLeft_add_eq_or_of_lt (nibbleOfReg y).isLt, BitVec.toNat_append,
      ← Nat.shiftLeft_add_eq_or_of_lt (nibbleOfReg x).isLt, Nat.shiftLeft_eq, Nat.shiftLeft_eq, Nat.shiftLeft_eq, hx, hy]
    omega
  exact h

/-! ### rows -/

/-- R106, R108: matching a row in every literal digit is (w AND mask) = match, digit by digit. -/
theorem digitMatches_iff_mask (d : Option (BitVec 4)) (b : BitVec 4) :
    digitMatches d b = true ↔ b &&& digitMask d = digitMatch d := by
  cases d with
  | none => simp [digitMatches, digitMask, digitMatch]
  | some k =>
    have : b &&& 15#4 = b := by
      have h := BitVec.and_allOnes (x := b)
      exact h
    simp [digitMatches, digitMask, digitMatch, this]

/-- R111: a word that selects a row is of the class of some instruction. -/
theorem classify_of_find {w : Word} {r : OpcodeRow} (h : opcodeRows.find? (rowMatches w) = some r) :
    classify w = .instr (r.build (decode w)) := by
  simp [classify, h]

/-- What a classified instruction is: the instruction of a row its word matches. -/
theorem classify_instr {w : Word} {i : Instr} (h : classify w = .instr i) :
    ∃ r ∈ opcodeRows, rowMatches w r = true ∧ i = r.build (decode w) := by
  unfold classify at h
  split at h
  · next r hr => exact ⟨r, List.mem_of_find?_eq_some hr, List.find?_some hr, by cases h; rfl⟩
  · split at h <;> cases h

end Sys2Proof
end

