-- ==== Sys2Proof/Laws/State.lean ====
section
/-! SUPPORT. One lemma per field per state update, each true by unfolding the update once, and the accessors after an
update, so that no later proof unfolds a record update. -/

namespace Sys2Proof.Machine

variable (s : State)

/-! ### writeV -/

@[simp] theorem State.writeV_mem (r : Reg) (b : Byte) : (s.writeV r b).mem = s.mem := rfl
@[simp] theorem State.writeV_v (r : Reg) (b : Byte) : (s.writeV r b).v = s.v.set r.val b := rfl
@[simp] theorem State.writeV_i (r : Reg) (b : Byte) : (s.writeV r b).i = s.i := rfl
@[simp] theorem State.writeV_pc (r : Reg) (b : Byte) : (s.writeV r b).pc = s.pc := rfl
@[simp] theorem State.writeV_stack (r : Reg) (b : Byte) : (s.writeV r b).stack = s.stack := rfl
@[simp] theorem State.writeV_sp (r : Reg) (b : Byte) : (s.writeV r b).sp = s.sp := rfl
@[simp] theorem State.writeV_disp (r : Reg) (b : Byte) : (s.writeV r b).disp = s.disp := rfl
@[simp] theorem State.writeV_redraw (r : Reg) (b : Byte) : (s.writeV r b).redraw = s.redraw := rfl
@[simp] theorem State.writeV_dt (r : Reg) (b : Byte) : (s.writeV r b).dt = s.dt := rfl
@[simp] theorem State.writeV_st (r : Reg) (b : Byte) : (s.writeV r b).st = s.st := rfl
@[simp] theorem State.writeV_key (r : Reg) (b : Byte) : (s.writeV r b).key = s.key := rfl
@[simp] theorem State.writeV_kwState (r : Reg) (b : Byte) : (s.writeV r b).kwState = s.kwState := rfl
@[simp] theorem State.writeV_kwKey (r : Reg) (b : Byte) : (s.writeV r b).kwKey = s.kwKey := rfl
@[simp] theorem State.writeV_run (r : Reg) (b : Byte) : (s.writeV r b).run = s.run := rfl
@[simp] theorem State.writeV_faultCause (r : Reg) (b : Byte) : (s.writeV r b).faultCause = s.faultCause := rfl
@[simp] theorem State.writeV_faultPc (r : Reg) (b : Byte) : (s.writeV r b).faultPc = s.faultPc := rfl
@[simp] theorem State.writeV_faultWord (r : Reg) (b : Byte) : (s.writeV r b).faultWord = s.faultWord := rfl
@[simp] theorem State.writeV_faultInfo (r : Reg) (b : Byte) : (s.writeV r b).faultInfo = s.faultInfo := rfl
@[simp] theorem State.writeV_romImg (r : Reg) (b : Byte) : (s.writeV r b).romImg = s.romImg := rfl
@[simp] theorem State.writeV_cfg (r : Reg) (b : Byte) : (s.writeV r b).cfg = s.cfg := rfl
@[simp] theorem State.writeV_draws (r : Reg) (b : Byte) : (s.writeV r b).draws = s.draws := rfl

/-! ### writeI -/

@[simp] theorem State.writeI_mem (w : Word) : (s.writeI w).mem = s.mem := rfl
@[simp] theorem State.writeI_v (w : Word) : (s.writeI w).v = s.v := rfl
@[simp] theorem State.writeI_i (w : Word) : (s.writeI w).i = w := rfl
@[simp] theorem State.writeI_pc (w : Word) : (s.writeI w).pc = s.pc := rfl
@[simp] theorem State.writeI_stack (w : Word) : (s.writeI w).stack = s.stack := rfl
@[simp] theorem State.writeI_sp (w : Word) : (s.writeI w).sp = s.sp := rfl
@[simp] theorem State.writeI_disp (w : Word) : (s.writeI w).disp = s.disp := rfl
@[simp] theorem State.writeI_redraw (w : Word) : (s.writeI w).redraw = s.redraw := rfl
@[simp] theorem State.writeI_dt (w : Word) : (s.writeI w).dt = s.dt := rfl
@[simp] theorem State.writeI_st (w : Word) : (s.writeI w).st = s.st := rfl
@[simp] theorem State.writeI_key (w : Word) : (s.writeI w).key = s.key := rfl
@[simp] theorem State.writeI_kwState (w : Word) : (s.writeI w).kwState = s.kwState := rfl
@[simp] theorem State.writeI_kwKey (w : Word) : (s.writeI w).kwKey = s.kwKey := rfl
@[simp] theorem State.writeI_run (w : Word) : (s.writeI w).run = s.run := rfl
@[simp] theorem State.writeI_faultCause (w : Word) : (s.writeI w).faultCause = s.faultCause := rfl
@[simp] theorem State.writeI_faultPc (w : Word) : (s.writeI w).faultPc = s.faultPc := rfl
@[simp] theorem State.writeI_faultWord (w : Word) : (s.writeI w).faultWord = s.faultWord := rfl
@[simp] theorem State.writeI_faultInfo (w : Word) : (s.writeI w).faultInfo = s.faultInfo := rfl
@[simp] theorem State.writeI_romImg (w : Word) : (s.writeI w).romImg = s.romImg := rfl
@[simp] theorem State.writeI_cfg (w : Word) : (s.writeI w).cfg = s.cfg := rfl
@[simp] theorem State.writeI_draws (w : Word) : (s.writeI w).draws = s.draws := rfl

/-! ### writePC -/

@[simp] theorem State.writePC_mem (w : Word) : (s.writePC w).mem = s.mem := rfl
@[simp] theorem State.writePC_v (w : Word) : (s.writePC w).v = s.v := rfl
@[simp] theorem State.writePC_i (w : Word) : (s.writePC w).i = s.i := rfl
@[simp] theorem State.writePC_pc (w : Word) : (s.writePC w).pc = w := rfl
@[simp] theorem State.writePC_stack (w : Word) : (s.writePC w).stack = s.stack := rfl
@[simp] theorem State.writePC_sp (w : Word) : (s.writePC w).sp = s.sp := rfl
@[simp] theorem State.writePC_disp (w : Word) : (s.writePC w).disp = s.disp := rfl
@[simp] theorem State.writePC_redraw (w : Word) : (s.writePC w).redraw = s.redraw := rfl
@[simp] theorem State.writePC_dt (w : Word) : (s.writePC w).dt = s.dt := rfl
@[simp] theorem State.writePC_st (w : Word) : (s.writePC w).st = s.st := rfl
@[simp] theorem State.writePC_key (w : Word) : (s.writePC w).key = s.key := rfl
@[simp] theorem State.writePC_kwState (w : Word) : (s.writePC w).kwState = s.kwState := rfl
@[simp] theorem State.writePC_kwKey (w : Word) : (s.writePC w).kwKey = s.kwKey := rfl
@[simp] theorem State.writePC_run (w : Word) : (s.writePC w).run = s.run := rfl
@[simp] theorem State.writePC_faultCause (w : Word) : (s.writePC w).faultCause = s.faultCause := rfl
@[simp] theorem State.writePC_faultPc (w : Word) : (s.writePC w).faultPc = s.faultPc := rfl
@[simp] theorem State.writePC_faultWord (w : Word) : (s.writePC w).faultWord = s.faultWord := rfl
@[simp] theorem State.writePC_faultInfo (w : Word) : (s.writePC w).faultInfo = s.faultInfo := rfl
@[simp] theorem State.writePC_romImg (w : Word) : (s.writePC w).romImg = s.romImg := rfl
@[simp] theorem State.writePC_cfg (w : Word) : (s.writePC w).cfg = s.cfg := rfl
@[simp] theorem State.writePC_draws (w : Word) : (s.writePC w).draws = s.draws := rfl

/-! ### advancePC -/

@[simp] theorem State.advancePC_mem : (s.advancePC).mem = s.mem := rfl
@[simp] theorem State.advancePC_v : (s.advancePC).v = s.v := rfl
@[simp] theorem State.advancePC_i : (s.advancePC).i = s.i := rfl
@[simp] theorem State.advancePC_pc : (s.advancePC).pc = s.pc + 2 := rfl
@[simp] theorem State.advancePC_stack : (s.advancePC).stack = s.stack := rfl
@[simp] theorem State.advancePC_sp : (s.advancePC).sp = s.sp := rfl
@[simp] theorem State.advancePC_disp : (s.advancePC).disp = s.disp := rfl
@[simp] theorem State.advancePC_redraw : (s.advancePC).redraw = s.redraw := rfl
@[simp] theorem State.advancePC_dt : (s.advancePC).dt = s.dt := rfl
@[simp] theorem State.advancePC_st : (s.advancePC).st = s.st := rfl
@[simp] theorem State.advancePC_key : (s.advancePC).key = s.key := rfl
@[simp] theorem State.advancePC_kwState : (s.advancePC).kwState = s.kwState := rfl
@[simp] theorem State.advancePC_kwKey : (s.advancePC).kwKey = s.kwKey := rfl
@[simp] theorem State.advancePC_run : (s.advancePC).run = s.run := rfl
@[simp] theorem State.advancePC_faultCause : (s.advancePC).faultCause = s.faultCause := rfl
@[simp] theorem State.advancePC_faultPc : (s.advancePC).faultPc = s.faultPc := rfl
@[simp] theorem State.advancePC_faultWord : (s.advancePC).faultWord = s.faultWord := rfl
@[simp] theorem State.advancePC_faultInfo : (s.advancePC).faultInfo = s.faultInfo := rfl
@[simp] theorem State.advancePC_romImg : (s.advancePC).romImg = s.romImg := rfl
@[simp] theorem State.advancePC_cfg : (s.advancePC).cfg = s.cfg := rfl
@[simp] theorem State.advancePC_draws : (s.advancePC).draws = s.draws := rfl

/-! ### rewindPC -/

@[simp] theorem State.rewindPC_mem : (s.rewindPC).mem = s.mem := rfl
@[simp] theorem State.rewindPC_v : (s.rewindPC).v = s.v := rfl
@[simp] theorem State.rewindPC_i : (s.rewindPC).i = s.i := rfl
@[simp] theorem State.rewindPC_pc : (s.rewindPC).pc = s.pc - 2 := rfl
@[simp] theorem State.rewindPC_stack : (s.rewindPC).stack = s.stack := rfl
@[simp] theorem State.rewindPC_sp : (s.rewindPC).sp = s.sp := rfl
@[simp] theorem State.rewindPC_disp : (s.rewindPC).disp = s.disp := rfl
@[simp] theorem State.rewindPC_redraw : (s.rewindPC).redraw = s.redraw := rfl
@[simp] theorem State.rewindPC_dt : (s.rewindPC).dt = s.dt := rfl
@[simp] theorem State.rewindPC_st : (s.rewindPC).st = s.st := rfl
@[simp] theorem State.rewindPC_key : (s.rewindPC).key = s.key := rfl
@[simp] theorem State.rewindPC_kwState : (s.rewindPC).kwState = s.kwState := rfl
@[simp] theorem State.rewindPC_kwKey : (s.rewindPC).kwKey = s.kwKey := rfl
@[simp] theorem State.rewindPC_run : (s.rewindPC).run = s.run := rfl
@[simp] theorem State.rewindPC_faultCause : (s.rewindPC).faultCause = s.faultCause := rfl
@[simp] theorem State.rewindPC_faultPc : (s.rewindPC).faultPc = s.faultPc := rfl
@[simp] theorem State.rewindPC_faultWord : (s.rewindPC).faultWord = s.faultWord := rfl
@[simp] theorem State.rewindPC_faultInfo : (s.rewindPC).faultInfo = s.faultInfo := rfl
@[simp] theorem State.rewindPC_romImg : (s.rewindPC).romImg = s.romImg := rfl
@[simp] theorem State.rewindPC_cfg : (s.rewindPC).cfg = s.cfg := rfl
@[simp] theorem State.rewindPC_draws : (s.rewindPC).draws = s.draws := rfl

/-! ### writeMem -/

@[simp] theorem State.writeMem_mem (a : Nat) (b : Byte) : (s.writeMem a b).mem = s.mem.write s.cfg.font a b := rfl
@[simp] theorem State.writeMem_v (a : Nat) (b : Byte) : (s.writeMem a b).v = s.v := rfl
@[simp] theorem State.writeMem_i (a : Nat) (b : Byte) : (s.writeMem a b).i = s.i := rfl
@[simp] theorem State.writeMem_pc (a : Nat) (b : Byte) : (s.writeMem a b).pc = s.pc := rfl
@[simp] theorem State.writeMem_stack (a : Nat) (b : Byte) : (s.writeMem a b).stack = s.stack := rfl
@[simp] theorem State.writeMem_sp (a : Nat) (b : Byte) : (s.writeMem a b).sp = s.sp := rfl
@[simp] theorem State.writeMem_disp (a : Nat) (b : Byte) : (s.writeMem a b).disp = s.disp := rfl
@[simp] theorem State.writeMem_redraw (a : Nat) (b : Byte) : (s.writeMem a b).redraw = s.redraw := rfl
@[simp] theorem State.writeMem_dt (a : Nat) (b : Byte) : (s.writeMem a b).dt = s.dt := rfl
@[simp] theorem State.writeMem_st (a : Nat) (b : Byte) : (s.writeMem a b).st = s.st := rfl
@[simp] theorem State.writeMem_key (a : Nat) (b : Byte) : (s.writeMem a b).key = s.key := rfl
@[simp] theorem State.writeMem_kwState (a : Nat) (b : Byte) : (s.writeMem a b).kwState = s.kwState := rfl
@[simp] theorem State.writeMem_kwKey (a : Nat) (b : Byte) : (s.writeMem a b).kwKey = s.kwKey := rfl
@[simp] theorem State.writeMem_run (a : Nat) (b : Byte) : (s.writeMem a b).run = s.run := rfl
@[simp] theorem State.writeMem_faultCause (a : Nat) (b : Byte) : (s.writeMem a b).faultCause = s.faultCause := rfl
@[simp] theorem State.writeMem_faultPc (a : Nat) (b : Byte) : (s.writeMem a b).faultPc = s.faultPc := rfl
@[simp] theorem State.writeMem_faultWord (a : Nat) (b : Byte) : (s.writeMem a b).faultWord = s.faultWord := rfl
@[simp] theorem State.writeMem_faultInfo (a : Nat) (b : Byte) : (s.writeMem a b).faultInfo = s.faultInfo := rfl
@[simp] theorem State.writeMem_romImg (a : Nat) (b : Byte) : (s.writeMem a b).romImg = s.romImg := rfl
@[simp] theorem State.writeMem_cfg (a : Nat) (b : Byte) : (s.writeMem a b).cfg = s.cfg := rfl
@[simp] theorem State.writeMem_draws (a : Nat) (b : Byte) : (s.writeMem a b).draws = s.draws := rfl

/-! ### writeBytes -/

@[simp] theorem State.writeBytes_mem (a : Nat) (bs : List Byte) : (s.writeBytes a bs).mem = s.mem.writeBytes s.cfg.font a bs := rfl
@[simp] theorem State.writeBytes_v (a : Nat) (bs : List Byte) : (s.writeBytes a bs).v = s.v := rfl
@[simp] theorem State.writeBytes_i (a : Nat) (bs : List Byte) : (s.writeBytes a bs).i = s.i := rfl
@[simp] theorem State.writeBytes_pc (a : Nat) (bs : List Byte) : (s.writeBytes a bs).pc = s.pc := rfl
@[simp] theorem State.writeBytes_stack (a : Nat) (bs : List Byte) : (s.writeBytes a bs).stack = s.stack := rfl
@[simp] theorem State.writeBytes_sp (a : Nat) (bs : List Byte) : (s.writeBytes a bs).sp = s.sp := rfl
@[simp] theorem State.writeBytes_disp (a : Nat) (bs : List Byte) : (s.writeBytes a bs).disp = s.disp := rfl
@[simp] theorem State.writeBytes_redraw (a : Nat) (bs : List Byte) : (s.writeBytes a bs).redraw = s.redraw := rfl
@[simp] theorem State.writeBytes_dt (a : Nat) (bs : List Byte) : (s.writeBytes a bs).dt = s.dt := rfl
@[simp] theorem State.writeBytes_st (a : Nat) (bs : List Byte) : (s.writeBytes a bs).st = s.st := rfl
@[simp] theorem State.writeBytes_key (a : Nat) (bs : List Byte) : (s.writeBytes a bs).key = s.key := rfl
@[simp] theorem State.writeBytes_kwState (a : Nat) (bs : List Byte) : (s.writeBytes a bs).kwState = s.kwState := rfl
@[simp] theorem State.writeBytes_kwKey (a : Nat) (bs : List Byte) : (s.writeBytes a bs).kwKey = s.kwKey := rfl
@[simp] theorem State.writeBytes_run (a : Nat) (bs : List Byte) : (s.writeBytes a bs).run = s.run := rfl
@[simp] theorem State.writeBytes_faultCause (a : Nat) (bs : List Byte) : (s.writeBytes a bs).faultCause = s.faultCause := rfl
@[simp] theorem State.writeBytes_faultPc (a : Nat) (bs : List Byte) : (s.writeBytes a bs).faultPc = s.faultPc := rfl
@[simp] theorem State.writeBytes_faultWord (a : Nat) (bs : List Byte) : (s.writeBytes a bs).faultWord = s.faultWord := rfl
@[simp] theorem State.writeBytes_faultInfo (a : Nat) (bs : List Byte) : (s.writeBytes a bs).faultInfo = s.faultInfo := rfl
@[simp] theorem State.writeBytes_romImg (a : Nat) (bs : List Byte) : (s.writeBytes a bs).romImg = s.romImg := rfl
@[simp] theorem State.writeBytes_cfg (a : Nat) (bs : List Byte) : (s.writeBytes a bs).cfg = s.cfg := rfl
@[simp] theorem State.writeBytes_draws (a : Nat) (bs : List Byte) : (s.writeBytes a bs).draws = s.draws := rfl

/-! ### clearDisplay -/

@[simp] theorem State.clearDisplay_mem : (s.clearDisplay).mem = s.mem := rfl
@[simp] theorem State.clearDisplay_v : (s.clearDisplay).v = s.v := rfl
@[simp] theorem State.clearDisplay_i : (s.clearDisplay).i = s.i := rfl
@[simp] theorem State.clearDisplay_pc : (s.clearDisplay).pc = s.pc := rfl
@[simp] theorem State.clearDisplay_stack : (s.clearDisplay).stack = s.stack := rfl
@[simp] theorem State.clearDisplay_sp : (s.clearDisplay).sp = s.sp := rfl
@[simp] theorem State.clearDisplay_disp : (s.clearDisplay).disp = blankBitmap s.cfg.width s.cfg.height := rfl
@[simp] theorem State.clearDisplay_redraw : (s.clearDisplay).redraw = true := rfl
@[simp] theorem State.clearDisplay_dt : (s.clearDisplay).dt = s.dt := rfl
@[simp] theorem State.clearDisplay_st : (s.clearDisplay).st = s.st := rfl
@[simp] theorem State.clearDisplay_key : (s.clearDisplay).key = s.key := rfl
@[simp] theorem State.clearDisplay_kwState : (s.clearDisplay).kwState = s.kwState := rfl
@[simp] theorem State.clearDisplay_kwKey : (s.clearDisplay).kwKey = s.kwKey := rfl
@[simp] theorem State.clearDisplay_run : (s.clearDisplay).run = s.run := rfl
@[simp] theorem State.clearDisplay_faultCause : (s.clearDisplay).faultCause = s.faultCause := rfl
@[simp] theorem State.clearDisplay_faultPc : (s.clearDisplay).faultPc = s.faultPc := rfl
@[simp] theorem State.clearDisplay_faultWord : (s.clearDisplay).faultWord = s.faultWord := rfl
@[simp] theorem State.clearDisplay_faultInfo : (s.clearDisplay).faultInfo = s.faultInfo := rfl
@[simp] theorem State.clearDisplay_romImg : (s.clearDisplay).romImg = s.romImg := rfl
@[simp] theorem State.clearDisplay_cfg : (s.clearDisplay).cfg = s.cfg := rfl
@[simp] theorem State.clearDisplay_draws : (s.clearDisplay).draws = s.draws := rfl

/-! ### writeDT -/

@[simp] theorem State.writeDT_mem (b : Byte) : (s.writeDT b).mem = s.mem := rfl
@[simp] theorem State.writeDT_v (b : Byte) : (s.writeDT b).v = s.v := rfl
@[simp] theorem State.writeDT_i (b : Byte) : (s.writeDT b).i = s.i := rfl
@[simp] theorem State.writeDT_pc (b : Byte) : (s.writeDT b).pc = s.pc := rfl
@[simp] theorem State.writeDT_stack (b : Byte) : (s.writeDT b).stack = s.stack := rfl
@[simp] theorem State.writeDT_sp (b : Byte) : (s.writeDT b).sp = s.sp := rfl
@[simp] theorem State.writeDT_disp (b : Byte) : (s.writeDT b).disp = s.disp := rfl
@[simp] theorem State.writeDT_redraw (b : Byte) : (s.writeDT b).redraw = s.redraw := rfl
@[simp] theorem State.writeDT_dt (b : Byte) : (s.writeDT b).dt = b := rfl
@[simp] theorem State.writeDT_st (b : Byte) : (s.writeDT b).st = s.st := rfl
@[simp] theorem State.writeDT_key (b : Byte) : (s.writeDT b).key = s.key := rfl
@[simp] theorem State.writeDT_kwState (b : Byte) : (s.writeDT b).kwState = s.kwState := rfl
@[simp] theorem State.writeDT_kwKey (b : Byte) : (s.writeDT b).kwKey = s.kwKey := rfl
@[simp] theorem State.writeDT_run (b : Byte) : (s.writeDT b).run = s.run := rfl
@[simp] theorem State.writeDT_faultCause (b : Byte) : (s.writeDT b).faultCause = s.faultCause := rfl
@[simp] theorem State.writeDT_faultPc (b : Byte) : (s.writeDT b).faultPc = s.faultPc := rfl
@[simp] theorem State.writeDT_faultWord (b : Byte) : (s.writeDT b).faultWord = s.faultWord := rfl
@[simp] theorem State.writeDT_faultInfo (b : Byte) : (s.writeDT b).faultInfo = s.faultInfo := rfl
@[simp] theorem State.writeDT_romImg (b : Byte) : (s.writeDT b).romImg = s.romImg := rfl
@[simp] theorem State.writeDT_cfg (b : Byte) : (s.writeDT b).cfg = s.cfg := rfl
@[simp] theorem State.writeDT_draws (b : Byte) : (s.writeDT b).draws = s.draws := rfl

/-! ### writeST -/

@[simp] theorem State.writeST_mem (b : Byte) : (s.writeST b).mem = s.mem := rfl
@[simp] theorem State.writeST_v (b : Byte) : (s.writeST b).v = s.v := rfl
@[simp] theorem State.writeST_i (b : Byte) : (s.writeST b).i = s.i := rfl
@[simp] theorem State.writeST_pc (b : Byte) : (s.writeST b).pc = s.pc := rfl
@[simp] theorem State.writeST_stack (b : Byte) : (s.writeST b).stack = s.stack := rfl
@[simp] theorem State.writeST_sp (b : Byte) : (s.writeST b).sp = s.sp := rfl
@[simp] theorem State.writeST_disp (b : Byte) : (s.writeST b).disp = s.disp := rfl
@[simp] theorem State.writeST_redraw (b : Byte) : (s.writeST b).redraw = s.redraw := rfl
@[simp] theorem State.writeST_dt (b : Byte) : (s.writeST b).dt = s.dt := rfl
@[simp] theorem State.writeST_st (b : Byte) : (s.writeST b).st = b := rfl
@[simp] theorem State.writeST_key (b : Byte) : (s.writeST b).key = s.key := rfl
@[simp] theorem State.writeST_kwState (b : Byte) : (s.writeST b).kwState = s.kwState := rfl
@[simp] theorem State.writeST_kwKey (b : Byte) : (s.writeST b).kwKey = s.kwKey := rfl
@[simp] theorem State.writeST_run (b : Byte) : (s.writeST b).run = s.run := rfl
@[simp] theorem State.writeST_faultCause (b : Byte) : (s.writeST b).faultCause = s.faultCause := rfl
@[simp] theorem State.writeST_faultPc (b : Byte) : (s.writeST b).faultPc = s.faultPc := rfl
@[simp] theorem State.writeST_faultWord (b : Byte) : (s.writeST b).faultWord = s.faultWord := rfl
@[simp] theorem State.writeST_faultInfo (b : Byte) : (s.writeST b).faultInfo = s.faultInfo := rfl
@[simp] theorem State.writeST_romImg (b : Byte) : (s.writeST b).romImg = s.romImg := rfl
@[simp] theorem State.writeST_cfg (b : Byte) : (s.writeST b).cfg = s.cfg := rfl
@[simp] theorem State.writeST_draws (b : Byte) : (s.writeST b).draws = s.draws := rfl

/-! ### setLatch -/

@[simp] theorem State.setLatch_mem (kw : KeyWait) (k : Key) : (s.setLatch kw k).mem = s.mem := rfl
@[simp] theorem State.setLatch_v (kw : KeyWait) (k : Key) : (s.setLatch kw k).v = s.v := rfl
@[simp] theorem State.setLatch_i (kw : KeyWait) (k : Key) : (s.setLatch kw k).i = s.i := rfl
@[simp] theorem State.setLatch_pc (kw : KeyWait) (k : Key) : (s.setLatch kw k).pc = s.pc := rfl
@[simp] theorem State.setLatch_stack (kw : KeyWait) (k : Key) : (s.setLatch kw k).stack = s.stack := rfl
@[simp] theorem State.setLatch_sp (kw : KeyWait) (k : Key) : (s.setLatch kw k).sp = s.sp := rfl
@[simp] theorem State.setLatch_disp (kw : KeyWait) (k : Key) : (s.setLatch kw k).disp = s.disp := rfl
@[simp] theorem State.setLatch_redraw (kw : KeyWait) (k : Key) : (s.setLatch kw k).redraw = s.redraw := rfl
@[simp] theorem State.setLatch_dt (kw : KeyWait) (k : Key) : (s.setLatch kw k).dt = s.dt := rfl
@[simp] theorem State.setLatch_st (kw : KeyWait) (k : Key) : (s.setLatch kw k).st = s.st := rfl
@[simp] theorem State.setLatch_key (kw : KeyWait) (k : Key) : (s.setLatch kw k).key = s.key := rfl
@[simp] theorem State.setLatch_kwState (kw : KeyWait) (k : Key) : (s.setLatch kw k).kwState = kw := rfl
@[simp] theorem State.setLatch_kwKey (kw : KeyWait) (k : Key) : (s.setLatch kw k).kwKey = k := rfl
@[simp] theorem State.setLatch_run (kw : KeyWait) (k : Key) : (s.setLatch kw k).run = s.run := rfl
@[simp] theorem State.setLatch_faultCause (kw : KeyWait) (k : Key) : (s.setLatch kw k).faultCause = s.faultCause := rfl
@[simp] theorem State.setLatch_faultPc (kw : KeyWait) (k : Key) : (s.setLatch kw k).faultPc = s.faultPc := rfl
@[simp] theorem State.setLatch_faultWord (kw : KeyWait) (k : Key) : (s.setLatch kw k).faultWord = s.faultWord := rfl
@[simp] theorem State.setLatch_faultInfo (kw : KeyWait) (k : Key) : (s.setLatch kw k).faultInfo = s.faultInfo := rfl
@[simp] theorem State.setLatch_romImg (kw : KeyWait) (k : Key) : (s.setLatch kw k).romImg = s.romImg := rfl
@[simp] theorem State.setLatch_cfg (kw : KeyWait) (k : Key) : (s.setLatch kw k).cfg = s.cfg := rfl
@[simp] theorem State.setLatch_draws (kw : KeyWait) (k : Key) : (s.setLatch kw k).draws = s.draws := rfl

/-! ### nextDraw -/

@[simp] theorem State.nextDraw_mem : (s.nextDraw).mem = s.mem := rfl
@[simp] theorem State.nextDraw_v : (s.nextDraw).v = s.v := rfl
@[simp] theorem State.nextDraw_i : (s.nextDraw).i = s.i := rfl
@[simp] theorem State.nextDraw_pc : (s.nextDraw).pc = s.pc := rfl
@[simp] theorem State.nextDraw_stack : (s.nextDraw).stack = s.stack := rfl
@[simp] theorem State.nextDraw_sp : (s.nextDraw).sp = s.sp := rfl
@[simp] theorem State.nextDraw_disp : (s.nextDraw).disp = s.disp := rfl
@[simp] theorem State.nextDraw_redraw : (s.nextDraw).redraw = s.redraw := rfl
@[simp] theorem State.nextDraw_dt : (s.nextDraw).dt = s.dt := rfl
@[simp] theorem State.nextDraw_st : (s.nextDraw).st = s.st := rfl
@[simp] theorem State.nextDraw_key : (s.nextDraw).key = s.key := rfl
@[simp] theorem State.nextDraw_kwState : (s.nextDraw).kwState = s.kwState := rfl
@[simp] theorem State.nextDraw_kwKey : (s.nextDraw).kwKey = s.kwKey := rfl
@[simp] theorem State.nextDraw_run : (s.nextDraw).run = s.run := rfl
@[simp] theorem State.nextDraw_faultCause : (s.nextDraw).faultCause = s.faultCause := rfl
@[simp] theorem State.nextDraw_faultPc : (s.nextDraw).faultPc = s.faultPc := rfl
@[simp] theorem State.nextDraw_faultWord : (s.nextDraw).faultWord = s.faultWord := rfl
@[simp] theorem State.nextDraw_faultInfo : (s.nextDraw).faultInfo = s.faultInfo := rfl
@[simp] theorem State.nextDraw_romImg : (s.nextDraw).romImg = s.romImg := rfl
@[simp] theorem State.nextDraw_cfg : (s.nextDraw).cfg = s.cfg := rfl
@[simp] theorem State.nextDraw_draws : (s.nextDraw).draws = s.draws + 1 := rfl

/-! ### takeFault -/

@[simp] theorem State.takeFault_mem (w : Word) (e : Raise) : (s.takeFault w e).mem = s.mem := rfl
@[simp] theorem State.takeFault_v (w : Word) (e : Raise) : (s.takeFault w e).v = s.v := rfl
@[simp] theorem State.takeFault_i (w : Word) (e : Raise) : (s.takeFault w e).i = s.i := rfl
@[simp] theorem State.takeFault_pc (w : Word) (e : Raise) : (s.takeFault w e).pc = s.pc := rfl
@[simp] theorem State.takeFault_stack (w : Word) (e : Raise) : (s.takeFault w e).stack = s.stack := rfl
@[simp] theorem State.takeFault_sp (w : Word) (e : Raise) : (s.takeFault w e).sp = s.sp := rfl
@[simp] theorem State.takeFault_disp (w : Word) (e : Raise) : (s.takeFault w e).disp = s.disp := rfl
@[simp] theorem State.takeFault_redraw (w : Word) (e : Raise) : (s.takeFault w e).redraw = s.redraw := rfl
@[simp] theorem State.takeFault_dt (w : Word) (e : Raise) : (s.takeFault w e).dt = s.dt := rfl
@[simp] theorem State.takeFault_st (w : Word) (e : Raise) : (s.takeFault w e).st = s.st := rfl
@[simp] theorem State.takeFault_key (w : Word) (e : Raise) : (s.takeFault w e).key = s.key := rfl
@[simp] theorem State.takeFault_kwState (w : Word) (e : Raise) : (s.takeFault w e).kwState = s.kwState := rfl
@[simp] theorem State.takeFault_kwKey (w : Word) (e : Raise) : (s.takeFault w e).kwKey = s.kwKey := rfl
@[simp] theorem State.takeFault_run (w : Word) (e : Raise) : (s.takeFault w e).run = .halted := rfl
@[simp] theorem State.takeFault_faultCause (w : Word) (e : Raise) : (s.takeFault w e).faultCause = some e.cause := rfl
@[simp] theorem State.takeFault_faultPc (w : Word) (e : Raise) : (s.takeFault w e).faultPc = s.pc := rfl
@[simp] theorem State.takeFault_faultWord (w : Word) (e : Raise) : (s.takeFault w e).faultWord = w := rfl
@[simp] theorem State.takeFault_faultInfo (w : Word) (e : Raise) : (s.takeFault w e).faultInfo = e.info := rfl
@[simp] theorem State.takeFault_romImg (w : Word) (e : Raise) : (s.takeFault w e).romImg = s.romImg := rfl
@[simp] theorem State.takeFault_cfg (w : Word) (e : Raise) : (s.takeFault w e).cfg = s.cfg := rfl
@[simp] theorem State.takeFault_draws (w : Word) (e : Raise) : (s.takeFault w e).draws = s.draws := rfl

/-! ### loadLowRegs -/

@[simp] theorem State.loadLowRegs_mem (a : Nat) (x : Reg) : (s.loadLowRegs a x).mem = s.mem := rfl
@[simp] theorem State.loadLowRegs_i (a : Nat) (x : Reg) : (s.loadLowRegs a x).i = s.i := rfl
@[simp] theorem State.loadLowRegs_pc (a : Nat) (x : Reg) : (s.loadLowRegs a x).pc = s.pc := rfl
@[simp] theorem State.loadLowRegs_stack (a : Nat) (x : Reg) : (s.loadLowRegs a x).stack = s.stack := rfl
@[simp] theorem State.loadLowRegs_sp (a : Nat) (x : Reg) : (s.loadLowRegs a x).sp = s.sp := rfl
@[simp] theorem State.loadLowRegs_disp (a : Nat) (x : Reg) : (s.loadLowRegs a x).disp = s.disp := rfl
@[simp] theorem State.loadLowRegs_redraw (a : Nat) (x : Reg) : (s.loadLowRegs a x).redraw = s.redraw := rfl
@[simp] theorem State.loadLowRegs_dt (a : Nat) (x : Reg) : (s.loadLowRegs a x).dt = s.dt := rfl
@[simp] theorem State.loadLowRegs_st (a : Nat) (x : Reg) : (s.loadLowRegs a x).st = s.st := rfl
@[simp] theorem State.loadLowRegs_key (a : Nat) (x : Reg) : (s.loadLowRegs a x).key = s.key := rfl
@[simp] theorem State.loadLowRegs_kwState (a : Nat) (x : Reg) : (s.loadLowRegs a x).kwState = s.kwState := rfl
@[simp] theorem State.loadLowRegs_kwKey (a : Nat) (x : Reg) : (s.loadLowRegs a x).kwKey = s.kwKey := rfl
@[simp] theorem State.loadLowRegs_run (a : Nat) (x : Reg) : (s.loadLowRegs a x).run = s.run := rfl
@[simp] theorem State.loadLowRegs_faultCause (a : Nat) (x : Reg) : (s.loadLowRegs a x).faultCause = s.faultCause := rfl
@[simp] theorem State.loadLowRegs_faultPc (a : Nat) (x : Reg) : (s.loadLowRegs a x).faultPc = s.faultPc := rfl
@[simp] theorem State.loadLowRegs_faultWord (a : Nat) (x : Reg) : (s.loadLowRegs a x).faultWord = s.faultWord := rfl
@[simp] theorem State.loadLowRegs_faultInfo (a : Nat) (x : Reg) : (s.loadLowRegs a x).faultInfo = s.faultInfo := rfl
@[simp] theorem State.loadLowRegs_romImg (a : Nat) (x : Reg) : (s.loadLowRegs a x).romImg = s.romImg := rfl
@[simp] theorem State.loadLowRegs_cfg (a : Nat) (x : Reg) : (s.loadLowRegs a x).cfg = s.cfg := rfl
@[simp] theorem State.loadLowRegs_draws (a : Nat) (x : Reg) : (s.loadLowRegs a x).draws = s.draws := rfl

/-! ### drawSprite -/

@[simp] theorem State.drawSprite_mem (rows : List Byte) (x0 y0 cols : Nat) : (s.drawSprite rows x0 y0 cols).mem = s.mem := rfl
@[simp] theorem State.drawSprite_i (rows : List Byte) (x0 y0 cols : Nat) : (s.drawSprite rows x0 y0 cols).i = s.i := rfl
@[simp] theorem State.drawSprite_pc (rows : List Byte) (x0 y0 cols : Nat) : (s.drawSprite rows x0 y0 cols).pc = s.pc := rfl
@[simp] theorem State.drawSprite_stack (rows : List Byte) (x0 y0 cols : Nat) : (s.drawSprite rows x0 y0 cols).stack = s.stack := rfl
@[simp] theorem State.drawSprite_sp (rows : List Byte) (x0 y0 cols : Nat) : (s.drawSprite rows x0 y0 cols).sp = s.sp := rfl
@[simp] theorem State.drawSprite_disp (rows : List Byte) (x0 y0 cols : Nat) : (s.drawSprite rows x0 y0 cols).disp = (drawRows ⟨s.disp, false, false⟩ rows x0 y0 cols).bitmap := rfl
@[simp] theorem State.drawSprite_redraw (rows : List Byte) (x0 y0 cols : Nat) : (s.drawSprite rows x0 y0 cols).redraw = (s.redraw || (drawRows ⟨s.disp, false, false⟩ rows x0 y0 cols).changed) := rfl
@[simp] theorem State.drawSprite_dt (rows : List Byte) (x0 y0 cols : Nat) : (s.drawSprite rows x0 y0 cols).dt = s.dt := rfl
@[simp] theorem State.drawSprite_st (rows : List Byte) (x0 y0 cols : Nat) : (s.drawSprite rows x0 y0 cols).st = s.st := rfl
@[simp] theorem State.drawSprite_key (rows : List Byte) (x0 y0 cols : Nat) : (s.drawSprite rows x0 y0 cols).key = s.key := rfl
@[simp] theorem State.drawSprite_kwState (rows : List Byte) (x0 y0 cols : Nat) : (s.drawSprite rows x0 y0 cols).kwState = s.kwState := rfl
@[simp] theorem State.drawSprite_kwKey (rows : List Byte) (x0 y0 cols : Nat) : (s.drawSprite rows x0 y0 cols).kwKey = s.kwKey := rfl
@[simp] theorem State.drawSprite_run (rows : List Byte) (x0 y0 cols : Nat) : (s.drawSprite rows x0 y0 cols).run = s.run := rfl
@[simp] theorem State.drawSprite_faultCause (rows : List Byte) (x0 y0 cols : Nat) : (s.drawSprite rows x0 y0 cols).faultCause = s.faultCause := rfl
@[simp] theorem State.drawSprite_faultPc (rows : List Byte) (x0 y0 cols : Nat) : (s.drawSprite rows x0 y0 cols).faultPc = s.faultPc := rfl
@[simp] theorem State.drawSprite_faultWord (rows : List Byte) (x0 y0 cols : Nat) : (s.drawSprite rows x0 y0 cols).faultWord = s.faultWord := rfl
@[simp] theorem State.drawSprite_faultInfo (rows : List Byte) (x0 y0 cols : Nat) : (s.drawSprite rows x0 y0 cols).faultInfo = s.faultInfo := rfl
@[simp] theorem State.drawSprite_romImg (rows : List Byte) (x0 y0 cols : Nat) : (s.drawSprite rows x0 y0 cols).romImg = s.romImg := rfl
@[simp] theorem State.drawSprite_cfg (rows : List Byte) (x0 y0 cols : Nat) : (s.drawSprite rows x0 y0 cols).cfg = s.cfg := rfl
@[simp] theorem State.drawSprite_draws (rows : List Byte) (x0 y0 cols : Nat) : (s.drawSprite rows x0 y0 cols).draws = s.draws := rfl

/-! ### tick -/

@[simp] theorem State.tick_mem : (s.tick).mem = s.mem := rfl
@[simp] theorem State.tick_v : (s.tick).v = s.v := rfl
@[simp] theorem State.tick_i : (s.tick).i = s.i := rfl
@[simp] theorem State.tick_pc : (s.tick).pc = s.pc := rfl
@[simp] theorem State.tick_stack : (s.tick).stack = s.stack := rfl
@[simp] theorem State.tick_sp : (s.tick).sp = s.sp := rfl
@[simp] theorem State.tick_disp : (s.tick).disp = s.disp := rfl
@[simp] theorem State.tick_redraw : (s.tick).redraw = s.redraw := rfl
@[simp] theorem State.tick_dt : (s.tick).dt = countDown s.dt := rfl
@[simp] theorem State.tick_st : (s.tick).st = countDown s.st := rfl
@[simp] theorem State.tick_key : (s.tick).key = s.key := rfl
@[simp] theorem State.tick_kwState : (s.tick).kwState = s.kwState := rfl
@[simp] theorem State.tick_kwKey : (s.tick).kwKey = s.kwKey := rfl
@[simp] theorem State.tick_run : (s.tick).run = s.run := rfl
@[simp] theorem State.tick_faultCause : (s.tick).faultCause = s.faultCause := rfl
@[simp] theorem State.tick_faultPc : (s.tick).faultPc = s.faultPc := rfl
@[simp] theorem State.tick_faultWord : (s.tick).faultWord = s.faultWord := rfl
@[simp] theorem State.tick_faultInfo : (s.tick).faultInfo = s.faultInfo := rfl
@[simp] theorem State.tick_romImg : (s.tick).romImg = s.romImg := rfl
@[simp] theorem State.tick_cfg : (s.tick).cfg = s.cfg := rfl
@[simp] theorem State.tick_draws : (s.tick).draws = s.draws := rfl

/-! ### setKey -/

@[simp] theorem State.setKey_mem (k : Key) (b : Bool) : (s.setKey k b).mem = s.mem := rfl
@[simp] theorem State.setKey_v (k : Key) (b : Bool) : (s.setKey k b).v = s.v := rfl
@[simp] theorem State.setKey_i (k : Key) (b : Bool) : (s.setKey k b).i = s.i := rfl
@[simp] theorem State.setKey_pc (k : Key) (b : Bool) : (s.setKey k b).pc = s.pc := rfl
@[simp] theorem State.setKey_stack (k : Key) (b : Bool) : (s.setKey k b).stack = s.stack := rfl
@[simp] theorem State.setKey_sp (k : Key) (b : Bool) : (s.setKey k b).sp = s.sp := rfl
@[simp] theorem State.setKey_disp (k : Key) (b : Bool) : (s.setKey k b).disp = s.disp := rfl
@[simp] theorem State.setKey_redraw (k : Key) (b : Bool) : (s.setKey k b).redraw = s.redraw := rfl
@[simp] theorem State.setKey_dt (k : Key) (b : Bool) : (s.setKey k b).dt = s.dt := rfl
@[simp] theorem State.setKey_st (k : Key) (b : Bool) : (s.setKey k b).st = s.st := rfl
@[simp] theorem State.setKey_key (k : Key) (b : Bool) : (s.setKey k b).key = s.key.set k.val b := rfl
@[simp] theorem State.setKey_kwState (k : Key) (b : Bool) : (s.setKey k b).kwState = s.kwState := rfl
@[simp] theorem State.setKey_kwKey (k : Key) (b : Bool) : (s.setKey k b).kwKey = s.kwKey := rfl
@[simp] theorem State.setKey_run (k : Key) (b : Bool) : (s.setKey k b).run = s.run := rfl
@[simp] theorem State.setKey_faultCause (k : Key) (b : Bool) : (s.setKey k b).faultCause = s.faultCause := rfl
@[simp] theorem State.setKey_faultPc (k : Key) (b : Bool) : (s.setKey k b).faultPc = s.faultPc := rfl
@[simp] theorem State.setKey_faultWord (k : Key) (b : Bool) : (s.setKey k b).faultWord = s.faultWord := rfl
@[simp] theorem State.setKey_faultInfo (k : Key) (b : Bool) : (s.setKey k b).faultInfo = s.faultInfo := rfl
@[simp] theorem State.setKey_romImg (k : Key) (b : Bool) : (s.setKey k b).romImg = s.romImg := rfl
@[simp] theorem State.setKey_cfg (k : Key) (b : Bool) : (s.setKey k b).cfg = s.cfg := rfl
@[simp] theorem State.setKey_draws (k : Key) (b : Bool) : (s.setKey k b).draws = s.draws := rfl

/-! ### clearRedraw -/

@[simp] theorem State.clearRedraw_mem : (s.clearRedraw).mem = s.mem := rfl
@[simp] theorem State.clearRedraw_v : (s.clearRedraw).v = s.v := rfl
@[simp] theorem State.clearRedraw_i : (s.clearRedraw).i = s.i := rfl
@[simp] theorem State.clearRedraw_pc : (s.clearRedraw).pc = s.pc := rfl
@[simp] theorem State.clearRedraw_stack : (s.clearRedraw).stack = s.stack := rfl
@[simp] theorem State.clearRedraw_sp : (s.clearRedraw).sp = s.sp := rfl
@[simp] theorem State.clearRedraw_disp : (s.clearRedraw).disp = s.disp := rfl
@[simp] theorem State.clearRedraw_redraw : (s.clearRedraw).redraw = false := rfl
@[simp] theorem State.clearRedraw_dt : (s.clearRedraw).dt = s.dt := rfl
@[simp] theorem State.clearRedraw_st : (s.clearRedraw).st = s.st := rfl
@[simp] theorem State.clearRedraw_key : (s.clearRedraw).key = s.key := rfl
@[simp] theorem State.clearRedraw_kwState : (s.clearRedraw).kwState = s.kwState := rfl
@[simp] theorem State.clearRedraw_kwKey : (s.clearRedraw).kwKey = s.kwKey := rfl
@[simp] theorem State.clearRedraw_run : (s.clearRedraw).run = s.run := rfl
@[simp] theorem State.clearRedraw_faultCause : (s.clearRedraw).faultCause = s.faultCause := rfl
@[simp] theorem State.clearRedraw_faultPc : (s.clearRedraw).faultPc = s.faultPc := rfl
@[simp] theorem State.clearRedraw_faultWord : (s.clearRedraw).faultWord = s.faultWord := rfl
@[simp] theorem State.clearRedraw_faultInfo : (s.clearRedraw).faultInfo = s.faultInfo := rfl
@[simp] theorem State.clearRedraw_romImg : (s.clearRedraw).romImg = s.romImg := rfl
@[simp] theorem State.clearRedraw_cfg : (s.clearRedraw).cfg = s.cfg := rfl
@[simp] theorem State.clearRedraw_draws : (s.clearRedraw).draws = s.draws := rfl

/-! ### skipIf -/

@[simp] theorem State.skipIf_mem (c : Bool) : (s.skipIf c).mem = s.mem := by unfold State.skipIf; split <;> rfl
@[simp] theorem State.skipIf_v (c : Bool) : (s.skipIf c).v = s.v := by unfold State.skipIf; split <;> rfl
@[simp] theorem State.skipIf_i (c : Bool) : (s.skipIf c).i = s.i := by unfold State.skipIf; split <;> rfl
@[simp] theorem State.skipIf_stack (c : Bool) : (s.skipIf c).stack = s.stack := by unfold State.skipIf; split <;> rfl
@[simp] theorem State.skipIf_sp (c : Bool) : (s.skipIf c).sp = s.sp := by unfold State.skipIf; split <;> rfl
@[simp] theorem State.skipIf_disp (c : Bool) : (s.skipIf c).disp = s.disp := by unfold State.skipIf; split <;> rfl
@[simp] theorem State.skipIf_redraw (c : Bool) : (s.skipIf c).redraw = s.redraw := by unfold State.skipIf; split <;> rfl
@[simp] theorem State.skipIf_dt (c : Bool) : (s.skipIf c).dt = s.dt := by unfold State.skipIf; split <;> rfl
@[simp] theorem State.skipIf_st (c : Bool) : (s.skipIf c).st = s.st := by unfold State.skipIf; split <;> rfl
@[simp] theorem State.skipIf_key (c : Bool) : (s.skipIf c).key = s.key := by unfold State.skipIf; split <;> rfl
@[simp] theorem State.skipIf_kwState (c : Bool) : (s.skipIf c).kwState = s.kwState := by unfold State.skipIf; split <;> rfl
@[simp] theorem State.skipIf_kwKey (c : Bool) : (s.skipIf c).kwKey = s.kwKey := by unfold State.skipIf; split <;> rfl
@[simp] theorem State.skipIf_run (c : Bool) : (s.skipIf c).run = s.run := by unfold State.skipIf; split <;> rfl
@[simp] theorem State.skipIf_faultCause (c : Bool) : (s.skipIf c).faultCause = s.faultCause := by unfold State.skipIf; split <;> rfl
@[simp] theorem State.skipIf_faultPc (c : Bool) : (s.skipIf c).faultPc = s.faultPc := by unfold State.skipIf; split <;> rfl
@[simp] theorem State.skipIf_faultWord (c : Bool) : (s.skipIf c).faultWord = s.faultWord := by unfold State.skipIf; split <;> rfl
@[simp] theorem State.skipIf_faultInfo (c : Bool) : (s.skipIf c).faultInfo = s.faultInfo := by unfold State.skipIf; split <;> rfl
@[simp] theorem State.skipIf_romImg (c : Bool) : (s.skipIf c).romImg = s.romImg := by unfold State.skipIf; split <;> rfl
@[simp] theorem State.skipIf_cfg (c : Bool) : (s.skipIf c).cfg = s.cfg := by unfold State.skipIf; split <;> rfl
@[simp] theorem State.skipIf_draws (c : Bool) : (s.skipIf c).draws = s.draws := by unfold State.skipIf; split <;> rfl

/-! ### writeLogic -/

@[simp] theorem State.writeLogic_mem (x : Reg) (b : Byte) : (s.writeLogic x b).mem = s.mem := by unfold State.writeLogic; split <;> rfl
@[simp] theorem State.writeLogic_i (x : Reg) (b : Byte) : (s.writeLogic x b).i = s.i := by unfold State.writeLogic; split <;> rfl
@[simp] theorem State.writeLogic_pc (x : Reg) (b : Byte) : (s.writeLogic x b).pc = s.pc := by unfold State.writeLogic; split <;> rfl
@[simp] theorem State.writeLogic_stack (x : Reg) (b : Byte) : (s.writeLogic x b).stack = s.stack := by unfold State.writeLogic; split <;> rfl
@[simp] theorem State.writeLogic_sp (x : Reg) (b : Byte) : (s.writeLogic x b).sp = s.sp := by unfold State.writeLogic; split <;> rfl
@[simp] theorem State.writeLogic_disp (x : Reg) (b : Byte) : (s.writeLogic x b).disp = s.disp := by unfold State.writeLogic; split <;> rfl
@[simp] theorem State.writeLogic_redraw (x : Reg) (b : Byte) : (s.writeLogic x b).redraw = s.redraw := by unfold State.writeLogic; split <;> rfl
@[simp] theorem State.writeLogic_dt (x : Reg) (b : Byte) : (s.writeLogic x b).dt = s.dt := by unfold State.writeLogic; split <;> rfl
@[simp] theorem State.writeLogic_st (x : Reg) (b : Byte) : (s.writeLogic x b).st = s.st := by unfold State.writeLogic; split <;> rfl
@[simp] theorem State.writeLogic_key (x : Reg) (b : Byte) : (s.writeLogic x b).key = s.key := by unfold State.writeLogic; split <;> rfl
@[simp] theorem State.writeLogic_kwState (x : Reg) (b : Byte) : (s.writeLogic x b).kwState = s.kwState := by unfold State.writeLogic; split <;> rfl
@[simp] theorem State.writeLogic_kwKey (x : Reg) (b : Byte) : (s.writeLogic x b).kwKey = s.kwKey := by unfold State.writeLogic; split <;> rfl
@[simp] theorem State.writeLogic_run (x : Reg) (b : Byte) : (s.writeLogic x b).run = s.run := by unfold State.writeLogic; split <;> rfl
@[simp] theorem State.writeLogic_faultCause (x : Reg) (b : Byte) : (s.writeLogic x b).faultCause = s.faultCause := by unfold State.writeLogic; split <;> rfl
@[simp] theorem State.writeLogic_faultPc (x : Reg) (b : Byte) : (s.writeLogic x b).faultPc = s.faultPc := by unfold State.writeLogic; split <;> rfl
@[simp] theorem State.writeLogic_faultWord (x : Reg) (b : Byte) : (s.writeLogic x b).faultWord = s.faultWord := by unfold State.writeLogic; split <;> rfl
@[simp] theorem State.writeLogic_faultInfo (x : Reg) (b : Byte) : (s.writeLogic x b).faultInfo = s.faultInfo := by unfold State.writeLogic; split <;> rfl
@[simp] theorem State.writeLogic_romImg (x : Reg) (b : Byte) : (s.writeLogic x b).romImg = s.romImg := by unfold State.writeLogic; split <;> rfl
@[simp] theorem State.writeLogic_cfg (x : Reg) (b : Byte) : (s.writeLogic x b).cfg = s.cfg := by unfold State.writeLogic; split <;> rfl
@[simp] theorem State.writeLogic_draws (x : Reg) (b : Byte) : (s.writeLogic x b).draws = s.draws := by unfold State.writeLogic; split <;> rfl

/-! ### writeWithFlag -/

@[simp] theorem State.writeWithFlag_mem (x : Reg) (b : Byte) (flag : Bool) : (s.writeWithFlag x b flag).mem = s.mem := rfl
@[simp] theorem State.writeWithFlag_i (x : Reg) (b : Byte) (flag : Bool) : (s.writeWithFlag x b flag).i = s.i := rfl
@[simp] theorem State.writeWithFlag_pc (x : Reg) (b : Byte) (flag : Bool) : (s.writeWithFlag x b flag).pc = s.pc := rfl
@[simp] theorem State.writeWithFlag_stack (x : Reg) (b : Byte) (flag : Bool) : (s.writeWithFlag x b flag).stack = s.stack := rfl
@[simp] theorem State.writeWithFlag_sp (x : Reg) (b : Byte) (flag : Bool) : (s.writeWithFlag x b flag).sp = s.sp := rfl
@[simp] theorem State.writeWithFlag_disp (x : Reg) (b : Byte) (flag : Bool) : (s.writeWithFlag x b flag).disp = s.disp := rfl
@[simp] theorem State.writeWithFlag_redraw (x : Reg) (b : Byte) (flag : Bool) : (s.writeWithFlag x b flag).redraw = s.redraw := rfl
@[simp] theorem State.writeWithFlag_dt (x : Reg) (b : Byte) (flag : Bool) : (s.writeWithFlag x b flag).dt = s.dt := rfl
@[simp] theorem State.writeWithFlag_st (x : Reg) (b : Byte) (flag : Bool) : (s.writeWithFlag x b flag).st = s.st := rfl
@[simp] theorem State.writeWithFlag_key (x : Reg) (b : Byte) (flag : Bool) : (s.writeWithFlag x b flag).key = s.key := rfl
@[simp] theorem State.writeWithFlag_kwState (x : Reg) (b : Byte) (flag : Bool) : (s.writeWithFlag x b flag).kwState = s.kwState := rfl
@[simp] theorem State.writeWithFlag_kwKey (x : Reg) (b : Byte) (flag : Bool) : (s.writeWithFlag x b flag).kwKey = s.kwKey := rfl
@[simp] theorem State.writeWithFlag_run (x : Reg) (b : Byte) (flag : Bool) : (s.writeWithFlag x b flag).run = s.run := rfl
@[simp] theorem State.writeWithFlag_faultCause (x : Reg) (b : Byte) (flag : Bool) : (s.writeWithFlag x b flag).faultCause = s.faultCause := rfl
@[simp] theorem State.writeWithFlag_faultPc (x : Reg) (b : Byte) (flag : Bool) : (s.writeWithFlag x b flag).faultPc = s.faultPc := rfl
@[simp] theorem State.writeWithFlag_faultWord (x : Reg) (b : Byte) (flag : Bool) : (s.writeWithFlag x b flag).faultWord = s.faultWord := rfl
@[simp] theorem State.writeWithFlag_faultInfo (x : Reg) (b : Byte) (flag : Bool) : (s.writeWithFlag x b flag).faultInfo = s.faultInfo := rfl
@[simp] theorem State.writeWithFlag_romImg (x : Reg) (b : Byte) (flag : Bool) : (s.writeWithFlag x b flag).romImg = s.romImg := rfl
@[simp] theorem State.writeWithFlag_cfg (x : Reg) (b : Byte) (flag : Bool) : (s.writeWithFlag x b flag).cfg = s.cfg := rfl
@[simp] theorem State.writeWithFlag_draws (x : Reg) (b : Byte) (flag : Bool) : (s.writeWithFlag x b flag).draws = s.draws := rfl

@[simp] theorem State.skipIf_pc (c : Bool) : (s.skipIf c).pc = if c then s.pc + 2 else s.pc := by
  unfold State.skipIf; split <;> rfl

/-! ### reading a register after an update -/

theorem State.readV_def (r : Reg) : s.readV r = s.v[r.val] := rfl

@[simp] theorem State.readV_writeV_same (r : Reg) (b : Byte) : (s.writeV r b).readV r = b := by
  simp [State.readV_def]

theorem State.readV_writeV (r q : Reg) (b : Byte) :
    (s.writeV r b).readV q = if q = r then b else s.readV q := by
  by_cases h : q = r
  · subst h; simp
  · have : r.val ≠ q.val := fun e => h (Fin.ext e.symm)
    simp [State.readV_def, h, this]

@[simp] theorem State.readV_writeV_ne {r q : Reg} (h : q ≠ r) (b : Byte) : (s.writeV r b).readV q = s.readV q := by
  simp [State.readV_writeV, h]

/-- R190: VF ends holding the flag, whatever X is. -/
@[simp] theorem State.readV_writeWithFlag (x q : Reg) (b : Byte) (flag : Bool) :
    (s.writeWithFlag x b flag).readV q =
      if q = flagReg then flagByte flag else if q = x then b else s.readV q := by
  simp [State.writeWithFlag, State.readV_writeV]

/-- R195: a logic result, and VF ← 0 in legacy mode. -/
@[simp] theorem State.readV_writeLogic (x q : Reg) (b : Byte) :
    (s.writeLogic x b).readV q =
      if s.cfg.qLogicVf = true ∧ q = flagReg then 0 else if q = x then b else s.readV q := by
  unfold State.writeLogic
  cases s.cfg.qLogicVf <;> simp [State.readV_writeV]

/-- R235: registers up to X are loaded, the others kept. -/
@[simp] theorem State.readV_loadLowRegs (a : Nat) (x q : Reg) :
    (s.loadLowRegs a x).readV q = if q ≤ x then s.readMem (a + q.val) else s.readV q := by
  simp [State.loadLowRegs, State.readV_def]

@[simp] theorem State.readV_drawSprite (rows : List Byte) (x0 y0 cols : Nat) (q : Reg) :
    (s.drawSprite rows x0 y0 cols).readV q =
      if q = flagReg then flagByte (drawRows ⟨s.disp, false, false⟩ rows x0 y0 cols).collision else s.readV q :=
  State.readV_writeV s flagReg q _

/-- R234: the registers FX55 stores. -/
theorem State.length_lowRegs (x : Reg) : (s.lowRegs x).length = x.val + 1 := by
  simp [State.lowRegs]

theorem State.getElem?_lowRegs (x : Reg) (k : Nat) (h : k ≤ x.val) :
    (s.lowRegs x)[k]? = some (s.readV ⟨k, by omega⟩) := by
  have hk : k < 16 := by omega
  simp only [State.lowRegs, List.getElem?_take, State.readV_def]
  rw [if_pos (by omega)]
  simp [hk]

/-! ### the other accessors after an update -/

@[simp] theorem State.readMem_writeV (r : Reg) (b : Byte) (p : Nat) : (s.writeV r b).readMem p = s.readMem p := rfl
@[simp] theorem State.stackAt_writeV (r : Reg) (b : Byte) (j : Nat) : (s.writeV r b).stackAt j = s.stackAt j := rfl
@[simp] theorem State.pixel_writeV (r : Reg) (b : Byte) (px py : Nat) : (s.writeV r b).pixel px py = s.pixel px py := rfl
@[simp] theorem State.pressed_writeV (r : Reg) (b : Byte) (k' : Key) : (s.writeV r b).pressed k' = s.pressed k' := rfl
@[simp] theorem State.readV_writeI (w : Word) (q : Reg) : (s.writeI w).readV q = s.readV q := rfl
@[simp] theorem State.readMem_writeI (w : Word) (p : Nat) : (s.writeI w).readMem p = s.readMem p := rfl
@[simp] theorem State.stackAt_writeI (w : Word) (j : Nat) : (s.writeI w).stackAt j = s.stackAt j := rfl
@[simp] theorem State.pixel_writeI (w : Word) (px py : Nat) : (s.writeI w).pixel px py = s.pixel px py := rfl
@[simp] theorem State.pressed_writeI (w : Word) (k' : Key) : (s.writeI w).pressed k' = s.pressed k' := rfl
@[simp] theorem State.readV_writePC (w : Word) (q : Reg) : (s.writePC w).readV q = s.readV q := rfl
@[simp] theorem State.readMem_writePC (w : Word) (p : Nat) : (s.writePC w).readMem p = s.readMem p := rfl
@[simp] theorem State.stackAt_writePC (w : Word) (j : Nat) : (s.writePC w).stackAt j = s.stackAt j := rfl
@[simp] theorem State.pixel_writePC (w : Word) (px py : Nat) : (s.writePC w).pixel px py = s.pixel px py := rfl
@[simp] theorem State.pressed_writePC (w : Word) (k' : Key) : (s.writePC w).pressed k' = s.pressed k' := rfl
@[simp] theorem State.readV_advancePC (q : Reg) : (s.advancePC).readV q = s.readV q := rfl
@[simp] theorem State.readMem_advancePC (p : Nat) : (s.advancePC).readMem p = s.readMem p := rfl
@[simp] theorem State.stackAt_advancePC (j : Nat) : (s.advancePC).stackAt j = s.stackAt j := rfl
@[simp] theorem State.pixel_advancePC (px py : Nat) : (s.advancePC).pixel px py = s.pixel px py := rfl
@[simp] theorem State.pressed_advancePC (k' : Key) : (s.advancePC).pressed k' = s.pressed k' := rfl
@[simp] theorem State.readV_rewindPC (q : Reg) : (s.rewindPC).readV q = s.readV q := rfl
@[simp] theorem State.readMem_rewindPC (p : Nat) : (s.rewindPC).readMem p = s.readMem p := rfl
@[simp] theorem State.stackAt_rewindPC (j : Nat) : (s.rewindPC).stackAt j = s.stackAt j := rfl
@[simp] theorem State.pixel_rewindPC (px py : Nat) : (s.rewindPC).pixel px py = s.pixel px py := rfl
@[simp] theorem State.pressed_rewindPC (k' : Key) : (s.rewindPC).pressed k' = s.pressed k' := rfl
@[simp] theorem State.readV_writeMem (a : Nat) (b : Byte) (q : Reg) : (s.writeMem a b).readV q = s.readV q := rfl
@[simp] theorem State.stackAt_writeMem (a : Nat) (b : Byte) (j : Nat) : (s.writeMem a b).stackAt j = s.stackAt j := rfl
@[simp] theorem State.pixel_writeMem (a : Nat) (b : Byte) (px py : Nat) : (s.writeMem a b).pixel px py = s.pixel px py := rfl
@[simp] theorem State.pressed_writeMem (a : Nat) (b : Byte) (k' : Key) : (s.writeMem a b).pressed k' = s.pressed k' := rfl
@[simp] theorem State.readV_writeBytes (a : Nat) (bs : List Byte) (q : Reg) : (s.writeBytes a bs).readV q = s.readV q := rfl
@[simp] theorem State.stackAt_writeBytes (a : Nat) (bs : List Byte) (j : Nat) : (s.writeBytes a bs).stackAt j = s.stackAt j := rfl
@[simp] theorem State.pixel_writeBytes (a : Nat) (bs : List Byte) (px py : Nat) : (s.writeBytes a bs).pixel px py = s.pixel px py := rfl
@[simp] theorem State.pressed_writeBytes (a : Nat) (bs : List Byte) (k' : Key) : (s.writeBytes a bs).pressed k' = s.pressed k' := rfl
@[simp] theorem State.readV_clearDisplay (q : Reg) : (s.clearDisplay).readV q = s.readV q := rfl
@[simp] theorem State.readMem_clearDisplay (p : Nat) : (s.clearDisplay).readMem p = s.readMem p := rfl
@[simp] theorem State.stackAt_clearDisplay (j : Nat) : (s.clearDisplay).stackAt j = s.stackAt j := rfl
@[simp] theorem State.pressed_clearDisplay (k' : Key) : (s.clearDisplay).pressed k' = s.pressed k' := rfl
@[simp] theorem State.readV_writeDT (b : Byte) (q : Reg) : (s.writeDT b).readV q = s.readV q := rfl
@[simp] theorem State.readMem_writeDT (b : Byte) (p : Nat) : (s.writeDT b).readMem p = s.readMem p := rfl
@[simp] theorem State.stackAt_writeDT (b : Byte) (j : Nat) : (s.writeDT b).stackAt j = s.stackAt j := rfl
@[simp] theorem State.pixel_writeDT (b : Byte) (px py : Nat) : (s.writeDT b).pixel px py = s.pixel px py := rfl
@[simp] theorem State.pressed_writeDT (b : Byte) (k' : Key) : (s.writeDT b).pressed k' = s.pressed k' := rfl
@[simp] theorem State.readV_writeST (b : Byte) (q : Reg) : (s.writeST b).readV q = s.readV q := rfl
@[simp] theorem State.readMem_writeST (b : Byte) (p : Nat) : (s.writeST b).readMem p = s.readMem p := rfl
@[simp] theorem State.stackAt_writeST (b : Byte) (j : Nat) : (s.writeST b).stackAt j = s.stackAt j := rfl
@[simp] theorem State.pixel_writeST (b : Byte) (px py : Nat) : (s.writeST b).pixel px py = s.pixel px py := rfl
@[simp] theorem State.pressed_writeST (b : Byte) (k' : Key) : (s.writeST b).pressed k' = s.pressed k' := rfl
@[simp] theorem State.readV_setLatch (kw : KeyWait) (k : Key) (q : Reg) : (s.setLatch kw k).readV q = s.readV q := rfl
@[simp] theorem State.readMem_setLatch (kw : KeyWait) (k : Key) (p : Nat) : (s.setLatch kw k).readMem p = s.readMem p := rfl
@[simp] theorem State.stackAt_setLatch (kw : KeyWait) (k : Key) (j : Nat) : (s.setLatch kw k).stackAt j = s.stackAt j := rfl
@[simp] theorem State.pixel_setLatch (kw : KeyWait) (k : Key) (px py : Nat) : (s.setLatch kw k).pixel px py = s.pixel px py := rfl
@[simp] theorem State.pressed_setLatch (kw : KeyWait) (k : Key) (k' : Key) : (s.setLatch kw k).pressed k' = s.pressed k' := rfl
@[simp] theorem State.readV_nextDraw (q : Reg) : (s.nextDraw).readV q = s.readV q := rfl
@[simp] theorem State.readMem_nextDraw (p : Nat) : (s.nextDraw).readMem p = s.readMem p := rfl
@[simp] theorem State.stackAt_nextDraw (j : Nat) : (s.nextDraw).stackAt j = s.stackAt j := rfl
@[simp] theorem State.pixel_nextDraw (px py : Nat) : (s.nextDraw).pixel px py = s.pixel px py := rfl
@[simp] theorem State.pressed_nextDraw (k' : Key) : (s.nextDraw).pressed k' = s.pressed k' := rfl
@[simp] theorem State.readV_takeFault (w : Word) (e : Raise) (q : Reg) : (s.takeFault w e).readV q = s.readV q := rfl
@[simp] theorem State.readMem_takeFault (w : Word) (e : Raise) (p : Nat) : (s.takeFault w e).readMem p = s.readMem p := rfl
@[simp] theorem State.stackAt_takeFault (w : Word) (e : Raise) (j : Nat) : (s.takeFault w e).stackAt j = s.stackAt j := rfl
@[simp] theorem State.pixel_takeFault (w : Word) (e : Raise) (px py : Nat) : (s.takeFault w e).pixel px py = s.pixel px py := rfl
@[simp] theorem State.pressed_takeFault (w : Word) (e : Raise) (k' : Key) : (s.takeFault w e).pressed k' = s.pressed k' := rfl
@[simp] theorem State.readMem_loadLowRegs (a : Nat) (x : Reg) (p : Nat) : (s.loadLowRegs a x).readMem p = s.readMem p := rfl
@[simp] theorem State.stackAt_loadLowRegs (a : Nat) (x : Reg) (j : Nat) : (s.loadLowRegs a x).stackAt j = s.stackAt j := rfl
@[simp] theorem State.pixel_loadLowRegs (a : Nat) (x : Reg) (px py : Nat) : (s.loadLowRegs a x).pixel px py = s.pixel px py := rfl
@[simp] theorem State.pressed_loadLowRegs (a : Nat) (x : Reg) (k' : Key) : (s.loadLowRegs a x).pressed k' = s.pressed k' := rfl
@[simp] theorem State.readMem_drawSprite (rows : List Byte) (x0 y0 cols : Nat) (p : Nat) : (s.drawSprite rows x0 y0 cols).readMem p = s.readMem p := rfl
@[simp] theorem State.stackAt_drawSprite (rows : List Byte) (x0 y0 cols : Nat) (j : Nat) : (s.drawSprite rows x0 y0 cols).stackAt j = s.stackAt j := rfl
@[simp] theorem State.pressed_drawSprite (rows : List Byte) (x0 y0 cols : Nat) (k' : Key) : (s.drawSprite rows x0 y0 cols).pressed k' = s.pressed k' := rfl
@[simp] theorem State.readV_tick (q : Reg) : (s.tick).readV q = s.readV q := rfl
@[simp] theorem State.readMem_tick (p : Nat) : (s.tick).readMem p = s.readMem p := rfl
@[simp] theorem State.stackAt_tick (j : Nat) : (s.tick).stackAt j = s.stackAt j := rfl
@[simp] theorem State.pixel_tick (px py : Nat) : (s.tick).pixel px py = s.pixel px py := rfl
@[simp] theorem State.pressed_tick (k' : Key) : (s.tick).pressed k' = s.pressed k' := rfl
@[simp] theorem State.readV_setKey (k : Key) (b : Bool) (q : Reg) : (s.setKey k b).readV q = s.readV q := rfl
@[simp] theorem State.readMem_setKey (k : Key) (b : Bool) (p : Nat) : (s.setKey k b).readMem p = s.readMem p := rfl
@[simp] theorem State.stackAt_setKey (k : Key) (b : Bool) (j : Nat) : (s.setKey k b).stackAt j = s.stackAt j := rfl
@[simp] theorem State.pixel_setKey (k : Key) (b : Bool) (px py : Nat) : (s.setKey k b).pixel px py = s.pixel px py := rfl
@[simp] theorem State.readV_clearRedraw (q : Reg) : (s.clearRedraw).readV q = s.readV q := rfl
@[simp] theorem State.readMem_clearRedraw (p : Nat) : (s.clearRedraw).readMem p = s.readMem p := rfl
@[simp] theorem State.stackAt_clearRedraw (j : Nat) : (s.clearRedraw).stackAt j = s.stackAt j := rfl
@[simp] theorem State.pixel_clearRedraw (px py : Nat) : (s.clearRedraw).pixel px py = s.pixel px py := rfl
@[simp] theorem State.pressed_clearRedraw (k' : Key) : (s.clearRedraw).pressed k' = s.pressed k' := rfl
@[simp] theorem State.readV_skipIf (c : Bool) (q : Reg) : (s.skipIf c).readV q = s.readV q := by unfold State.skipIf; split <;> rfl
@[simp] theorem State.readMem_skipIf (c : Bool) (p : Nat) : (s.skipIf c).readMem p = s.readMem p := by unfold State.skipIf; split <;> rfl
@[simp] theorem State.stackAt_skipIf (c : Bool) (j : Nat) : (s.skipIf c).stackAt j = s.stackAt j := by unfold State.skipIf; split <;> rfl
@[simp] theorem State.pixel_skipIf (c : Bool) (px py : Nat) : (s.skipIf c).pixel px py = s.pixel px py := by unfold State.skipIf; split <;> rfl
@[simp] theorem State.pressed_skipIf (c : Bool) (k' : Key) : (s.skipIf c).pressed k' = s.pressed k' := by unfold State.skipIf; split <;> rfl
@[simp] theorem State.readMem_writeLogic (x : Reg) (b : Byte) (p : Nat) : (s.writeLogic x b).readMem p = s.readMem p := by unfold State.writeLogic; split <;> rfl
@[simp] theorem State.stackAt_writeLogic (x : Reg) (b : Byte) (j : Nat) : (s.writeLogic x b).stackAt j = s.stackAt j := by unfold State.writeLogic; split <;> rfl
@[simp] theorem State.pixel_writeLogic (x : Reg) (b : Byte) (px py : Nat) : (s.writeLogic x b).pixel px py = s.pixel px py := by unfold State.writeLogic; split <;> rfl
@[simp] theorem State.pressed_writeLogic (x : Reg) (b : Byte) (k' : Key) : (s.writeLogic x b).pressed k' = s.pressed k' := by unfold State.writeLogic; split <;> rfl
@[simp] theorem State.readMem_writeWithFlag (x : Reg) (b : Byte) (flag : Bool) (p : Nat) : (s.writeWithFlag x b flag).readMem p = s.readMem p := rfl
@[simp] theorem State.stackAt_writeWithFlag (x : Reg) (b : Byte) (flag : Bool) (j : Nat) : (s.writeWithFlag x b flag).stackAt j = s.stackAt j := rfl
@[simp] theorem State.pixel_writeWithFlag (x : Reg) (b : Byte) (flag : Bool) (px py : Nat) : (s.writeWithFlag x b flag).pixel px py = s.pixel px py := rfl
@[simp] theorem State.pressed_writeWithFlag (x : Reg) (b : Byte) (flag : Bool) (k' : Key) : (s.writeWithFlag x b flag).pressed k' = s.pressed k' := rfl

/-! ### the stack -/

theorem State.stackAt_def (j : Nat) (h : j < 12) : s.stackAt j = s.stack[j] := by
  simp [State.stackAt, h]

/-- R39: push answers a state exactly when SP < 12, and what it holds. -/
theorem State.push_ok (w : Word) (h : s.sp.val < 12) :
    ∃ t, s.push w = .ok t ∧ t.sp.val = s.sp.val + 1 ∧ (∀ j, t.stackAt j = if j = s.sp.val then w else s.stackAt j) ∧
      t = { s with stack := t.stack, sp := t.sp } := by
  refine ⟨{ s with stack := s.stack.set s.sp.val w h, sp := ⟨s.sp.val + 1, by omega⟩ }, dif_pos h, rfl, ?_, rfl⟩
  intro j
  by_cases hj : j < 12
  · simp only [State.stackAt, hj, Vector.length_toList, List.getD_eq_getElem, Vector.getElem_toList, Vector.getElem_set, eq_comm]
  · have : j ≠ s.sp.val := by omega
    have h12 : ∀ v : Vector Word 12, v.toList.getD j 0 = 0 := fun v =>
      List.getD_eq_default _ _ (by simpa using hj)
    simp only [State.stackAt, this, if_false, h12]

/-- R39: push on a full stack raises. -/
theorem State.push_error (w : Word) (h : s.sp = 12) : s.push w = .error ⟨.stackOverflow, 12⟩ := by
  simp [State.push, h]

/-- R39: pop of an empty stack raises. -/
theorem State.pop_error (h : s.sp = 0) : s.pop = .error ⟨.stackUnderflow, 0⟩ := by
  simp [State.pop, h]

/-- R39: pop of a stack that holds an entry. -/
theorem State.pop_ok (h : s.sp ≠ 0) :
    ∃ t, s.pop = .ok (s.stackAt (s.sp.val - 1), t) ∧ t.sp.val = s.sp.val - 1 ∧ t = { s with sp := t.sp } := by
  have : s.sp.val ≠ 0 := fun e => h (Fin.ext e)
  exact ⟨{ s with sp := ⟨s.sp.val - 1, by omega⟩ }, if_neg this, rfl, rfl⟩

end Sys2Proof.Machine
end

