-- ==== Sys2Proof/Laws/Exec.lean ====
section
/-! SUPPORT. What exec answers for each instruction, in the model's named operations: one lemma per constructor. Those whose
rule cannot raise answer a state; those whose rule can are committed (R140), and `commit_ok` and `commit_error` finish. -/

namespace Sys2Proof.Machine

@[simp] theorem State.commit_ok (s t : State) (w : Word) : s.commit w (.ok t) = .next t := rfl

@[simp] theorem State.commit_error (s : State) (w : Word) (e : Raise) : s.commit w (.error e) = .next (s.takeFault w e) := rfl

variable (s : State) (x y : Reg) (nn : Byte) (nnn : BitVec 12) (n : Nat)

theorem exec_op00E0 : exec .op00E0 s = .next s.advancePC.clearDisplay := rfl

theorem exec_op00EE :
    exec .op00EE s = s.commit (encode .op00EE) (s.advancePC.pop.map (fun r => r.2.writePC r.1)) := rfl

theorem exec_op1NNN : exec (.op1NNN nnn) s = .next (s.advancePC.writePC (addressOf nnn)) := rfl

theorem exec_op2NNN :
    exec (.op2NNN nnn) s =
      s.commit (encode (.op2NNN nnn)) ((s.advancePC.push (s.pc + 2)).map (fun u => u.writePC (addressOf nnn))) := rfl

theorem exec_op3XNN : exec (.op3XNN x nn) s = .next (s.advancePC.skipIf (s.readV x == nn)) := rfl

theorem exec_op4XNN : exec (.op4XNN x nn) s = .next (s.advancePC.skipIf (s.readV x != nn)) := rfl

theorem exec_op5XY0 : exec (.op5XY0 x y) s = .next (s.advancePC.skipIf (s.readV x == s.readV y)) := rfl

theorem exec_op6XNN : exec (.op6XNN x nn) s = .next (s.advancePC.writeV x nn) := rfl

theorem exec_op7XNN : exec (.op7XNN x nn) s = .next (s.advancePC.writeV x (add8 (s.readV x) nn)) := rfl

theorem exec_op8XY0 : exec (.op8XY0 x y) s = .next (s.advancePC.writeV x (s.readV y)) := rfl

theorem exec_op8XY1 : exec (.op8XY1 x y) s = .next (s.advancePC.writeLogic x (s.readV x ||| s.readV y)) := rfl

theorem exec_op8XY2 : exec (.op8XY2 x y) s = .next (s.advancePC.writeLogic x (s.readV x &&& s.readV y)) := rfl

theorem exec_op8XY3 : exec (.op8XY3 x y) s = .next (s.advancePC.writeLogic x (s.readV x ^^^ s.readV y)) := rfl

theorem exec_op8XY4 :
    exec (.op8XY4 x y) s =
      .next (s.advancePC.writeWithFlag x (add8 (s.readV x) (s.readV y)) (carryOut (s.readV x) (s.readV y))) := rfl

theorem exec_op8XY5 :
    exec (.op8XY5 x y) s =
      .next (s.advancePC.writeWithFlag x (sub8 (s.readV x) (s.readV y)) (noBorrow (s.readV x) (s.readV y))) := rfl

theorem exec_op8XY6 :
    exec (.op8XY6 x y) s =
      .next (s.advancePC.writeWithFlag x (shr1 (shiftSource s.cfg (s.readV x) (s.readV y)))
        (shiftedOutRight (shiftSource s.cfg (s.readV x) (s.readV y)))) := rfl

theorem exec_op8XY7 :
    exec (.op8XY7 x y) s =
      .next (s.advancePC.writeWithFlag x (sub8 (s.readV y) (s.readV x)) (noBorrow (s.readV y) (s.readV x))) := rfl

theorem exec_op8XYE :
    exec (.op8XYE x y) s =
      .next (s.advancePC.writeWithFlag x (shl1 (shiftSource s.cfg (s.readV x) (s.readV y)))
        (shiftedOutLeft (shiftSource s.cfg (s.readV x) (s.readV y)))) := rfl

theorem exec_op9XY0 : exec (.op9XY0 x y) s = .next (s.advancePC.skipIf (s.readV x != s.readV y)) := rfl

theorem exec_opANNN : exec (.opANNN nnn) s = .next (s.advancePC.writeI (addressOf nnn)) := rfl

theorem exec_opBNNN :
    exec (.opBNNN nnn) s = .next (s.advancePC.writePC (wrap16 (nnn.toNat + (s.readV 0).toNat))) := rfl

theorem exec_opCXNN : exec (.opCXNN x nn) s = .next (s.advancePC.nextDraw.writeV x (s.draw &&& nn)) := rfl

theorem exec_opDXYN :
    exec (.opDXYN x y n) s =
      s.commit (encode (.opDXYN x y n))
        ((checkEach checkRead s.i.toNat (visibleRows s.cfg (originY s.cfg (s.readV y)) n)).map
          (fun _ => s.advancePC.drawSprite
            (s.readBytes s.i.toNat (visibleRows s.cfg (originY s.cfg (s.readV y)) n))
            (originX s.cfg (s.readV x)) (originY s.cfg (s.readV y))
            (visibleCols s.cfg (originX s.cfg (s.readV x))))) := rfl

theorem exec_opEX9E :
    exec (.opEX9E x) s =
      s.commit (encode (.opEX9E x)) ((keyOf (s.readV x)).map (fun k => s.advancePC.skipIf (s.pressed k))) := rfl

theorem exec_opEXA1 :
    exec (.opEXA1 x) s =
      s.commit (encode (.opEXA1 x)) ((keyOf (s.readV x)).map (fun k => s.advancePC.skipIf (!s.pressed k))) := rfl

theorem exec_opFX07 : exec (.opFX07 x) s = .next (s.advancePC.writeV x s.dt) := rfl

theorem exec_opFX0A : exec (.opFX0A x) s = .next (s.advancePC.pollKey x) := rfl

theorem exec_opFX15 : exec (.opFX15 x) s = .next (s.advancePC.writeDT (s.readV x)) := rfl

theorem exec_opFX18 : exec (.opFX18 x) s = .next (s.advancePC.writeST (s.readV x)) := rfl

theorem exec_opFX1E : exec (.opFX1E x) s = .next (s.advancePC.writeI (addI s.i (s.readV x))) := rfl

theorem exec_opFX29 : exec (.opFX29 x) s = .next (s.advancePC.writeI (wrap16 ((s.readV x).toNat * 5))) := rfl

theorem exec_opFX33 :
    exec (.opFX33 x) s =
      s.commit (encode (.opFX33 x)) ((checkEach checkWrite s.i.toNat 3).map
        (fun _ => s.advancePC.writeBytes s.i.toNat (bcdDigits (s.readV x)))) := rfl

theorem exec_opFX55 :
    exec (.opFX55 x) s =
      s.commit (encode (.opFX55 x)) ((checkEach checkWrite s.i.toNat (x.val + 1)).map
        (fun _ => (s.advancePC.writeBytes s.i.toNat (s.lowRegs x)).writeI (indexAfter s.cfg s.i x))) := rfl

theorem exec_opFX65 :
    exec (.opFX65 x) s =
      s.commit (encode (.opFX65 x)) ((checkEach checkRead s.i.toNat (x.val + 1)).map
        (fun _ => (s.advancePC.loadLowRegs s.i.toNat x).writeI (indexAfter s.cfg s.i x))) := rfl

/-- Each instruction is the frame of a step (R140) around its own word and one rule. -/
theorem exec_is_rule (i : Instr) : ∃ rule, ∀ s, exec i s = runRule (encode i) rule s := by
  cases i
  · exact ⟨_, fun s => by unfold exec; dsimp only; unfold exec00E0; rfl⟩
  · exact ⟨_, fun s => by unfold exec; dsimp only; unfold exec00EE; rfl⟩
  · exact ⟨_, fun s => by unfold exec; dsimp only; unfold exec1NNN; rfl⟩
  · exact ⟨_, fun s => by unfold exec; dsimp only; unfold exec2NNN; rfl⟩
  · exact ⟨_, fun s => by unfold exec; dsimp only; unfold exec3XNN; rfl⟩
  · exact ⟨_, fun s => by unfold exec; dsimp only; unfold exec4XNN; rfl⟩
  · exact ⟨_, fun s => by unfold exec; dsimp only; unfold exec5XY0; rfl⟩
  · exact ⟨_, fun s => by unfold exec; dsimp only; unfold exec6XNN; rfl⟩
  · exact ⟨_, fun s => by unfold exec; dsimp only; unfold exec7XNN; rfl⟩
  · exact ⟨_, fun s => by unfold exec; dsimp only; unfold exec8XY0; rfl⟩
  · exact ⟨_, fun s => by unfold exec; dsimp only; unfold exec8XY1; rfl⟩
  · exact ⟨_, fun s => by unfold exec; dsimp only; unfold exec8XY2; rfl⟩
  · exact ⟨_, fun s => by unfold exec; dsimp only; unfold exec8XY3; rfl⟩
  · exact ⟨_, fun s => by unfold exec; dsimp only; unfold exec8XY4; rfl⟩
  · exact ⟨_, fun s => by unfold exec; dsimp only; unfold exec8XY5; rfl⟩
  · exact ⟨_, fun s => by unfold exec; dsimp only; unfold exec8XY6; rfl⟩
  · exact ⟨_, fun s => by unfold exec; dsimp only; unfold exec8XY7; rfl⟩
  · exact ⟨_, fun s => by unfold exec; dsimp only; unfold exec8XYE; rfl⟩
  · exact ⟨_, fun s => by unfold exec; dsimp only; unfold exec9XY0; rfl⟩
  · exact ⟨_, fun s => by unfold exec; dsimp only; unfold execANNN; rfl⟩
  · exact ⟨_, fun s => by unfold exec; dsimp only; unfold execBNNN; rfl⟩
  · exact ⟨_, fun s => by unfold exec; dsimp only; unfold execCXNN; rfl⟩
  · exact ⟨_, fun s => by unfold exec; dsimp only; unfold execDXYN; rfl⟩
  · exact ⟨_, fun s => by unfold exec; dsimp only; unfold execEX9E; rfl⟩
  · exact ⟨_, fun s => by unfold exec; dsimp only; unfold execEXA1; rfl⟩
  · exact ⟨_, fun s => by unfold exec; dsimp only; unfold execFX07; rfl⟩
  · exact ⟨_, fun s => by unfold exec; dsimp only; unfold execFX0A; rfl⟩
  · exact ⟨_, fun s => by unfold exec; dsimp only; unfold execFX15; rfl⟩
  · exact ⟨_, fun s => by unfold exec; dsimp only; unfold execFX18; rfl⟩
  · exact ⟨_, fun s => by unfold exec; dsimp only; unfold execFX1E; rfl⟩
  · exact ⟨_, fun s => by unfold exec; dsimp only; unfold execFX29; rfl⟩
  · exact ⟨_, fun s => by unfold exec; dsimp only; unfold execFX33; rfl⟩
  · exact ⟨_, fun s => by unfold exec; dsimp only; unfold execFX55; rfl⟩
  · exact ⟨_, fun s => by unfold exec; dsimp only; unfold execFX65; rfl⟩

/-! ### the key-wait poll, case by case (R283), PC being p + 2 -/

@[simp] theorem State.advancePC_rewindPC : s.advancePC.rewindPC = s := by
  simp [State.advancePC, State.rewindPC]

/-- IDLE, no key pressed: nothing changes but the rewind. -/
theorem pollKey_no_key (h1 : s.kwState = .idle) (h2 : s.leastPressed = none) : s.advancePC.pollKey x = s := by
  have h3 : s.advancePC.leastPressed = none := h2
  unfold State.pollKey
  simp only [State.advancePC_kwState, h1, h3, State.advancePC_rewindPC]

/-- IDLE, key k the least pressed: k is latched, and PC rewinds. -/
theorem pollKey_latch {k : Key} (h1 : s.kwState = .idle) (h2 : s.leastPressed = some k) :
    s.advancePC.pollKey x = s.setLatch .awaitRelease k := by
  have h3 : s.advancePC.leastPressed = some k := h2
  unfold State.pollKey
  simp only [State.advancePC_kwState, h1, h3]
  simp [State.advancePC, State.rewindPC, State.setLatch]

/-- AWAIT_RELEASE, the latched key still held: nothing changes but the rewind. -/
theorem pollKey_held (h1 : s.kwState = .awaitRelease) (h2 : s.pressed s.kwKey = true) : s.advancePC.pollKey x = s := by
  unfold State.pollKey
  simp only [State.advancePC_kwState, State.advancePC_kwKey, State.pressed_advancePC, h1, h2, if_true,
    State.advancePC_rewindPC]

/-- AWAIT_RELEASE, the latched key released: V[X] is written and the latch cleared. -/
theorem pollKey_release (h1 : s.kwState = .awaitRelease) (h2 : s.pressed s.kwKey = false) :
    s.advancePC.pollKey x = (s.advancePC.writeV x (BitVec.ofNat 8 s.kwKey.val)).setLatch .idle 0 := by
  unfold State.pollKey
  simp [h1, h2]

/-- No key is the least pressed exactly when none is pressed. -/
theorem leastPressed_eq_none : s.leastPressed = none ↔ ∀ k, s.pressed k = false := by
  simp [State.leastPressed, List.find?_eq_none]

/-- R283: the least key pressed. -/
theorem leastPressed_eq_some {k : Key} (h : s.pressed k = true) (hlt : ∀ j, j < k → s.pressed j = false) :
    s.leastPressed = some k := by
  unfold State.leastPressed
  cases hf : (List.finRange 16).find? s.pressed with
  | none =>
    have := List.find?_eq_none.mp hf k (List.mem_finRange k)
    exact absurd h this
  | some j =>
    have hj : s.pressed j = true := List.find?_some hf
    rcases lt_trichotomy j k with h1 | h1 | h1
    · rw [hlt j h1] at hj; cases hj
    · rw [h1]
    · obtain ⟨_, i, hi, hij, hbefore⟩ := List.find?_eq_some_iff_getElem.mp hf
      have hki : k.val < i := by
        have h2 : j.val = i := by rw [← hij]; simp
        have h3 : k.val < j.val := h1
        omega
      have := hbefore k.val hki
      simp [h] at this

end Sys2Proof.Machine
end

