-- ==== Sys2Proof/Laws/Flags.lean ====
section
/-! SUPPORT. The alu's functions and flags as numbers (spec 42_alu.md R191), one lemma per function. -/

namespace Sys2Proof.Machine

variable (a b : Byte)

theorem toNat_flagByte (f : Bool) : (flagByte f).toNat = if f then 1 else 0 := by cases f <;> rfl

@[simp] theorem flagByte_eq_one (f : Bool) : flagByte f = 1#8 ↔ f = true := by cases f <;> decide

theorem flagByte_cases (f : Bool) : flagByte f = 1#8 ∨ flagByte f = 0#8 := by cases f <;> decide

@[simp] theorem toNat_wrap8 (n : Nat) : (wrap8 n).toNat = n % 256 := by simp [wrap8]

@[simp] theorem toNat_wrap16 (n : Nat) : (wrap16 n).toNat = n % 65536 := by simp [wrap16]

theorem toNat_add8 : (add8 a b).toNat = (a.toNat + b.toNat) % 256 := by simp [add8]

theorem toNat_carryOut : (flagByte (carryOut a b)).toNat = (a.toNat + b.toNat) / 256 := by
  have ha : a.toNat < 256 := a.isLt
  have hb : b.toNat < 256 := b.isLt
  rw [toNat_flagByte]
  unfold carryOut
  by_cases h : a.toNat + b.toNat > 255
  · rw [if_pos (decide_eq_true h)]; omega
  · rw [if_neg (by simp [h])]; omega

/-- R191: a − b + 256 narrowed is the wrapping difference. -/
theorem sub8_eq : sub8 a b = a - b := by
  have ha : a.toNat < 256 := a.isLt
  have hb : b.toNat < 256 := b.isLt
  apply BitVec.eq_of_toNat_eq
  rw [BitVec.toNat_sub, sub8, toNat_wrap8]
  omega

theorem flagByte_noBorrow : flagByte (noBorrow a b) = if a.toNat < b.toNat then 0 else 1 := by
  unfold noBorrow
  by_cases h : a.toNat < b.toNat
  · rw [if_pos h, decide_eq_false (by omega)]; rfl
  · rw [if_neg h, decide_eq_true (by omega)]; rfl

theorem toNat_shr1 : (shr1 a).toNat = a.toNat / 2 := by
  have ha : a.toNat < 256 := a.isLt
  simp only [shr1, toNat_wrap8, Nat.shiftRight_eq_div_pow]
  omega

theorem toNat_shl1 : (shl1 a).toNat = a.toNat * 2 % 256 := by
  simp only [shl1, toNat_wrap8, Nat.shiftLeft_eq, pow_one]

theorem toNat_shiftedOutRight : (flagByte (shiftedOutRight a)).toNat = a.toNat % 2 := by
  rw [toNat_flagByte, shiftedOutRight, BitVec.getLsbD, Nat.testBit_zero]
  by_cases h : a.toNat % 2 = 1
  · simp [h]
  · simp [h]; omega

theorem toNat_shiftedOutLeft : (flagByte (shiftedOutLeft a)).toNat = a.toNat / 128 := by
  have ha : a.toNat < 256 := a.isLt
  rw [toNat_flagByte, shiftedOutLeft, BitVec.getLsbD, Nat.testBit_eq_decide_div_mod_eq]
  by_cases h : a.toNat / 128 % 2 = 1
  · simp [h]; omega
  · simp [h]; omega

theorem toNat_addressOf (nnn : BitVec 12) : (addressOf nnn).toNat = nnn.toNat := by
  have h : nnn.toNat < 4096 := nnn.isLt
  simp only [addressOf, BitVec.toNat_setWidth]
  omega

end Sys2Proof.Machine
end

