-- ==== Sys2Proof/Laws/Memory.lean ====
section
/-! SUPPORT. The laws of main memory: a read after a write gives the byte written, a write leaves every other address alone,
and every operation keeps the canonical form and the range of the listed addresses. -/

namespace Sys2Proof.Machine

variable (font : Vector Byte 80) (m : Memory)

@[simp] theorem lookupCell_removeCell_same (a : Nat) : lookupCell (removeCell m a) a = none := by
  induction m with
  | nil => rfl
  | cons c rest ih =>
    by_cases h : c.1 = a
    · simpa [removeCell, h] using ih
    · simpa [removeCell, h, lookupCell] using ih

theorem lookupCell_removeCell_ne {a p : Nat} (h : p ≠ a) : lookupCell (removeCell m a) p = lookupCell m p := by
  induction m with
  | nil => rfl
  | cons c rest ih =>
    by_cases hc : c.1 = a
    · have hp : c.1 ≠ p := by omega
      have hp' : ¬ (a = p) := by omega
      simpa [removeCell, hc, lookupCell, hp, hp'] using ih
    · by_cases hp : c.1 = p
      · simp [removeCell, lookupCell, hp, h]
      · simpa [removeCell, hc, lookupCell, hp] using ih

theorem lookupCell_insertCell (c : Host.Cell) (h : lookupCell m c.1 = none) (p : Nat) :
    lookupCell (insertCell m c) p = if p = c.1 then some c.2 else lookupCell m p := by
  induction m with
  | nil => simp [insertCell, lookupCell, eq_comm]
  | cons d rest ih =>
    have hd : d.1 ≠ c.1 := by
      intro e; simp [lookupCell, e] at h
    have hr : lookupCell rest c.1 = none := by simpa [lookupCell, hd] using h
    unfold insertCell
    split
    · simp [lookupCell, eq_comm]
    · simp only [lookupCell, ih hr]
      by_cases hp : p = c.1
      · subst hp; simp [hd]
      · simp [hp]

/-- A read after a write: the byte written at its address, the old byte at every other. It holds of every list of cells. -/
theorem Memory.read_write (a p : Nat) (b : Byte) :
    Memory.read font (Memory.write font m a b) p = if p = a then b else Memory.read font m p := by
  unfold Memory.read Memory.write
  by_cases hp : p = a
  · subst hp
    split
    · next h => simp [h]
    · simp [lookupCell_insertCell]
  · split
    · simp [lookupCell_removeCell_ne _ hp]
    · simp [lookupCell_insertCell, lookupCell_removeCell_ne _ hp, hp]

@[simp] theorem Memory.read_write_same (a : Nat) (b : Byte) :
    Memory.read font (Memory.write font m a b) a = b := by
  simp [Memory.read_write]

/-- Reading after writing consecutive cells. -/
theorem Memory.read_writeBytes (a p : Nat) (bs : List Byte) :
    Memory.read font (Memory.writeBytes font m a bs) p =
      if a ≤ p ∧ p < a + bs.length then bs.getD (p - a) 0 else Memory.read font m p := by
  induction bs generalizing m a with
  | nil => simp [Memory.writeBytes]
  | cons b rest ih =>
    simp only [Memory.writeBytes, ih, Memory.read_write, List.length_cons]
    by_cases h : p = a
    · subst h
      simp
    · by_cases h1 : a + 1 ≤ p ∧ p < a + 1 + rest.length
      · have h2 : a ≤ p ∧ p < a + (rest.length + 1) := by omega
        have h3 : p - a = (p - (a + 1)) + 1 := by omega
        simp only [h1, h2, h3, and_self, if_true, List.getD_cons_succ]
      · have h2 : ¬ (a ≤ p ∧ p < a + (rest.length + 1)) := by omega
        simp only [h1, h2, h, if_false]

/-! ### the canonical form -/

theorem mem_removeCell {a : Nat} {c : Host.Cell} : c ∈ removeCell m a ↔ c ∈ m ∧ c.1 ≠ a := by
  simp [removeCell]

theorem mem_insertCell {c d : Host.Cell} : d ∈ insertCell m c ↔ d = c ∨ d ∈ m := by
  induction m with
  | nil => simp [insertCell]
  | cons e rest ih =>
    unfold insertCell
    split
    · simp
    · simp only [List.mem_cons, ih]
      exact or_left_comm

theorem removeCell_sorted {a : Nat} (h : m.Pairwise (fun c d => c.1 < d.1)) :
    (removeCell m a).Pairwise (fun c d => c.1 < d.1) := h.filter _

theorem insertCell_sorted {c : Host.Cell} (h : m.Pairwise (fun c d => c.1 < d.1)) (hc : ∀ d ∈ m, d.1 ≠ c.1) :
    (insertCell m c).Pairwise (fun c d => c.1 < d.1) := by
  induction m with
  | nil => simp [insertCell]
  | cons d rest ih =>
    obtain ⟨h1, h2⟩ := List.pairwise_cons.mp h
    unfold insertCell
    split
    · next hlt =>
      refine List.pairwise_cons.mpr ⟨?_, h⟩
      intro e he
      rcases List.mem_cons.mp he with rfl | he
      · exact hlt
      · exact lt_trans hlt (h1 e he)
    · next hlt =>
      refine List.pairwise_cons.mpr ⟨?_, ih h2 (fun e he => hc e (List.mem_cons_of_mem _ he))⟩
      intro e he
      rcases (mem_insertCell rest).mp he with rfl | he
      · have := hc d (List.mem_cons_self ..); omega
      · exact h1 e he

/-- Every write keeps the canonical form. -/
theorem Memory.write_wf (a : Nat) (b : Byte) (h : Memory.wf font m) : Memory.wf font (Memory.write font m a b) := by
  obtain ⟨h1, h2⟩ := h
  unfold Memory.write
  split
  · exact ⟨removeCell_sorted m h1, fun c hc => h2 c ((mem_removeCell m).mp hc).1⟩
  · next hb =>
    refine ⟨insertCell_sorted _ (removeCell_sorted m h1) (fun d hd => ((mem_removeCell m).mp hd).2), ?_⟩
    intro c hc
    rcases (mem_insertCell _).mp hc with rfl | hc
    · exact hb
    · exact h2 c ((mem_removeCell m).mp hc).1

/-- A write lists no address but its own. -/
theorem Memory.write_cells (P : Nat → Prop) (a : Nat) (b : Byte) (h : ∀ c ∈ m, P c.1) (ha : P a) :
    ∀ c ∈ Memory.write font m a b, P c.1 := by
  intro c hc
  unfold Memory.write at hc
  split at hc
  · exact h c ((mem_removeCell m).mp hc).1
  · rcases (mem_insertCell _).mp hc with rfl | hc
    · exact ha
    · exact h c ((mem_removeCell m).mp hc).1

theorem Memory.writeBytes_wf (a : Nat) (bs : List Byte) (h : Memory.wf font m) :
    Memory.wf font (Memory.writeBytes font m a bs) := by
  induction bs generalizing m a with
  | nil => exact h
  | cons b rest ih => exact ih _ _ (Memory.write_wf font m a b h)

theorem Memory.writeBytes_cells (P : Nat → Prop) (a : Nat) (bs : List Byte) (h : ∀ c ∈ m, P c.1)
    (ha : ∀ p, a ≤ p → p < a + bs.length → P p) : ∀ c ∈ Memory.writeBytes font m a bs, P c.1 := by
  induction bs generalizing m a with
  | nil => exact h
  | cons b rest ih =>
    refine ih _ _ (Memory.write_cells font m P a b h (ha a (le_refl _) (by simp))) ?_
    intro p h1 h2
    exact ha p (by omega) (by simp; omega)

/-- The memory of the reset state has the canonical form. -/
theorem State.reset_mem_wf : Memory.wf State.reset.cfg.font State.reset.mem := by
  refine ⟨List.Pairwise.nil, ?_⟩
  intro c hc
  cases hc

/-! ### at the state -/

@[simp] theorem State.readMem_writeMem (s : State) (a p : Nat) (b : Byte) :
    (s.writeMem a b).readMem p = if p = a then b else s.readMem p :=
  Memory.read_write s.cfg.font s.mem a p b

@[simp] theorem State.readMem_writeBytes (s : State) (a p : Nat) (bs : List Byte) :
    (s.writeBytes a bs).readMem p = if a ≤ p ∧ p < a + bs.length then bs.getD (p - a) 0 else s.readMem p :=
  Memory.read_writeBytes s.cfg.font s.mem a p bs

end Sys2Proof.Machine
end

