-- ==== Sys2Proof/Laws/Frame.lean ====
section
/-! SUPPORT. Frames: what each state update leaves unchanged, and how frames compose. -/

namespace Sys2Proof.Machine

theorem Part.same_refl (s : State) (p : Part) : Part.same s s p := by cases p <;> simp [Part.same]

theorem Part.same_trans {s t u : State} {p : Part} (h1 : Part.same s t p) (h2 : Part.same t u p) : Part.same s u p := by
  cases p <;> simp_all [Part.same]

theorem OnlyWrites.refl (W : Part → Prop) (s : State) : OnlyWrites W s s := fun p _ => Part.same_refl s p

theorem OnlyWrites.trans {W : Part → Prop} {s t u : State} (h1 : OnlyWrites W s t) (h2 : OnlyWrites W t u) :
    OnlyWrites W s u := fun p hp => Part.same_trans (h1 p hp) (h2 p hp)

theorem OnlyWrites.mono {W W' : Part → Prop} {s t : State} (h : OnlyWrites W s t) (hW : ∀ p, W p → W' p) :
    OnlyWrites W' s t := fun p hp => h p (fun hw => hp (hW p hw))

variable (s : State)

theorem onlyWrites_writeV (r : Reg) (b : Byte) : OnlyWrites (fun p => p = .reg r) s (s.writeV r b) := by
  intro p hp
  cases p with
  | reg q =>
    have : q ≠ r := fun e => hp (by rw [e])
    simp [Part.same, this]
  | _ => simp [Part.same]

theorem onlyWrites_writeWithFlag (x : Reg) (b : Byte) (f : Bool) :
    OnlyWrites (fun p => p = .reg x ∨ p = .reg flagReg) s (s.writeWithFlag x b f) :=
  ((onlyWrites_writeV s x b).mono fun _ => .inl).trans ((onlyWrites_writeV _ flagReg _).mono fun _ => .inr)

/-- VF is written in legacy mode only. -/
theorem onlyWrites_writeLogic (x : Reg) (b : Byte) :
    OnlyWrites (fun p => p = .reg x ∨ (s.cfg.qLogicVf = true ∧ p = .reg flagReg)) s (s.writeLogic x b) := by
  unfold State.writeLogic
  split
  · next h =>
    exact ((onlyWrites_writeV s x b).mono fun _ => .inl).trans
      ((onlyWrites_writeV _ flagReg _).mono fun _ hp => .inr ⟨h, hp⟩)
  · exact (onlyWrites_writeV s x b).mono fun _ => .inl

theorem onlyWrites_writeI (w : Word) : OnlyWrites (fun p => p = .index) s (s.writeI w) := by
  intro p hp
  cases p <;> simp_all [Part.same]

theorem onlyWrites_writePC (w : Word) : OnlyWrites (fun _ => False) s (s.writePC w) := by
  intro p _
  cases p <;> simp [Part.same]

theorem onlyWrites_advancePC : OnlyWrites (fun _ => False) s s.advancePC := by
  intro p _
  cases p <;> simp [Part.same]

theorem onlyWrites_rewindPC : OnlyWrites (fun _ => False) s s.rewindPC := by
  intro p _
  cases p <;> simp [Part.same]

theorem onlyWrites_skipIf (c : Bool) : OnlyWrites (fun _ => False) s (s.skipIf c) := by
  intro p _
  cases p <;> simp [Part.same]

theorem onlyWrites_writeDT (b : Byte) : OnlyWrites (fun p => p = .delayTimer) s (s.writeDT b) := by
  intro p hp
  cases p <;> simp_all [Part.same]

theorem onlyWrites_writeST (b : Byte) : OnlyWrites (fun p => p = .soundTimer) s (s.writeST b) := by
  intro p hp
  cases p <;> simp_all [Part.same]

theorem onlyWrites_setLatch (kw : KeyWait) (k : Key) : OnlyWrites (fun p => p = .latch) s (s.setLatch kw k) := by
  intro p hp
  cases p <;> simp_all [Part.same]

theorem onlyWrites_nextDraw : OnlyWrites (fun p => p = .drawCounter) s s.nextDraw := by
  intro p hp
  cases p <;> simp_all [Part.same]

theorem onlyWrites_writeBytes (a : Nat) (bs : List Byte) :
    OnlyWrites (fun p => ∃ q, a ≤ q ∧ q < a + bs.length ∧ p = .cell q) s (s.writeBytes a bs) := by
  intro p hp
  cases p with
  | cell q =>
    have : ¬ (a ≤ q ∧ q < a + bs.length) := fun h => hp ⟨q, h.1, h.2, rfl⟩
    simp only [Part.same, State.readMem_writeBytes, this, if_false]
  | _ => simp [Part.same]

theorem onlyWrites_loadLowRegs (a : Nat) (x : Reg) :
    OnlyWrites (fun p => ∃ q, q ≤ x ∧ p = .reg q) s (s.loadLowRegs a x) := by
  intro p hp
  cases p with
  | reg q =>
    have : ¬ q ≤ x := fun h => hp ⟨q, h, rfl⟩
    simp only [Part.same, State.readV_loadLowRegs, this, if_false]
  | _ => simp [Part.same]

theorem onlyWrites_clearDisplay :
    OnlyWrites (fun p => (∃ x y, p = .pixel x y) ∨ p = .redraw) s s.clearDisplay := by
  intro p hp
  cases p with
  | pixel x y => exact absurd (.inl ⟨x, y, rfl⟩) hp
  | redraw => exact absurd (.inr rfl) hp
  | _ => simp [Part.same]

theorem onlyWrites_drawSprite (rows : List Byte) (x0 y0 cols : Nat) :
    OnlyWrites (fun p => p = .reg flagReg ∨ (∃ x y, p = .pixel x y) ∨ p = .redraw) s
      (s.drawSprite rows x0 y0 cols) := by
  intro p hp
  cases p with
  | pixel x y => exact absurd (.inr (.inl ⟨x, y, rfl⟩)) hp
  | redraw => exact absurd (.inr (.inr rfl)) hp
  | reg q =>
    have : q ≠ flagReg := fun e => hp (.inl (by rw [e]))
    simp [Part.same, this]
  | _ => simp [Part.same]

/-- R312: fault entry writes the halt record and nothing else. -/
theorem onlyWrites_takeFault (w : Word) (e : Raise) :
    OnlyWrites (fun p => p = .haltRecord) s (s.takeFault w e) := by
  intro p hp
  cases p <;> simp_all [Part.same]

/-- R330: TICK changes the timers and nothing else. -/
theorem onlyWrites_tick : OnlyWrites (fun p => p = .delayTimer ∨ p = .soundTimer) s s.tick := by
  intro p hp
  cases p <;> simp_all [Part.same]

/-- R39: pop changes SP and nothing else. -/
theorem onlyWrites_pop {t : State} {w : Word} (h : s.pop = .ok (w, t)) :
    OnlyWrites (fun p => p = .stackPointer) s t := by
  unfold State.pop at h
  split at h
  · cases h
  · cases h
    intro p hp
    cases p with
    | stackPointer => exact absurd rfl hp
    | reg r => rfl
    | cell a => rfl
    | stackEntry j => rfl
    | pixel x y => rfl
    | latch => exact ⟨rfl, rfl⟩
    | haltRecord => exact ⟨rfl, rfl, rfl, rfl, rfl⟩
    | index | redraw | delayTimer | soundTimer | key _ | romImage | config | drawCounter => rfl

/-- R39: push changes SP and the entry SP named, and nothing else. -/
theorem onlyWrites_push {t : State} {w : Word} (h : s.push w = .ok t) :
    OnlyWrites (fun p => p = .stackPointer ∨ p = .stackEntry s.sp.val) s t := by
  by_cases hs : s.sp.val < 12
  · obtain ⟨t', h1, _, h3, _⟩ := s.push_ok w hs
    rw [h1] at h; cases h
    have ht : t = { s with stack := s.stack.set s.sp.val w hs, sp := ⟨s.sp.val + 1, by omega⟩ } := by
      have h2 : s.push w = .ok { s with stack := s.stack.set s.sp.val w hs, sp := ⟨s.sp.val + 1, by omega⟩ } :=
        dif_pos hs
      rw [h1] at h2; exact Except.ok.inj h2
    intro p hp
    cases p with
    | stackPointer => exact absurd (.inl rfl) hp
    | stackEntry j =>
      have hj : j ≠ s.sp.val := fun e => hp (.inr (by rw [e]))
      simp only [Part.same, h3, hj, if_false]
    | reg r => rw [ht]; rfl
    | cell a => rw [ht]; rfl
    | pixel x y => rw [ht]; rfl
    | latch => rw [ht]; exact ⟨rfl, rfl⟩
    | haltRecord => rw [ht]; exact ⟨rfl, rfl, rfl, rfl, rfl⟩
    | index | redraw | delayTimer | soundTimer | key _ | romImage | config | drawCounter => rw [ht]; rfl
  · unfold State.push at h
    rw [dif_neg hs] at h
    cases h

end Sys2Proof.Machine
end

