-- ==== Sys2Proof/Laws/PerInstr.lean ====
section
/-! SUPPORT. A law of every instruction as syntax, one lemma per constructor: its word selects a row of the opcode map
(R108) whose record makes the instruction again, when the instruction is well formed. -/

/-- The word of `i` matches a row of the opcode map in every literal digit, and the fields of the word make `i` again. -/
def Sys2Proof.Laws.RowMatch.Statement (i : Sys2Proof.Instr) : Prop :=
  i.wellFormed = true → ∃ r ∈ Sys2Proof.opcodeRows,
    Sys2Proof.rowMatches (Sys2Proof.encode i) r = true ∧ r.build (Sys2Proof.decode (Sys2Proof.encode i)) = i

open Sys2Proof

theorem Sys2Proof.Laws.RowMatch.op00E0 :
    Sys2Proof.Laws.RowMatch.Statement (.op00E0) := by
  intro h
  refine ⟨⟨some 0x0, some 0x0, some 0xE, some 0x0, fun _ => .op00E0⟩, by simp [opcodeRows, opcodeRowsLow, opcodeRowsAlu, opcodeRowsHigh, opcodeRowsMisc], ?_⟩
  decide

theorem Sys2Proof.Laws.RowMatch.op00EE :
    Sys2Proof.Laws.RowMatch.Statement (.op00EE) := by
  intro h
  refine ⟨⟨some 0x0, some 0x0, some 0xE, some 0xE, fun _ => .op00EE⟩, by simp [opcodeRows, opcodeRowsLow, opcodeRowsAlu, opcodeRowsHigh, opcodeRowsMisc], ?_⟩
  decide

theorem Sys2Proof.Laws.RowMatch.op1NNN (nnn : BitVec 12) :
    Sys2Proof.Laws.RowMatch.Statement (.op1NNN nnn) := by
  intro h
  refine ⟨⟨some 0x1, none, none, none, fun r => .op1NNN r.nnn⟩, by simp [opcodeRows, opcodeRowsLow, opcodeRowsAlu, opcodeRowsHigh, opcodeRowsMisc], ?_⟩
  simp [encode, rowMatches, digitMatches, decode]

theorem Sys2Proof.Laws.RowMatch.op2NNN (nnn : BitVec 12) :
    Sys2Proof.Laws.RowMatch.Statement (.op2NNN nnn) := by
  intro h
  refine ⟨⟨some 0x2, none, none, none, fun r => .op2NNN r.nnn⟩, by simp [opcodeRows, opcodeRowsLow, opcodeRowsAlu, opcodeRowsHigh, opcodeRowsMisc], ?_⟩
  simp [encode, rowMatches, digitMatches, decode]

theorem Sys2Proof.Laws.RowMatch.op3XNN (x : Reg) (nn : Byte) :
    Sys2Proof.Laws.RowMatch.Statement (.op3XNN x nn) := by
  intro h
  refine ⟨⟨some 0x3, none, none, none, fun r => .op3XNN r.x r.nn⟩, by simp [opcodeRows, opcodeRowsLow, opcodeRowsAlu, opcodeRowsHigh, opcodeRowsMisc], ?_⟩
  simp [encode, rowMatches, digitMatches, decode]

theorem Sys2Proof.Laws.RowMatch.op4XNN (x : Reg) (nn : Byte) :
    Sys2Proof.Laws.RowMatch.Statement (.op4XNN x nn) := by
  intro h
  refine ⟨⟨some 0x4, none, none, none, fun r => .op4XNN r.x r.nn⟩, by simp [opcodeRows, opcodeRowsLow, opcodeRowsAlu, opcodeRowsHigh, opcodeRowsMisc], ?_⟩
  simp [encode, rowMatches, digitMatches, decode]

theorem Sys2Proof.Laws.RowMatch.op5XY0 (x y : Reg) :
    Sys2Proof.Laws.RowMatch.Statement (.op5XY0 x y) := by
  intro h
  refine ⟨⟨some 0x5, none, none, some 0x0, fun r => .op5XY0 r.x r.y⟩, by simp [opcodeRows, opcodeRowsLow, opcodeRowsAlu, opcodeRowsHigh, opcodeRowsMisc], ?_⟩
  simp [encode, rowMatches, digitMatches, decode]

theorem Sys2Proof.Laws.RowMatch.op6XNN (x : Reg) (nn : Byte) :
    Sys2Proof.Laws.RowMatch.Statement (.op6XNN x nn) := by
  intro h
  refine ⟨⟨some 0x6, none, none, none, fun r => .op6XNN r.x r.nn⟩, by simp [opcodeRows, opcodeRowsLow, opcodeRowsAlu, opcodeRowsHigh, opcodeRowsMisc], ?_⟩
  simp [encode, rowMatches, digitMatches, decode]

theorem Sys2Proof.Laws.RowMatch.op7XNN (x : Reg) (nn : Byte) :
    Sys2Proof.Laws.RowMatch.Statement (.op7XNN x nn) := by
  intro h
  refine ⟨⟨some 0x7, none, none, none, fun r => .op7XNN r.x r.nn⟩, by simp [opcodeRows, opcodeRowsLow, opcodeRowsAlu, opcodeRowsHigh, opcodeRowsMisc], ?_⟩
  simp [encode, rowMatches, digitMatches, decode]

theorem Sys2Proof.Laws.RowMatch.op8XY0 (x y : Reg) :
    Sys2Proof.Laws.RowMatch.Statement (.op8XY0 x y) := by
  intro h
  refine ⟨⟨some 0x8, none, none, some 0x0, fun r => .op8XY0 r.x r.y⟩, by simp [opcodeRows, opcodeRowsLow, opcodeRowsAlu, opcodeRowsHigh, opcodeRowsMisc], ?_⟩
  simp [encode, rowMatches, digitMatches, decode]

theorem Sys2Proof.Laws.RowMatch.op8XY1 (x y : Reg) :
    Sys2Proof.Laws.RowMatch.Statement (.op8XY1 x y) := by
  intro h
  refine ⟨⟨some 0x8, none, none, some 0x1, fun r => .op8XY1 r.x r.y⟩, by simp [opcodeRows, opcodeRowsLow, opcodeRowsAlu, opcodeRowsHigh, opcodeRowsMisc], ?_⟩
  simp [encode, rowMatches, digitMatches, decode]

theorem Sys2Proof.Laws.RowMatch.op8XY2 (x y : Reg) :
    Sys2Proof.Laws.RowMatch.Statement (.op8XY2 x y) := by
  intro h
  refine ⟨⟨some 0x8, none, none, some 0x2, fun r => .op8XY2 r.x r.y⟩, by simp [opcodeRows, opcodeRowsLow, opcodeRowsAlu, opcodeRowsHigh, opcodeRowsMisc], ?_⟩
  simp [encode, rowMatches, digitMatches, decode]

theorem Sys2Proof.Laws.RowMatch.op8XY3 (x y : Reg) :
    Sys2Proof.Laws.RowMatch.Statement (.op8XY3 x y) := by
  intro h
  refine ⟨⟨some 0x8, none, none, some 0x3, fun r => .op8XY3 r.x r.y⟩, by simp [opcodeRows, opcodeRowsLow, opcodeRowsAlu, opcodeRowsHigh, opcodeRowsMisc], ?_⟩
  simp [encode, rowMatches, digitMatches, decode]

theorem Sys2Proof.Laws.RowMatch.op8XY4 (x y : Reg) :
    Sys2Proof.Laws.RowMatch.Statement (.op8XY4 x y) := by
  intro h
  refine ⟨⟨some 0x8, none, none, some 0x4, fun r => .op8XY4 r.x r.y⟩, by simp [opcodeRows, opcodeRowsLow, opcodeRowsAlu, opcodeRowsHigh, opcodeRowsMisc], ?_⟩
  simp [encode, rowMatches, digitMatches, decode]

theorem Sys2Proof.Laws.RowMatch.op8XY5 (x y : Reg) :
    Sys2Proof.Laws.RowMatch.Statement (.op8XY5 x y) := by
  intro h
  refine ⟨⟨some 0x8, none, none, some 0x5, fun r => .op8XY5 r.x r.y⟩, by simp [opcodeRows, opcodeRowsLow, opcodeRowsAlu, opcodeRowsHigh, opcodeRowsMisc], ?_⟩
  simp [encode, rowMatches, digitMatches, decode]

theorem Sys2Proof.Laws.RowMatch.op8XY6 (x y : Reg) :
    Sys2Proof.Laws.RowMatch.Statement (.op8XY6 x y) := by
  intro h
  refine ⟨⟨some 0x8, none, none, some 0x6, fun r => .op8XY6 r.x r.y⟩, by simp [opcodeRows, opcodeRowsLow, opcodeRowsAlu, opcodeRowsHigh, opcodeRowsMisc], ?_⟩
  simp [encode, rowMatches, digitMatches, decode]

theorem Sys2Proof.Laws.RowMatch.op8XY7 (x y : Reg) :
    Sys2Proof.Laws.RowMatch.Statement (.op8XY7 x y) := by
  intro h
  refine ⟨⟨some 0x8, none, none, some 0x7, fun r => .op8XY7 r.x r.y⟩, by simp [opcodeRows, opcodeRowsLow, opcodeRowsAlu, opcodeRowsHigh, opcodeRowsMisc], ?_⟩
  simp [encode, rowMatches, digitMatches, decode]

theorem Sys2Proof.Laws.RowMatch.op8XYE (x y : Reg) :
    Sys2Proof.Laws.RowMatch.Statement (.op8XYE x y) := by
  intro h
  refine ⟨⟨some 0x8, none, none, some 0xE, fun r => .op8XYE r.x r.y⟩, by simp [opcodeRows, opcodeRowsLow, opcodeRowsAlu, opcodeRowsHigh, opcodeRowsMisc], ?_⟩
  simp [encode, rowMatches, digitMatches, decode]

theorem Sys2Proof.Laws.RowMatch.op9XY0 (x y : Reg) :
    Sys2Proof.Laws.RowMatch.Statement (.op9XY0 x y) := by
  intro h
  refine ⟨⟨some 0x9, none, none, some 0x0, fun r => .op9XY0 r.x r.y⟩, by simp [opcodeRows, opcodeRowsLow, opcodeRowsAlu, opcodeRowsHigh, opcodeRowsMisc], ?_⟩
  simp [encode, rowMatches, digitMatches, decode]

theorem Sys2Proof.Laws.RowMatch.opANNN (nnn : BitVec 12) :
    Sys2Proof.Laws.RowMatch.Statement (.opANNN nnn) := by
  intro h
  refine ⟨⟨some 0xA, none, none, none, fun r => .opANNN r.nnn⟩, by simp [opcodeRows, opcodeRowsLow, opcodeRowsAlu, opcodeRowsHigh, opcodeRowsMisc], ?_⟩
  simp [encode, rowMatches, digitMatches, decode]

theorem Sys2Proof.Laws.RowMatch.opBNNN (nnn : BitVec 12) :
    Sys2Proof.Laws.RowMatch.Statement (.opBNNN nnn) := by
  intro h
  refine ⟨⟨some 0xB, none, none, none, fun r => .opBNNN r.nnn⟩, by simp [opcodeRows, opcodeRowsLow, opcodeRowsAlu, opcodeRowsHigh, opcodeRowsMisc], ?_⟩
  simp [encode, rowMatches, digitMatches, decode]

theorem Sys2Proof.Laws.RowMatch.opCXNN (x : Reg) (nn : Byte) :
    Sys2Proof.Laws.RowMatch.Statement (.opCXNN x nn) := by
  intro h
  refine ⟨⟨some 0xC, none, none, none, fun r => .opCXNN r.x r.nn⟩, by simp [opcodeRows, opcodeRowsLow, opcodeRowsAlu, opcodeRowsHigh, opcodeRowsMisc], ?_⟩
  simp [encode, rowMatches, digitMatches, decode]

theorem Sys2Proof.Laws.RowMatch.opDXYN (x y : Reg) (n : Nat) :
    Sys2Proof.Laws.RowMatch.Statement (.opDXYN x y n) := by
  intro h
  refine ⟨⟨some 0xD, none, none, none, fun r => .opDXYN r.x r.y r.n.toNat⟩, by simp [opcodeRows, opcodeRowsLow, opcodeRowsAlu, opcodeRowsHigh, opcodeRowsMisc], ?_⟩
  have hn : n < 16 := of_decide_eq_true h
  simp [encode, rowMatches, digitMatches, decode, Nat.mod_eq_of_lt hn]

theorem Sys2Proof.Laws.RowMatch.opEX9E (x : Reg) :
    Sys2Proof.Laws.RowMatch.Statement (.opEX9E x) := by
  intro h
  refine ⟨⟨some 0xE, none, some 0x9, some 0xE, fun r => .opEX9E r.x⟩, by simp [opcodeRows, opcodeRowsLow, opcodeRowsAlu, opcodeRowsHigh, opcodeRowsMisc], ?_⟩
  simp [encode, rowMatches, digitMatches, decode]

theorem Sys2Proof.Laws.RowMatch.opEXA1 (x : Reg) :
    Sys2Proof.Laws.RowMatch.Statement (.opEXA1 x) := by
  intro h
  refine ⟨⟨some 0xE, none, some 0xA, some 0x1, fun r => .opEXA1 r.x⟩, by simp [opcodeRows, opcodeRowsLow, opcodeRowsAlu, opcodeRowsHigh, opcodeRowsMisc], ?_⟩
  simp [encode, rowMatches, digitMatches, decode]

theorem Sys2Proof.Laws.RowMatch.opFX07 (x : Reg) :
    Sys2Proof.Laws.RowMatch.Statement (.opFX07 x) := by
  intro h
  refine ⟨⟨some 0xF, none, some 0x0, some 0x7, fun r => .opFX07 r.x⟩, by simp [opcodeRows, opcodeRowsLow, opcodeRowsAlu, opcodeRowsHigh, opcodeRowsMisc], ?_⟩
  simp [encode, rowMatches, digitMatches, decode]

theorem Sys2Proof.Laws.RowMatch.opFX0A (x : Reg) :
    Sys2Proof.Laws.RowMatch.Statement (.opFX0A x) := by
  intro h
  refine ⟨⟨some 0xF, none, some 0x0, some 0xA, fun r => .opFX0A r.x⟩, by simp [opcodeRows, opcodeRowsLow, opcodeRowsAlu, opcodeRowsHigh, opcodeRowsMisc], ?_⟩
  simp [encode, rowMatches, digitMatches, decode]

theorem Sys2Proof.Laws.RowMatch.opFX15 (x : Reg) :
    Sys2Proof.Laws.RowMatch.Statement (.opFX15 x) := by
  intro h
  refine ⟨⟨some 0xF, none, some 0x1, some 0x5, fun r => .opFX15 r.x⟩, by simp [opcodeRows, opcodeRowsLow, opcodeRowsAlu, opcodeRowsHigh, opcodeRowsMisc], ?_⟩
  simp [encode, rowMatches, digitMatches, decode]

theorem Sys2Proof.Laws.RowMatch.opFX18 (x : Reg) :
    Sys2Proof.Laws.RowMatch.Statement (.opFX18 x) := by
  intro h
  refine ⟨⟨some 0xF, none, some 0x1, some 0x8, fun r => .opFX18 r.x⟩, by simp [opcodeRows, opcodeRowsLow, opcodeRowsAlu, opcodeRowsHigh, opcodeRowsMisc], ?_⟩
  simp [encode, rowMatches, digitMatches, decode]

theorem Sys2Proof.Laws.RowMatch.opFX1E (x : Reg) :
    Sys2Proof.Laws.RowMatch.Statement (.opFX1E x) := by
  intro h
  refine ⟨⟨some 0xF, none, some 0x1, some 0xE, fun r => .opFX1E r.x⟩, by simp [opcodeRows, opcodeRowsLow, opcodeRowsAlu, opcodeRowsHigh, opcodeRowsMisc], ?_⟩
  simp [encode, rowMatches, digitMatches, decode]

theorem Sys2Proof.Laws.RowMatch.opFX29 (x : Reg) :
    Sys2Proof.Laws.RowMatch.Statement (.opFX29 x) := by
  intro h
  refine ⟨⟨some 0xF, none, some 0x2, some 0x9, fun r => .opFX29 r.x⟩, by simp [opcodeRows, opcodeRowsLow, opcodeRowsAlu, opcodeRowsHigh, opcodeRowsMisc], ?_⟩
  simp [encode, rowMatches, digitMatches, decode]

theorem Sys2Proof.Laws.RowMatch.opFX33 (x : Reg) :
    Sys2Proof.Laws.RowMatch.Statement (.opFX33 x) := by
  intro h
  refine ⟨⟨some 0xF, none, some 0x3, some 0x3, fun r => .opFX33 r.x⟩, by simp [opcodeRows, opcodeRowsLow, opcodeRowsAlu, opcodeRowsHigh, opcodeRowsMisc], ?_⟩
  simp [encode, rowMatches, digitMatches, decode]

theorem Sys2Proof.Laws.RowMatch.opFX55 (x : Reg) :
    Sys2Proof.Laws.RowMatch.Statement (.opFX55 x) := by
  intro h
  refine ⟨⟨some 0xF, none, some 0x5, some 0x5, fun r => .opFX55 r.x⟩, by simp [opcodeRows, opcodeRowsLow, opcodeRowsAlu, opcodeRowsHigh, opcodeRowsMisc], ?_⟩
  simp [encode, rowMatches, digitMatches, decode]

theorem Sys2Proof.Laws.RowMatch.opFX65 (x : Reg) :
    Sys2Proof.Laws.RowMatch.Statement (.opFX65 x) := by
  intro h
  refine ⟨⟨some 0xF, none, some 0x6, some 0x5, fun r => .opFX65 r.x⟩, by simp [opcodeRows, opcodeRowsLow, opcodeRowsAlu, opcodeRowsHigh, opcodeRowsMisc], ?_⟩
  simp [encode, rowMatches, digitMatches, decode]
end

