-- ==== Sys2Proof/Laws/Raster.lean ====
section
/-! SUPPORT. What drawing does to each pixel of a W × H bitmap, to the collision and to the change, said once. -/

namespace Sys2Proof.Machine

/-- The bitmap is a grid of `h` rows of `w` pixels (R40). -/
def IsGrid (d : Bitmap) (w h : Nat) : Prop := d.length = h ∧ ∀ row ∈ d, row.length = w

theorem blankBitmap_isGrid (w h : Nat) : IsGrid (blankBitmap w h) w h := by
  refine ⟨by simp [blankBitmap], ?_⟩
  intro row hrow
  rw [List.eq_of_mem_replicate hrow]
  simp

@[simp] theorem readPixel_blankBitmap (w h x y : Nat) : readPixel (blankBitmap w h) x y = false := by
  simp only [readPixel, blankBitmap, List.getD_eq_getElem?_getD, List.getElem?_replicate]
  split
  · simp only [Option.getD_some, List.getElem?_replicate]
    split <;> rfl
  · simp

theorem flipPixel_isGrid {d : Bitmap} {w h : Nat} (x y : Nat) (hd : IsGrid d w h) : IsGrid (flipPixel d x y) w h := by
  refine ⟨by simp [flipPixel, hd.1], ?_⟩
  intro row hrow
  obtain ⟨k, hk, rfl⟩ := List.mem_iff_getElem.mp hrow
  simp only [flipPixel, List.getElem_modify, List.length_modify] at hk ⊢
  split <;> simp [hd.2 _ (List.getElem_mem _)]

/-- R40: flipping a pixel of the grid changes that pixel and no other. -/
theorem readPixel_flipPixel {d : Bitmap} {w h x y : Nat} (hd : IsGrid d w h) (hx : x < w) (hy : y < h) (px py : Nat) :
    readPixel (flipPixel d x y) px py = (readPixel d px py ^^ (decide (px = x) && decide (py = y))) := by
  have hylen : y < d.length := by rw [hd.1]; exact hy
  simp only [readPixel, flipPixel, List.getD_eq_getElem?_getD, List.getElem?_modify]
  by_cases h1 : py = y
  · subst h1
    have hrow : d[py]? = some d[py] := by simp [hylen]
    have hlen : x < (d[py]).length := by rw [hd.2 _ (List.getElem_mem _)]; exact hx
    simp only [hrow, if_true, Option.getD_some]
    by_cases h2 : px = x
    · subst h2
      have : (d[py])[px]? = some (d[py])[px] := by simp [hlen]
      simp [this]
    · have : ¬ x = px := fun e => h2 e.symm
      simp [h2, this]
  · have : ¬ y = py := fun e => h1 e.symm
    simp [h1, this]

/-- Whether column `px` of row `py` is under a set bit of a row drawn at (x0, y) with `cols` columns (R261). -/
def rowHits (b : Byte) (x0 y cols px py : Nat) : Bool :=
  decide (py = y) && decide (x0 ≤ px) && decide (px < x0 + cols) && spriteBit b (px - x0)

/-- Whether pixel (px, py) is under a set bit of the sprite whose unclipped rows are `rows`, drawn at (x0, y) (R261). -/
def spriteHits (rows : List Byte) (x0 y cols px py : Nat) : Bool :=
  decide (y ≤ py) && decide (py < y + rows.length) && decide (x0 ≤ px) && decide (px < x0 + cols) &&
    spriteBit (rows.getD (py - y) 0) (px - x0)

theorem drawRow_isGrid {g : Drawing} {w h : Nat} (b : Byte) (x0 y cols : Nat) (hg : IsGrid g.bitmap w h) :
    IsGrid (drawRow g b x0 y cols).bitmap w h := by
  induction cols with
  | zero => exact hg
  | succ c ih =>
    unfold drawRow
    split
    · exact flipPixel_isGrid _ _ ih
    · exact ih

theorem drawRows_isGrid {g : Drawing} {w h : Nat} (rows : List Byte) (x0 y cols : Nat) (hg : IsGrid g.bitmap w h) :
    IsGrid (drawRows g rows x0 y cols).bitmap w h := by
  induction rows generalizing g y with
  | nil => exact hg
  | cons b rest ih => exact ih _ (drawRow_isGrid b x0 y cols hg)

/-- R261: a drawn row XORs its bits into the bitmap. -/
theorem readPixel_drawRow {g : Drawing} {w h x0 y cols : Nat} (b : Byte) (hg : IsGrid g.bitmap w h) (hx : x0 + cols ≤ w)
    (hy : y < h) (px py : Nat) :
    readPixel (drawRow g b x0 y cols).bitmap px py = (readPixel g.bitmap px py ^^ rowHits b x0 y cols px py) := by
  induction cols with
  | zero =>
    have : rowHits b x0 y 0 px py = false := by
      simp only [rowHits, Bool.and_eq_false_iff, decide_eq_false_iff_not]; omega
    simp [drawRow, this]
  | succ c ih =>
    have hc := ih (by omega)
    have hstep : rowHits b x0 y (c + 1) px py =
        (rowHits b x0 y c px py ^^ (spriteBit b c && decide (px = x0 + c) && decide (py = y))) := by
      unfold rowHits
      by_cases h1 : py = y <;> by_cases h2 : x0 ≤ px <;> by_cases h3 : px = x0 + c
      all_goals simp only [h1, decide_true, decide_false, Bool.true_and, Bool.and_true, Bool.false_and, Bool.and_false, Bool.xor_false]
      · subst h3; simp
      · have h4 : (px < x0 + (c + 1)) ↔ (px < x0 + c) := by omega
        simp [h2, h3, h4]
      · omega
      · simp [h2, h3]
    unfold drawRow
    split
    · next hb =>
      simp only [plot]
      rw [readPixel_flipPixel (drawRow_isGrid b x0 y c hg) (by omega) hy, hc, hstep, hb]
      simp
    · next hb =>
      rw [hc, hstep]
      simp [hb]

/-- R261: drawing the unclipped rows XORs the sprite into the bitmap. -/
theorem readPixel_drawRows {g : Drawing} {w h x0 y cols : Nat} (rows : List Byte) (hg : IsGrid g.bitmap w h)
    (hx : x0 + cols ≤ w) (hy : y + rows.length ≤ h) (px py : Nat) :
    readPixel (drawRows g rows x0 y cols).bitmap px py = (readPixel g.bitmap px py ^^ spriteHits rows x0 y cols px py) := by
  induction rows generalizing g y with
  | nil =>
    have : spriteHits [] x0 y cols px py = false := by
      simp only [spriteHits, Bool.and_eq_false_iff, decide_eq_false_iff_not, List.length_nil]; omega
    simp [drawRows, this]
  | cons b rest ih =>
    simp only [List.length_cons] at hy
    rw [drawRows, ih (drawRow_isGrid b x0 y cols hg) (by omega), readPixel_drawRow b hg hx (by omega), Bool.xor_assoc]
    congr 1
    unfold rowHits spriteHits
    simp only [List.length_cons]
    by_cases h1 : py = y
    · subst h1
      have : ¬ py + 1 ≤ py := by omega
      simp [this]
    · by_cases h2 : y + 1 ≤ py
      · have h3 : py - y = (py - (y + 1)) + 1 := by omega
        have h4 : y ≤ py := by omega
        have h5 : (py < y + 1 + rest.length) ↔ (py < y + (rest.length + 1)) := by omega
        simp [h1, h2, h3, h4, h5]
      · have h4 : ¬ y ≤ py := by omega
        simp [h1, h2, h4]

/-- R261: a row collides exactly when one of its set bits falls on a set pixel. -/
theorem drawRow_collision {g : Drawing} {w h x0 y cols : Nat} (b : Byte) (hg : IsGrid g.bitmap w h) (hx : x0 + cols ≤ w)
    (hy : y < h) :
    (drawRow g b x0 y cols).collision = true ↔
      g.collision = true ∨ ∃ px, rowHits b x0 y cols px y = true ∧ readPixel g.bitmap px y = true := by
  induction cols with
  | zero =>
    have : ∀ px, rowHits b x0 y 0 px y = false := by
      intro px; simp only [rowHits, Bool.and_eq_false_iff, decide_eq_false_iff_not]; omega
    simp [drawRow, this]
  | succ c ih =>
    have hsplit : ∀ px, rowHits b x0 y (c + 1) px y = true ↔
        rowHits b x0 y c px y = true ∨ (spriteBit b c = true ∧ px = x0 + c) := by
      intro px
      simp only [rowHits, decide_true, Bool.true_and, Bool.and_eq_true, decide_eq_true_eq]
      constructor
      · rintro ⟨⟨h1, h2⟩, h3⟩
        by_cases h : px = x0 + c
        · right; subst h; simpa using h3
        · left; exact ⟨⟨h1, by omega⟩, h3⟩
      · rintro (⟨⟨h1, h2⟩, h3⟩ | ⟨h1, rfl⟩)
        · exact ⟨⟨h1, by omega⟩, h3⟩
        · exact ⟨⟨by omega, by omega⟩, by simpa using h1⟩
    have hpix := readPixel_drawRow b hg (show x0 + c ≤ w by omega) hy (x0 + c) y
    have hno : rowHits b x0 y c (x0 + c) y = false := by
      simp [rowHits]
    unfold drawRow
    split
    · next hb =>
      simp only [plot, Bool.or_eq_true, ih (by omega), hpix, hno, Bool.xor_false, hsplit, hb, true_and]
      constructor
      · rintro ((h | ⟨px, h1, h2⟩) | h)
        · exact .inl h
        · exact .inr ⟨px, .inl h1, h2⟩
        · exact .inr ⟨x0 + c, .inr rfl, h⟩
      · rintro (h | ⟨px, h1 | rfl, h2⟩)
        · exact .inl (.inl h)
        · exact .inl (.inr ⟨px, h1, h2⟩)
        · exact .inr h2
    · next hb =>
      simp only [ih (by omega), hsplit, hb, false_and, or_false, Bool.false_eq_true]

/-- R261: a sprite collides exactly when one of its set bits in the unclipped area falls on a set pixel. -/
theorem drawRows_collision {g : Drawing} {w h x0 y cols : Nat} (rows : List Byte) (hg : IsGrid g.bitmap w h)
    (hx : x0 + cols ≤ w) (hy : y + rows.length ≤ h) :
    (drawRows g rows x0 y cols).collision = true ↔
      g.collision = true ∨ ∃ px py, spriteHits rows x0 y cols px py = true ∧ readPixel g.bitmap px py = true := by
  induction rows generalizing g y with
  | nil =>
    have : ∀ px py, spriteHits [] x0 y cols px py = false := by
      intro px py
      simp only [spriteHits, Bool.and_eq_false_iff, decide_eq_false_iff_not, List.length_nil]; omega
    simp [drawRows, this]
  | cons b rest ih =>
    simp only [List.length_cons] at hy
    have hsplit : ∀ px py, spriteHits (b :: rest) x0 y cols px py = true ↔
        (py = y ∧ rowHits b x0 y cols px y = true) ∨ spriteHits rest x0 (y + 1) cols px py = true := by
      intro px py
      simp only [spriteHits, rowHits, decide_true, Bool.true_and, Bool.and_eq_true, decide_eq_true_eq, List.length_cons]
      constructor
      · rintro ⟨⟨⟨⟨h1, h2⟩, h3⟩, h4⟩, h5⟩
        by_cases h : py = y
        · left; subst h; exact ⟨rfl, ⟨h3, h4⟩, by simpa using h5⟩
        · right
          have h6 : py - y = (py - (y + 1)) + 1 := by omega
          rw [h6, List.getD_cons_succ] at h5
          exact ⟨⟨⟨⟨by omega, by omega⟩, h3⟩, h4⟩, h5⟩
      · rintro (⟨rfl, ⟨h3, h4⟩, h5⟩ | ⟨⟨⟨⟨h1, h2⟩, h3⟩, h4⟩, h5⟩)
        · exact ⟨⟨⟨⟨le_refl _, by omega⟩, h3⟩, h4⟩, by simpa using h5⟩
        · have h6 : py - y = (py - (y + 1)) + 1 := by omega
          exact ⟨⟨⟨⟨by omega, by omega⟩, h3⟩, h4⟩, by rw [h6, List.getD_cons_succ]; exact h5⟩
    rw [drawRows, ih (drawRow_isGrid b x0 y cols hg) (by omega), drawRow_collision b hg hx (by omega)]
    have hbelow : ∀ px py, spriteHits rest x0 (y + 1) cols px py = true →
        readPixel (drawRow g b x0 y cols).bitmap px py = readPixel g.bitmap px py := by
      intro px py h1
      have hpy : py ≠ y := by
        simp only [spriteHits, Bool.and_eq_true, decide_eq_true_eq] at h1; omega
      rw [readPixel_drawRow b hg hx (by omega)]
      simp [rowHits, hpy]
    constructor
    · rintro ((h | ⟨px, h1, h2⟩) | ⟨px, py, h1, h2⟩)
      · exact .inl h
      · exact .inr ⟨px, y, (hsplit px y).mpr (.inl ⟨rfl, h1⟩), h2⟩
      · exact .inr ⟨px, py, (hsplit px py).mpr (.inr h1), by rw [← hbelow px py h1]; exact h2⟩
    · rintro (h | ⟨px, py, h1, h2⟩)
      · exact .inl (.inl h)
      · rcases (hsplit px py).mp h1 with ⟨rfl, h3⟩ | h3
        · exact .inl (.inr ⟨px, h3, h2⟩)
        · exact .inr ⟨px, py, h3, by rw [hbelow px py h3]; exact h2⟩

/-- R261: a row marks a change exactly when one of its drawn bits is set. -/
theorem drawRow_changed (g : Drawing) (b : Byte) (x0 y cols : Nat) :
    (drawRow g b x0 y cols).changed = true ↔ g.changed = true ∨ ∃ c, c < cols ∧ spriteBit b c = true := by
  induction cols with
  | zero => simp [drawRow]
  | succ c ih =>
    unfold drawRow
    split
    · next hb => exact iff_of_true rfl (.inr ⟨c, by omega, hb⟩)
    · next hb =>
      rw [ih]
      constructor
      · rintro (h | ⟨k, h1, h2⟩)
        · exact .inl h
        · exact .inr ⟨k, by omega, h2⟩
      · rintro (h | ⟨k, h1, h2⟩)
        · exact .inl h
        · refine .inr ⟨k, ?_, h2⟩
          by_contra hk
          have : k = c := by omega
          subst this
          exact hb h2

/-- R261: the redraw is marked exactly when some set sprite bit lies in the unclipped area. -/
theorem drawRows_changed (g : Drawing) (rows : List Byte) (x0 y cols : Nat) :
    (drawRows g rows x0 y cols).changed = true ↔
      g.changed = true ∨ ∃ px py, spriteHits rows x0 y cols px py = true := by
  induction rows generalizing g y with
  | nil =>
    have : ∀ px py, spriteHits [] x0 y cols px py = false := by
      intro px py
      simp only [spriteHits, Bool.and_eq_false_iff, decide_eq_false_iff_not, List.length_nil]; omega
    simp [drawRows, this]
  | cons b rest ih =>
    rw [drawRows, ih, drawRow_changed]
    simp only [spriteHits, Bool.and_eq_true, decide_eq_true_eq, List.length_cons]
    constructor
    · rintro ((h | ⟨c, h1, h2⟩) | ⟨px, py, ⟨⟨⟨h1, h2⟩, h3⟩, h4⟩, h5⟩)
      · exact .inl h
      · exact .inr ⟨x0 + c, y, ⟨⟨⟨le_refl _, by omega⟩, by omega⟩, by omega⟩, by simpa using h2⟩
      · have h6 : py - y = (py - (y + 1)) + 1 := by omega
        exact .inr ⟨px, py, ⟨⟨⟨by omega, by omega⟩, h3⟩, h4⟩, by rw [h6, List.getD_cons_succ]; exact h5⟩
    · rintro (h | ⟨px, py, ⟨⟨⟨h1, h2⟩, h3⟩, h4⟩, h5⟩)
      · exact .inl (.inl h)
      · by_cases h : py = y
        · subst h
          exact .inl (.inr ⟨px - x0, by omega, by simpa using h5⟩)
        · have h6 : py - y = (py - (y + 1)) + 1 := by omega
          rw [h6, List.getD_cons_succ] at h5
          exact .inr ⟨px, py, ⟨⟨⟨by omega, by omega⟩, h3⟩, h4⟩, h5⟩

end Sys2Proof.Machine
end

