-- ==== Sys2Proof/Tests/Slice0.lean ====
section
/-! SUPPORT. Tests: ill-formed terms refused, words decoded, the spec's own vectors (spec/95_test_vectors.md, named by their
ids), one step each, and a witness for every obligation that has hypotheses. -/

namespace Sys2Proof.Tests

open Sys2Proof Sys2Proof.Machine

/-! ### helpers -/

/-- The vectors' configuration L (spec 95, "Conventions"). -/
def cfgL : Config := ⟨64, 32, true, true, true, conventionalFont⟩

/-- The vectors' configuration M. -/
def cfgM : Config := ⟨64, 32, false, false, false, conventionalFont⟩

/-- The display of V-DSP-13, 8 × 4. -/
def cfgS : Config := ⟨8, 4, true, true, true, conventionalFont⟩

/-- The LOAD baseline with the word `w` at 0x200 and some registers set. -/
def st (c : Config) (w : Word) (regs : List (Reg × Byte)) : State :=
  regs.foldl (fun s r => s.writeV r.1 r.2) (baseline c (bytesOfWord w) 0)

/-- One STEP answers a next state with a property. -/
def after (s : State) (p : State → Bool) : Bool :=
  match step s with
  | .next t => p t
  | .fault _ => false
  | .refused _ => false

/-- The instruction answers a next state with a property. -/
def afterExec (i : Instr) (s : State) (p : State → Bool) : Bool :=
  match exec i s with
  | .next t => p t
  | .fault _ => false
  | .refused _ => false

/-- A STEP that ends with a property answers a next state. -/
theorem next_of_after {s : State} {p : State → Bool} (h : after s p = true) : ∃ t, step s = .next t := by
  unfold after at h
  split at h
  · next t ht => exact ⟨t, ht⟩
  · cases h
  · cases h

/-- HALT(code, p, w, info) of spec 95. -/
def isHalt (p : Word) (code : BitVec 4) (w : Word) (info : Nat) (t : State) : Bool :=
  t.run == .halted && faultCode t.faultCause == code && t.faultPc == p && t.faultWord == w && t.faultInfo == info &&
  t.pc == p

/-! ### well-formedness refuses -/

/-- R105: N is at most 15. -/
theorem test_wf_refuses_sixteen_rows : (Instr.opDXYN 1 2 16).wellFormed = false := by decide

theorem test_wf_accepts_fifteen_rows : (Instr.opDXYN 1 2 15).wellFormed = true := by decide

/-- R103, first equation: NNN disagrees with the raw word. -/
theorem test_wf_refuses_wrong_nnn : (InstrRecord.mk 0x1234 0x1 2 3 0x4 0x34 0x235).wellFormed = false := by decide

/-- R103, second equation: NN disagrees with the raw word. -/
theorem test_wf_refuses_wrong_nn : (InstrRecord.mk 0x1234 0x1 2 3 0x4 0x35 0x234).wellFormed = false := by decide

/-- R103, third equation: Y disagrees with the raw word. -/
theorem test_wf_refuses_wrong_y : (InstrRecord.mk 0x1234 0x1 2 4 0x4 0x34 0x234).wellFormed = false := by decide

/-! ### decoding: words written out from the patterns of R107 and R108 -/

/-- T1: the fields of 0x1234. -/
theorem test_decode_fields : decode 0x1234 = ⟨0x1234, 0x1, 2, 3, 0x4, 0x34, 0x234⟩ := by decide

theorem test_decode_control :
    decodeTableWord 16 0x00E0 = some .op00E0 ∧ decodeTableWord 16 0x00EE = some .op00EE ∧
    decodeTableWord 16 0x1ABC = some (.op1NNN 0xABC) ∧ decodeTableWord 16 0x2DEF = some (.op2NNN 0xDEF) ∧
    decodeTableWord 16 0x3A5C = some (.op3XNN 10 0x5C) ∧ decodeTableWord 16 0x4B6D = some (.op4XNN 11 0x6D) ∧
    decodeTableWord 16 0x5AB0 = some (.op5XY0 10 11) ∧ decodeTableWord 16 0x9CD0 = some (.op9XY0 12 13) ∧
    decodeTableWord 16 0xB321 = some (.opBNNN 0x321) := by decide

theorem test_decode_alu :
    decodeTableWord 16 0x6F01 = some (.op6XNN 15 0x01) ∧ decodeTableWord 16 0x7E80 = some (.op7XNN 14 0x80) ∧
    decodeTableWord 16 0x8120 = some (.op8XY0 1 2) ∧ decodeTableWord 16 0x8341 = some (.op8XY1 3 4) ∧
    decodeTableWord 16 0x8562 = some (.op8XY2 5 6) ∧ decodeTableWord 16 0x8783 = some (.op8XY3 7 8) ∧
    decodeTableWord 16 0x89A4 = some (.op8XY4 9 10) ∧ decodeTableWord 16 0x8BC5 = some (.op8XY5 11 12) ∧
    decodeTableWord 16 0x8DE6 = some (.op8XY6 13 14) ∧ decodeTableWord 16 0x8F07 = some (.op8XY7 15 0) ∧
    decodeTableWord 16 0x801E = some (.op8XYE 0 1) ∧ decodeTableWord 16 0xC40F = some (.opCXNN 4 0x0F) := by decide

theorem test_decode_index_and_display :
    decodeTableWord 16 0xAFFF = some (.opANNN 0xFFF) ∧ decodeTableWord 16 0xD12F = some (.opDXYN 1 2 15) ∧
    decodeTableWord 16 0xF11E = some (.opFX1E 1) ∧ decodeTableWord 16 0xF229 = some (.opFX29 2) ∧
    decodeTableWord 16 0xF333 = some (.opFX33 3) ∧ decodeTableWord 16 0xF455 = some (.opFX55 4) ∧
    decodeTableWord 16 0xF565 = some (.opFX65 5) := by decide

theorem test_decode_keypad_and_timers :
    decodeTableWord 16 0xE69E = some (.opEX9E 6) ∧ decodeTableWord 16 0xE7A1 = some (.opEXA1 7) ∧
    decodeTableWord 16 0xF807 = some (.opFX07 8) ∧ decodeTableWord 16 0xF90A = some (.opFX0A 9) ∧
    decodeTableWord 16 0xFA15 = some (.opFX15 10) ∧ decodeTableWord 16 0xFB18 = some (.opFX18 11) := by decide

/-- R109, R110: words that are no instructions, each under its own name. -/
theorem test_decode_rejects_by_name :
    classify 0x0123 = .unrecognized ∧ classify 0x8008 = .unrecognized ∧ classify 0xE19F = .unrecognized ∧
    classify 0xF000 = .unrecognized ∧ classify 0x0000 = .disputed ∧ classify 0xE10E = .disputed ∧
    classify 0x5121 = .disputed ∧ classify 0x912F = .disputed := by decide

/-- A byte alone is no word. -/
theorem test_decode_truncated : (decodeBytes [0x12]).toOption = none := by decide

/-! ### the step (spec 95, section 2.1) -/

theorem test_V_DEC_1_unrecognized : after (st cfgL 0x0123 []) (fun t => t.pc == 0x202 && t.run == .running) = true := by
  decide

theorem test_V_DEC_3_disputed : after (st cfgL 0x0120 []) (isHalt 0x200 9 0x0120 0x0120) = true := by decide

theorem test_V_DEC_10_odd : after ((st cfgL 0 []).writePC 0x201) (isHalt 0x201 2 0 0x201) = true := by decide

theorem test_V_DEC_11_below_program : after ((st cfgL 0 []).writePC 0x100) (isHalt 0x100 3 0 0x100) = true := by decide

theorem test_V_DEC_12_range_before_odd : after ((st cfgL 0 []).writePC 0xFFF) (isHalt 0xFFF 1 0 0xFFF) = true := by
  decide

theorem test_V_DEC_14_halted :
    after ((st cfgL 0x6001 []).takeFault 0 ⟨.stackUnderflow, 0⟩) (fun t => t.readV 0 == 0 && t.pc == 0x200) = true := by
  decide

theorem test_V_DEC_15_big_endian : after (baseline cfgL [0x60, 0x01] 0) (fun t => t.readV 0 == 1) = true := by decide

/-! ### control transfer (section 2.2) -/

theorem test_V_CF_1 :
    after { st cfgL 0x00EE [] with sp := 1, stack := (Vector.replicate 12 0).set 0 0x234 }
      (fun t => t.pc == 0x234 && t.sp == 0 && t.stackAt 0 == 0x234) = true := by decide

theorem test_V_CF_2 : after (st cfgL 0x00EE []) (isHalt 0x200 5 0x00EE 0) = true := by decide

theorem test_V_CF_3 : after (st cfgL 0x1ABC []) (fun t => t.pc == 0xABC) = true := by decide

theorem test_V_CF_7 :
    after (st cfgL 0x2300 []) (fun t => t.stackAt 0 == 0x202 && t.sp == 1 && t.pc == 0x300) = true := by decide

theorem test_V_CF_8 :
    after { st cfgL 0x2300 [] with sp := 12 } (fun t => isHalt 0x200 4 0x2300 12 t && t.sp == 12) = true := by decide

theorem test_V_CF_9 : after (st cfgL 0x3210 [(2, 0x10)]) (fun t => t.pc == 0x204) = true := by decide

theorem test_V_CF_10 : after (st cfgL 0x3211 [(2, 0x10)]) (fun t => t.pc == 0x202) = true := by decide

theorem test_V_CF_11 : after (st cfgL 0x4210 [(2, 0x10)]) (fun t => t.pc == 0x202) = true := by decide

theorem test_V_CF_12 : after (st cfgL 0x4211 [(2, 0x10)]) (fun t => t.pc == 0x204) = true := by decide

theorem test_V_CF_13 : after (st cfgL 0x5120 [(1, 7), (2, 7)]) (fun t => t.pc == 0x204) = true := by decide

theorem test_V_CF_14 : after (st cfgL 0x9120 [(1, 7), (2, 7)]) (fun t => t.pc == 0x202) = true := by decide

theorem test_V_CF_15 : after (st cfgL 0x9120 [(1, 7), (2, 8)]) (fun t => t.pc == 0x204) = true := by decide

theorem test_V_CF_16 : after (st cfgL 0xB300 [(0, 0x10)]) (fun t => t.pc == 0x310) = true := by decide

theorem test_V_CF_17 : after (st cfgL 0xBFFF [(0, 0xFF)]) (fun t => t.pc == 0x10FE) = true := by decide

/-! ### registers and arithmetic (section 2.3) -/

theorem test_V_ALU_1 : after (st cfgL 0x6A42 []) (fun t => t.readV 10 == 0x42) = true := by decide

theorem test_V_ALU_2 :
    after (st cfgL 0x7302 [(3, 0xFF), (15, 0x77)]) (fun t => t.readV 3 == 0x01 && t.readV 15 == 0x77) = true := by decide

theorem test_V_ALU_3 : after (st cfgL 0x7F05 [(15, 0x10)]) (fun t => t.readV 15 == 0x15) = true := by decide

theorem test_V_ALU_4 : after (st cfgL 0x8120 [(1, 0x12), (2, 0x34)]) (fun t => t.readV 1 == 0x34) = true := by decide

theorem test_V_ALU_5 :
    after (st cfgL 0x8121 [(1, 0xF0), (2, 0x0F), (15, 5)]) (fun t => t.readV 1 == 0xFF && t.readV 15 == 0) = true := by
  decide

theorem test_V_ALU_6 :
    after (st cfgM 0x8121 [(1, 0xF0), (2, 0x0F), (15, 5)]) (fun t => t.readV 1 == 0xFF && t.readV 15 == 5) = true := by
  decide

theorem test_V_ALU_7 : after (st cfgL 0x8122 [(1, 0xF0), (2, 0x3C)]) (fun t => t.readV 1 == 0x30) = true := by decide

theorem test_V_ALU_8 : after (st cfgM 0x8123 [(1, 0xF0), (2, 0x3C)]) (fun t => t.readV 1 == 0xCC) = true := by decide

theorem test_V_ALU_10 :
    after (st cfgL 0x8124 [(1, 0xFF), (2, 0x01)]) (fun t => t.readV 1 == 0 && t.readV 15 == 1) = true := by decide

theorem test_V_ALU_21 : after (st cfgL 0x8F14 [(15, 0xFF), (1, 0x01)]) (fun t => t.readV 15 == 1) = true := by decide

theorem test_V_ALU_12 :
    after (st cfgL 0x8125 [(1, 5), (2, 5)]) (fun t => t.readV 1 == 0 && t.readV 15 == 1) = true := by decide

theorem test_V_ALU_13 :
    after (st cfgL 0x8125 [(1, 4), (2, 5)]) (fun t => t.readV 1 == 0xFF && t.readV 15 == 0) = true := by decide

theorem test_V_ALU_14 :
    after (st cfgL 0x8126 [(1, 5), (2, 0x81)]) (fun t => t.readV 1 == 0x40 && t.readV 15 == 1) = true := by decide

theorem test_V_ALU_15 :
    after (st cfgM 0x8126 [(1, 5), (2, 0x81)]) (fun t => t.readV 1 == 0x02 && t.readV 15 == 1) = true := by decide

theorem test_V_ALU_16 :
    after (st cfgL 0x8127 [(1, 5), (2, 3)]) (fun t => t.readV 1 == 0xFE && t.readV 15 == 0) = true := by decide

theorem test_V_ALU_18 :
    after (st cfgL 0x8127 [(1, 9), (2, 9)]) (fun t => t.readV 1 == 0 && t.readV 15 == 1) = true := by decide

theorem test_V_ALU_19 :
    after (st cfgL 0x812E [(1, 0x81), (2, 0x40)]) (fun t => t.readV 1 == 0x80 && t.readV 15 == 0) = true := by decide

theorem test_V_ALU_20 :
    after (st cfgM 0x812E [(1, 0x81), (2, 0x40)]) (fun t => t.readV 1 == 0x02 && t.readV 15 == 1) = true := by decide

/-- V-ALU-26: V3 = 0 for every draw. -/
theorem test_V_ALU_26 (s : State) : ∃ t, exec (.opCXNN 3 0) s = .next t ∧ t.readV 3 = 0 :=
  ⟨_, rfl, by
    show (s.advancePC.nextDraw.v.set 3 (s.draw &&& 0))[3] = 0
    rw [show s.draw &&& 0 = 0 from BitVec.and_zero]
    show (s.advancePC.nextDraw.v.set 3 0)[3] = 0
    simp⟩

/-! ### index and memory (section 2.4) -/

theorem test_V_MEM_1 : after (st cfgL 0xA123 []) (fun t => t.i == 0x123) = true := by decide

theorem test_V_MEM_2 :
    after ((st cfgL 0xF21E [(2, 2), (15, 9)]).writeI 0xFFF) (fun t => t.i == 0x1001 && t.readV 15 == 9) = true := by
  decide

theorem test_V_MEM_3 : after ((st cfgL 0xF01E [(0, 1)]).writeI 0xFFFF) (fun t => t.i == 0) = true := by decide

theorem test_V_MEM_4 : after (st cfgL 0xF029 [(0, 0x0A)]) (fun t => t.i == 50) = true := by decide

theorem test_V_MEM_5 : after (st cfgL 0xF029 [(0, 0xFF)]) (fun t => t.i == 1275) = true := by decide

theorem test_V_MEM_6 :
    after ((st cfgL 0xF033 [(0, 255)]).writeI 0x300)
      (fun t => t.readMem 0x300 == 2 && t.readMem 0x301 == 5 && t.readMem 0x302 == 5 && t.i == 0x300) = true := by decide

theorem test_V_MEM_13 :
    after ((st cfgL 0xF033 [(0, 1)]).writeI 4094)
      (fun t => isHalt 0x200 6 0xF033 4096 t && t.readMem 4094 == 0 && t.readMem 4095 == 0) = true := by decide

theorem test_V_MEM_7 :
    after ((st cfgL 0xF255 [(0, 1), (1, 2), (2, 3)]).writeI 0x400)
      (fun t => t.readMem 0x400 == 1 && t.readMem 0x401 == 2 && t.readMem 0x402 == 3 && t.i == 0x403) = true := by decide

theorem test_V_MEM_18 : after ((st cfgL 0xF155 []).writeI 79) (isHalt 0x200 7 0xF155 79) = true := by decide

theorem test_V_MEM_8 :
    after (st cfgM 0xF465 [])
      (fun t => t.readV 0 == 0xF0 && t.readV 1 == 0x90 && t.readV 4 == 0xF0 && t.readV 5 == 0 && t.i == 0) = true := by
  decide

theorem test_V_MEM_20 : after ((st cfgL 0xF165 []).writeI 4095) (isHalt 0x200 6 0xF165 4096) = true := by decide

/-! ### display (section 2.5) -/

theorem test_V_DSP_1 :
    after { st cfgS 0x00E0 [] with disp := flipPixel (blankBitmap 8 4) 1 1 }
      (fun t => t.disp == blankBitmap 8 4 && t.redraw) = true := by decide

/-- V-DSP-13: the origin wraps and the sprite is clipped. -/
theorem test_V_DSP_13 :
    after ((st cfgS 0xD121 [(1, 9), (2, 6)]).writeI 0x300 |>.writeMem 0x300 0xFF)
      (fun t => t.disp == [List.replicate 8 false, List.replicate 8 false, false :: List.replicate 7 true,
        List.replicate 8 false] && t.readV 15 == 0 && t.redraw) = true := by decide

/-- V-DSP-9: the check comes before VF ← 0. -/
theorem test_V_DSP_9 :
    after ((st cfgL 0xD122 [(1, 0), (2, 30), (15, 1)]).writeI 4095)
      (fun t => isHalt 0x200 6 0xD122 4096 t && t.readV 15 == 1) = true := by decide

/-! ### keypad and timers (section 2.6) -/

theorem test_V_KT_1 : after ((st cfgL 0xE49E [(4, 7)]).setKey 7 true) (fun t => t.pc == 0x204) = true := by decide

theorem test_V_KT_5 : after (st cfgL 0xE49E [(4, 16)]) (isHalt 0x200 8 0xE49E 16) = true := by decide

theorem test_V_KT_3 : after (st cfgL 0xE4A1 [(4, 7)]) (fun t => t.pc == 0x204) = true := by decide

theorem test_V_KT_4 : after ((st cfgL 0xE4A1 [(4, 7)]).setKey 7 true) (fun t => t.pc == 0x202) = true := by decide

theorem test_V_KT_6 : after ((st cfgL 0xF307 []).writeDT 0x3C) (fun t => t.readV 3 == 0x3C) = true := by decide

theorem test_V_KT_7 : after (st cfgL 0xF315 [(3, 9)]) (fun t => t.dt == 9) = true := by decide

theorem test_V_KT_8 : after (st cfgL 0xF518 [(5, 2)]) (fun t => t.st == 2 && t.soundEn) = true := by decide

theorem test_V_KT_10 :
    after (((st cfgL 0xF30A []).setKey 5 true).setKey 2 true)
      (fun t => t.kwState == .awaitRelease && t.kwKey == 2 && t.pc == 0x200) = true := by decide

theorem test_V_KT_11 :
    after (((st cfgL 0xF30A []).setKey 5 true).setLatch .awaitRelease 2)
      (fun t => t.readV 3 == 2 && t.kwState == .idle && t.kwKey == 0 && t.pc == 0x202) = true := by decide

theorem test_V_KT_12 :
    ((((st cfgL 0 []).writeDT 1).writeST 2).tick.dt = 0 ∧ (((st cfgL 0 []).writeDT 1).writeST 2).tick.st = 1) ∧
    (((st cfgL 0 []).writeDT 1).writeST 2).tick.tick.soundEn = false := by decide

/-! ### load and reset (sections 1 and 2.7) -/

/-- T7: 3585 bytes are too many. -/
theorem test_T7_too_large (c : Config) : load c (List.replicate 3585 0xAA) 0 = .error .romTooLarge := by
  unfold load
  rw [if_pos (by rw [List.length_replicate]; decide)]

/-- V-RST-3: RESET releases the keys. -/
theorem test_V_RST_3 : ((st cfgL 0 []).setKey 4 true).resetOp.key.get 4 = false := by decide

/-! ### witnesses: a state and operands that meet all of an obligation's hypotheses -/

/-- LoadAndResetLeaveTheResetValues, LoadFailsExactlyAboveTheLimit: the limit itself, and one byte more. -/
theorem witness_rom_lengths :
    (List.replicate 3584 (0 : Byte)).length ≤ 3584 ∧ 3584 < (List.replicate 3585 (0 : Byte)).length := by
  rw [List.length_replicate, List.length_replicate]
  decide

/-- LoadAndResetLeaveTheResetValues: the two ways to its state, and both ends of the ROM's length. -/
theorem witness_load_and_reset :
    load cfgL [] 0 = .ok (baseline cfgL [] 0) ∧ load cfgL [0x60, 0x01] 0 = .ok (baseline cfgL [0x60, 0x01] 0) ∧
    ∃ u : State, u.cfg = cfgL ∧ u.romImg = [0x60, 0x01] ∧ u.run = .halted ∧ baseline cfgL [0x60, 0x01] 0 = u.resetOp :=
  ⟨rfl, rfl, (baseline cfgL [0x60, 0x01] 0).takeFault 0 ⟨.disputedEncoding, 0⟩, rfl, rfl, rfl, rfl⟩

/-- ResetAfterAnyRunRestoresTheLoad. -/
theorem witness_run_without_load :
    (∀ op ∈ [HostOp.step, .tick, .setKey 3 true, .clearRedraw, .read, .reset], isLoad op = false) ∧
    ∃ s, runOps [.step, .tick, .setKey 3 true, .clearRedraw, .read, .reset] (some (baseline cfgL [0x60, 0x01] 0)) =
      .next (some s) := ⟨by decide, _, rfl⟩

/-- EveryOperationButLoadKeepsTheResetState: a STEP and a TICK of a loaded machine. -/
theorem witness_operation_but_load :
    isLoad .step = false ∧ isLoad .tick = false ∧
    (∃ t, applyToMachine .step (baseline cfgL [0x60, 0x01] 0) = .next (some t)) ∧
    ∃ t, applyToMachine .tick (baseline cfgL [0x60, 0x01] 0) = .next (some t) := ⟨rfl, rfl, ⟨_, rfl⟩, _, rfl⟩

/-- DecodingAnEncodedInstructionGivesItBack. -/
theorem witness_well_formed : (Instr.opDXYN 15 15 15).wellFormed = true ∧ Instr.op00E0.wellFormed = true := by decide

/-- EncodingAClassifiedWordGivesItBack. -/
theorem witness_classified : classify 0xD12F = .instr (.opDXYN 1 2 15) := by decide

/-- StepRunsTheDecodedInstruction. -/
theorem witness_step_runs :
    (st cfgL 0x8124 []).run = .running ∧ (st cfgL 0x8124 []).fetch = .ok 0x8124 ∧
    classify 0x8124 = .instr (.op8XY4 1 2) := ⟨rfl, rfl, by decide⟩

/-- FetchChecksInOrder: each check at its bounds. -/
theorem witness_fetch_bounds :
    (st cfgL 0 []).run = .running ∧
    (4094 < ((st cfgL 0 []).writePC 4095).pc.toNat ∧ 4094 < ((st cfgL 0 []).writePC 4096).pc.toNat) ∧
    (((st cfgL 0 []).writePC 4093).pc.toNat ≤ 4094 ∧ ((st cfgL 0 []).writePC 4093).pc.toNat % 2 = 1) ∧
    (((st cfgL 0 []).writePC 511).pc.toNat ≤ 4094 ∧ ((st cfgL 0 []).writePC 511).pc.toNat % 2 = 1) ∧
    (((st cfgL 0 []).writePC 510).pc.toNat < 512 ∧ ((st cfgL 0 []).writePC 510).pc.toNat % 2 = 0) ∧
    (512 ≤ ((st cfgL 0 []).writePC 512).pc.toNat ∧ ((st cfgL 0 []).writePC 512).pc.toNat % 2 = 0) ∧
    (((st cfgL 0 []).writePC 4094).pc.toNat ≤ 4094 ∧ ((st cfgL 0 []).writePC 4094).pc.toNat % 2 = 0) := by decide

/-- UnrecognizedWordOnlyAdvancesPc. -/
theorem witness_unrecognized :
    (st cfgL 0x0123 []).run = .running ∧ (st cfgL 0x0123 []).fetch = .ok 0x0123 ∧ classify 0x0123 = .unrecognized :=
  ⟨rfl, rfl, by decide⟩

/-- DisputedWordFaults. -/
theorem witness_disputed :
    (st cfgL 0x5121 []).run = .running ∧ (st cfgL 0x5121 []).fetch = .ok 0x5121 ∧ classify 0x5121 = .disputed :=
  ⟨rfl, rfl, by decide⟩

/-- OnlyLoadAndResetLeaveHalted. -/
theorem witness_halted :
    let s := (st cfgL 0 []).takeFault 0 ⟨.disputedEncoding, 0⟩
    s.run = .halted ∧ ∃ t, applyToMachine .reset s = .next (some t) ∧ t.run = .running := ⟨rfl, _, rfl, rfl⟩

/-- FaultsArePreciseAndListed, OnlyListedWritersWriteEachPart: a run of an instruction, and a part it does not write. -/
theorem witness_exec :
    (st cfgL 0x6A42 []).run = .running ∧ (∃ t, exec (.op6XNN 10 0x42) (st cfgL 0x6A42 []) = .next t) ∧
    ¬ mayWrite (st cfgL 0x6A42 []) (.op6XNN 10 0x42) .index := ⟨rfl, ⟨_, rfl⟩, fun h => h⟩

/-- FaultsArePreciseAndListed: a run that faults. -/
theorem witness_exec_fault :
    (st cfgL 0x00EE []).run = .running ∧ afterExec .op00EE (st cfgL 0x00EE []) (isHalt 0x200 5 0x00EE 0) = true := by
  decide

/-- ReturnPopsPc: the two clauses at SP 1 and 12, and at 0. -/
theorem witness_return :
    (({ st cfgL 0 [] with sp := 1 } : State).sp ≠ 0) ∧ (({ st cfgL 0 [] with sp := 12 } : State).sp ≠ 0) ∧
    (st cfgL 0 []).sp = 0 := by decide

/-- CallPushesTheReturnAddress, ReturnUndoesCall: SP 11 and 12. -/
theorem witness_call :
    (({ st cfgL 0 [] with sp := 11 } : State).sp.val < 12) ∧ (({ st cfgL 0 [] with sp := 12 } : State).sp = 12) ∧
    ∃ t, exec (.op2NNN 0x300) { st cfgL 0 [] with sp := 11 } = .next t := ⟨by decide, by decide, _, rfl⟩

/-- SelfJumpIsAFixedPoint. -/
theorem witness_self_jump :
    (st cfgL 0x1200 []).fetch = .ok (encode (.op1NNN 0x200)) ∧ (0x200 : BitVec 12).toNat = (st cfgL 0x1200 []).pc.toNat :=
  ⟨rfl, rfl⟩

/-- ShiftsByOne: the source in each mode. -/
theorem witness_shift_source :
    ((st cfgL 0 [(1, 5), (2, 9)]).cfg.qShiftVy = true ∧ (9 : Byte) = (st cfgL 0 [(1, 5), (2, 9)]).readV 2) ∧
    ((st cfgM 0 [(1, 5), (2, 9)]).cfg.qShiftVy = false ∧ (5 : Byte) = (st cfgM 0 [(1, 5), (2, 9)]).readV 1) := by decide

/-- LoadThenAddIsOneLoad. -/
theorem witness_load_add :
    ∃ t u v, exec (.op6XNN 5 0xF0) (st cfgL 0 []) = .next t ∧ exec (.op7XNN 5 0x20) t = .next u ∧
      exec (.op6XNN 5 (BitVec.ofNat 8 (0xF0 + 0x20))) (st cfgL 0 []) = .next v := ⟨_, _, _, rfl, rfl, rfl⟩

/-- AddThenSubtractRestores. -/
theorem witness_add_sub :
    (1 : Reg) ≠ 2 ∧ (1 : Reg) ≠ flagReg ∧ (2 : Reg) ≠ flagReg ∧
    ∃ t u, exec (.op8XY4 1 2) (st cfgL 0 []) = .next t ∧ exec (.op8XY5 1 2) t = .next u :=
  ⟨by decide, by decide, by decide, _, _, rfl, rfl⟩

/-- BcdStoresThreeDigits: the ends of the writable cells, and one past each. -/
theorem witness_bcd_bounds :
    (80 ≤ ((st cfgL 0 []).writeI 80).i.toNat ∧ ((st cfgL 0 []).writeI 80).i.toNat + 2 ≤ 4095) ∧
    (80 ≤ ((st cfgL 0 []).writeI 4093).i.toNat ∧ ((st cfgL 0 []).writeI 4093).i.toNat + 2 ≤ 4095) ∧
    4095 < ((st cfgL 0 []).writeI 4094).i.toNat + 2 ∧ ((st cfgL 0 []).writeI 79).i.toNat < 80 := by decide

/-- StoreRegistersToMemory: the ends of the writable cells, and one past each. -/
theorem witness_store_bounds :
    (80 ≤ ((st cfgL 0 []).writeI 80).i.toNat ∧ ((st cfgL 0 []).writeI 80).i.toNat + (15 : Reg).val ≤ 4095) ∧
    (80 ≤ ((st cfgL 0 []).writeI 4080).i.toNat ∧ ((st cfgL 0 []).writeI 4080).i.toNat + (15 : Reg).val ≤ 4095) ∧
    4095 < ((st cfgL 0 []).writeI 4081).i.toNat + (15 : Reg).val ∧ ((st cfgL 0 []).writeI 79).i.toNat < 80 ∧
    (st cfgL 0 []).cfg.qMemIncI = true := by decide

/-- LoadRegistersFromMemory: the last readable cell and one past it. -/
theorem witness_load_bounds :
    ((st cfgL 0 []).writeI 4095).i.toNat + (0 : Reg).val ≤ 4095 ∧
    4095 < ((st cfgL 0 []).writeI 4095).i.toNat + (1 : Reg).val ∧ (1 : Reg) ≤ 1 := by decide

/-- DumpThenLoadRestoresRegisters. -/
theorem witness_dump_load :
    ∃ t u v, ((st cfgL 0 [(0, 9)]).writeI 0x400).run = .running ∧
      exec (.opFX55 2) ((st cfgL 0 [(0, 9)]).writeI 0x400) = .next t ∧ t.run = .running ∧
      (∀ a, u.readMem a = t.readMem a) ∧ u.i = 0x400 ∧ exec (.opFX65 2) u = .next v :=
  ⟨_, State.writeI (((st cfgL 0 [(0, 9)]).writeI 0x400).advancePC.writeBytes 0x400
    (((st cfgL 0 [(0, 9)]).writeI 0x400).lowRegs 2)) 0x400, _, rfl, rfl, rfl, fun _ => rfl, rfl, rfl⟩

/-- StoredBytesAreFetched. -/
theorem witness_stored_fetched :
    ∃ t u : State, ((st cfgL 0 [(0, 0x12)]).writeI 0x300).run = .running ∧
      exec (.opFX55 1) ((st cfgL 0 [(0, 0x12)]).writeI 0x300) = .next t ∧ t.run = .running ∧ (0 : Reg) ≤ 1 ∧
      (1 : Reg).val = (0 : Reg).val + 1 ∧ (∀ a, u.readMem a = t.readMem a) ∧ u.pc.toNat = 0x300 + (0 : Reg).val ∧
      512 ≤ u.pc.toNat ∧ u.pc.toNat % 2 = 0 :=
  ⟨_, State.writePC (((st cfgL 0 [(0, 0x12)]).writeI 0x300).advancePC.writeBytes 0x300
    (((st cfgL 0 [(0, 0x12)]).writeI 0x300).lowRegs 1)) 0x300, rfl, rfl, rfl, by decide, rfl, fun _ => rfl, rfl, by decide,
    by decide⟩

/-- The stores of a loaded 8 × 4 machine are well formed. -/
theorem witness_stores_ok : (st cfgS 0xD122 [(2, 2)]).StoresOk := by decide

/-- The addresses a loaded machine holds are legal: its stack entries are 0. -/
theorem witness_addresses_ok : (st cfgS 0xD122 [(2, 2)]).AddressesOk := by
  refine ⟨by decide, fun w hw => ?_⟩
  have h0 : w = 0 := List.eq_of_mem_replicate (n := 12) hw
  rw [h0]
  decide

/-- DrawXorsTheClippedSprite: no row; the last row at 4095; a row at 4096. With V2 = 2, H = 4 and N = 2, rows is 2. -/
theorem witness_draw_bounds :
    (st cfgS 0xD122 [(2, 2)]).StoresOk ∧
    min 2 (cfgS.height - ((st cfgS 0xD122 [(2, 2)]).readV 2).toNat % cfgS.height) = 2 ∧
    min 0 (cfgS.height - ((st cfgS 0xD122 [(2, 2)]).readV 2).toNat % cfgS.height) = 0 ∧
    ((st cfgS 0xD122 [(2, 2)]).writeI 4094).i.toNat + 2 ≤ 4096 ∧
    4096 < ((st cfgS 0xD122 [(2, 2)]).writeI 4095).i.toNat + 2 := by
  refine ⟨witness_stores_ok, ?_⟩
  decide

/-- DrawingTwiceRestoresTheDisplay: t' is t itself; the display is clear before the first draw. -/
theorem witness_draw_twice :
    let s := st cfgS 0xD121 [(1, 1), (2, 2)]
    (1 : Reg) ≠ flagReg ∧ (2 : Reg) ≠ flagReg ∧ s.run = .running ∧
    ∃ t u, exec (.opDXYN 1 2 1) s = .next t ∧ t.run = .running ∧ t.cfg = s.cfg ∧ t.i = s.i ∧
      (∀ a, t.readMem a = s.readMem a) ∧ exec (.opDXYN 1 2 1) t = .next u ∧ ∀ px py, s.pixel px py = false :=
  ⟨by decide, by decide, rfl, _, _, rfl, rfl, rfl, rfl, fun _ => rfl, rfl, fun px py => readPixel_blankBitmap 8 4 px py⟩

/-- DrawingTwiceRestoresTheDisplay, on a display with every pixel under the sprite set (w, left by a first draw): by R261 the
next draw clears them and sets VF, and the one after finds them clear and leaves VF = 0 (log 20). -/
theorem witness_draw_twice_on_set_pixels :
    (match exec (.opDXYN 1 2 1) (st cfgS 0xD121 [(1, 1), (2, 2)]) with
      | .next w =>
        (match exec (.opDXYN 1 2 1) w with
          | .next t =>
            (match exec (.opDXYN 1 2 1) t with
              | .next u => w.pixel 1 2 && !t.pixel 1 2 && u.pixel 1 2 && decide (t.readV flagReg = 1) && decide (u.readV flagReg = 0)
              | _ => false)
          | _ => false)
      | _ => false) = true := by decide

/-- KeySkips: VX 15 and 16. -/
theorem witness_key_bounds :
    ((st cfgL 0 [(4, 15)]).readV 4).toNat = (15 : Key).val ∧ 15 < ((st cfgL 0 [(4, 16)]).readV 4).toNat := by decide

/-- KeyWaitPoll: its four cases. -/
theorem witness_key_wait :
    ((st cfgL 0 []).kwState = .idle ∧ ∀ k, (st cfgL 0 []).key.get k = false) ∧
    (((st cfgL 0 []).setKey 2 true).key.get 2 = true ∧ ∀ j, j < 2 → ((st cfgL 0 []).setKey 2 true).key.get j = false) ∧
    (let s := ((st cfgL 0 []).setKey 2 true).setLatch .awaitRelease 2
     s.kwState = .awaitRelease ∧ s.key.get s.kwKey = true) ∧
    (let s := (st cfgL 0 []).setLatch .awaitRelease 2
     s.kwState = .awaitRelease ∧ s.key.get s.kwKey = false) := by decide

/-- KeyWaitScenario. -/
theorem witness_key_wait_scenario :
    (st cfgL 0xF20A []).run = .running ∧ (st cfgL 0xF20A []).fetch = .ok (encode (.opFX0A 2)) ∧
    (st cfgL 0xF20A []).kwState = .idle ∧ ∀ j, (st cfgL 0xF20A []).key.get j = false :=
  ⟨rfl, rfl, rfl, by decide⟩

/-- OnlyKeyInstructionsReadKeys. -/
theorem witness_reads_no_key : readsKeys (.opFX07 3) = false ∧ readsKeys (.opFX0A 3) = true := by decide

/-- FontIsNeverMutated: a step, and the last cell of the font. -/
theorem witness_font : (∃ t, step (st cfgL 0x6A42 []) = .next t) ∧ 79 < 80 :=
  ⟨next_of_after (p := fun _ => true) (by decide), by decide⟩

/-- StepKeepsStoresOk, StepKeepsAddressesOk, StepKeepsLatchOk, StepKeepsHaltRecordOk. -/
theorem witness_invariants :
    let s := st cfgS 0xD122 [(2, 2)]
    s.StoresOk ∧ s.AddressesOk ∧ s.LatchOk ∧ s.HaltRecordOk ∧ ∃ t, step s = .next t :=
  ⟨witness_stores_ok, witness_addresses_ok, by decide, by decide, next_of_after (p := fun _ => true) (by decide)⟩

/-- StepKeepsLatchOk: a state whose latch waits for a release. -/
theorem witness_latch : (((st cfgS 0xF20A []).setKey 2 true).setLatch .awaitRelease 2).LatchOk := by decide

/-- StepKeepsHaltRecordOk: a halted state. -/
theorem witness_halt_record : ((st cfgS 0 []).takeFault 0 ⟨.disputedEncoding, 0⟩).HaltRecordOk := by decide

/-- LoadEstablishesTheInvariants. -/
theorem witness_load : cfgS.wf ∧ ∃ s, load cfgS [0x12, 0x00] 0 = .ok s := ⟨by decide, _, rfl⟩

/-- EveryScheduleKeepsTheInvariants. -/
theorem witness_schedule :
    (∀ op ∈ [HostOp.tick, .setKey 1 true, .reset], ∀ c rom k, op = .load c rom k → c.wf) ∧
    (st cfgS 0xD122 [(2, 2)]).AllOk ∧
    ∃ t, runOps [.tick, .setKey 1 true, .reset] (some (st cfgS 0xD122 [(2, 2)])) = .next (some t) := by
  refine ⟨by simp, ⟨witness_stores_ok, witness_addresses_ok, by decide, by decide⟩, _, rfl⟩

end Sys2Proof.Tests
end

namespace Sys2Proof.Machine

/-! ### next states of a committed rule -/

/-- What holds of the one next state an outcome gives holds of every next state of that outcome. -/
theorem holds_of_next {P : State → Prop} {o : Host.Outcome State Fault Refusal} {t u : State} (h : o = .next t)
    (ho : o = .next u) (hu : P u) : P t := by
  cases ho.symm.trans h
  exact hu

/-- R140, R312: a rule that checks `c` and then acts by `f` has two next states, the fault's and `f`'s. -/
theorem holds_of_commit {α : Type} {P : State → Prop} {o : Host.Outcome State Fault Refusal} {s t : State} {w : Word}
    {c : Except Raise α} {f : α → State} (h : o = .next t) (ho : o = s.commit w (c.map f))
    (hfault : ∀ e, P (s.takeFault w e)) (hok : ∀ a, c = .ok a → P (f a)) : P t := by
  cases c with
  | error e => exact holds_of_next h ho (hfault e)
  | ok a => exact holds_of_next h ho (hok a rfl)

/-! ### frames of an instruction -/

/-- The fetch's advance writes no part, so a frame from the advanced state is a frame from the state before it. -/
theorem OnlyWrites.of_advancePC {W W' : Part → Prop} {s t : State} (h : OnlyWrites W s.advancePC t)
    (hW : ∀ p, W p → W' p) : OnlyWrites W' s t :=
  ((onlyWrites_advancePC s).mono fun _ hp => hp.elim).trans (h.mono hW)

/-- One update after another writes the parts of either. -/
theorem OnlyWrites.seq {W W' : Part → Prop} {s t u : State} (h : OnlyWrites W s t) (h' : OnlyWrites W' t u) :
    OnlyWrites (fun p => W p ∨ W' p) s u := (h.mono fun _ => .inl).trans (h'.mono fun _ => .inr)

/-- A jump after an update adds nothing to the parts the update writes. -/
theorem OnlyWrites.writePC {W : Part → Prop} {s t : State} (h : OnlyWrites W s t) (w : Word) :
    OnlyWrites W s (t.writePC w) := h.trans ((onlyWrites_writePC t w).mono fun _ hp => hp.elim)

/-- R312: a fault writes only the halt record, which every instruction that lists a cause may write. -/
theorem onlyWrites_fault {i : Instr} (s : State) (w : Word) (hi : causesOf i ≠ []) (e : Raise) :
    OnlyWrites (mayWrite s i) s (s.takeFault w e) :=
  (onlyWrites_takeFault s w e).mono <| by rintro _ rfl; exact hi

/-- A poll of the key wait writes at most the register and the latch. -/
theorem onlyWrites_pollKey (s : State) (x : Reg) :
    OnlyWrites (fun p => p = .reg x ∨ p = .latch) s (s.pollKey x) := by
  have hrewind : ∀ t : State, OnlyWrites (fun p => p = .reg x ∨ p = .latch) t t.rewindPC := fun t =>
    (onlyWrites_rewindPC t).mono fun _ hp => hp.elim
  unfold State.pollKey
  split
  · split
    · exact ((onlyWrites_setLatch s _ _).mono fun _ => .inr).trans (hrewind _)
    · exact hrewind s
  · split
    · exact hrewind s
    · exact (onlyWrites_writeV s x _).seq (onlyWrites_setLatch _ _ _)

/-- R234, R235: writing what FX55 and FX65 leave in I changes I in legacy mode only. -/
theorem onlyWrites_writeI_indexAfter {s : State} {c : Config} (i : Word) (x : Reg) (hi : s.i = i) :
    OnlyWrites (fun p => c.qMemIncI = true ∧ p = .index) s (s.writeI (indexAfter c i x)) := by
  cases h : c.qMemIncI with
  | true => exact (onlyWrites_writeI s _).mono fun _ hp => ⟨rfl, hp⟩
  | false =>
    have hsame : s.writeI (indexAfter c i x) = s := by simp [indexAfter, h, State.writeI, ← hi]
    rw [hsame]
    exact OnlyWrites.refl _ s

/-- R195 to R197: the frame of a logic instruction from the state before the advance. -/
theorem onlyWrites_logic {W : Part → Prop} (s : State) (x : Reg) (b : Byte)
    (hW : ∀ r, r = x ∨ (s.cfg.qLogicVf = true ∧ r = flagReg) → W (.reg r)) :
    OnlyWrites W s (s.advancePC.writeLogic x b) := by
  refine (onlyWrites_writeLogic _ x b).of_advancePC ?_
  rintro _ (rfl | ⟨hq, rfl⟩)
  · exact hW x (.inl rfl)
  · exact hW flagReg (.inr ⟨hq, rfl⟩)

/-- R190: the frame of an instruction that writes VX and the flag, from the state before the advance. -/
theorem onlyWrites_flagged {W : Part → Prop} (s : State) (x : Reg) (b : Byte) (f : Bool)
    (hW : ∀ r, r = x ∨ r = flagReg → W (.reg r)) : OnlyWrites W s (s.advancePC.writeWithFlag x b f) := by
  refine (onlyWrites_writeWithFlag _ x b f).of_advancePC ?_
  rintro _ (rfl | rfl)
  · exact hW x (.inl rfl)
  · exact hW flagReg (.inr rfl)

/-- Every instruction writes only the parts the table of writers lists it for: one frame per constructor. -/
theorem exec_onlyWrites {i : Instr} {s t : State} (h : exec i s = .next t) : OnlyWrites (mayWrite s i) s t := by
  have hnone : ∀ p, False → mayWrite s i p := fun _ hp => hp.elim
  cases i with
  | op00E0 =>
    refine holds_of_next h (exec_op00E0 s) ((onlyWrites_clearDisplay _).of_advancePC ?_)
    rintro _ (⟨x, y, rfl⟩ | rfl) <;> exact trivial
  | op00EE =>
    refine holds_of_commit h (exec_op00EE s) (onlyWrites_fault s _ (List.cons_ne_nil _ _)) fun r hr =>
      ((onlyWrites_pop _ hr).writePC _).of_advancePC ?_
    rintro _ rfl
    exact trivial
  | op1NNN nnn => exact holds_of_next h (exec_op1NNN s nnn) ((onlyWrites_writePC _ _).of_advancePC hnone)
  | op2NNN nnn =>
    refine holds_of_commit h (exec_op2NNN s nnn) (onlyWrites_fault s _ (List.cons_ne_nil _ _)) fun u hu =>
      ((onlyWrites_push _ hu).writePC _).of_advancePC ?_
    rintro _ (rfl | rfl)
    · exact trivial
    · exact rfl
  | op3XNN x nn => exact holds_of_next h (exec_op3XNN s x nn) ((onlyWrites_skipIf _ _).of_advancePC hnone)
  | op4XNN x nn => exact holds_of_next h (exec_op4XNN s x nn) ((onlyWrites_skipIf _ _).of_advancePC hnone)
  | op5XY0 x y => exact holds_of_next h (exec_op5XY0 s x y) ((onlyWrites_skipIf _ _).of_advancePC hnone)
  | op6XNN x nn =>
    exact holds_of_next h (exec_op6XNN s x nn) ((onlyWrites_writeV _ x _).of_advancePC (by rintro _ rfl; exact rfl))
  | op7XNN x nn =>
    exact holds_of_next h (exec_op7XNN s x nn) ((onlyWrites_writeV _ x _).of_advancePC (by rintro _ rfl; exact rfl))
  | op8XY0 x y =>
    exact holds_of_next h (exec_op8XY0 s x y) ((onlyWrites_writeV _ x _).of_advancePC (by rintro _ rfl; exact rfl))
  | op8XY1 x y => exact holds_of_next h (exec_op8XY1 s x y) (onlyWrites_logic s x _ fun _ => id)
  | op8XY2 x y => exact holds_of_next h (exec_op8XY2 s x y) (onlyWrites_logic s x _ fun _ => id)
  | op8XY3 x y => exact holds_of_next h (exec_op8XY3 s x y) (onlyWrites_logic s x _ fun _ => id)
  | op8XY4 x y => exact holds_of_next h (exec_op8XY4 s x y) (onlyWrites_flagged s x _ _ fun _ => id)
  | op8XY5 x y => exact holds_of_next h (exec_op8XY5 s x y) (onlyWrites_flagged s x _ _ fun _ => id)
  | op8XY6 x y => exact holds_of_next h (exec_op8XY6 s x y) (onlyWrites_flagged s x _ _ fun _ => id)
  | op8XY7 x y => exact holds_of_next h (exec_op8XY7 s x y) (onlyWrites_flagged s x _ _ fun _ => id)
  | op8XYE x y => exact holds_of_next h (exec_op8XYE s x y) (onlyWrites_flagged s x _ _ fun _ => id)
  | op9XY0 x y => exact holds_of_next h (exec_op9XY0 s x y) ((onlyWrites_skipIf _ _).of_advancePC hnone)
  | opANNN nnn =>
    exact holds_of_next h (exec_opANNN s nnn) ((onlyWrites_writeI _ _).of_advancePC (by rintro _ rfl; exact trivial))
  | opBNNN nnn => exact holds_of_next h (exec_opBNNN s nnn) ((onlyWrites_writePC _ _).of_advancePC hnone)
  | opCXNN x nn =>
    refine holds_of_next h (exec_opCXNN s x nn)
      (((onlyWrites_nextDraw _).seq (onlyWrites_writeV _ x _)).of_advancePC ?_)
    rintro _ (rfl | rfl)
    · exact trivial
    · exact rfl
  | opDXYN x y n =>
    refine holds_of_commit h (exec_opDXYN s x y n) (onlyWrites_fault s _ (List.cons_ne_nil _ _)) fun _ _ =>
      (onlyWrites_drawSprite _ _ _ _ _).of_advancePC ?_
    rintro _ (rfl | ⟨px, py, rfl⟩ | rfl)
    · exact rfl
    · exact trivial
    · exact trivial
  | opEX9E x =>
    exact holds_of_commit h (exec_opEX9E s x) (onlyWrites_fault s _ (List.cons_ne_nil _ _)) fun _ _ =>
      (onlyWrites_skipIf _ _).of_advancePC hnone
  | opEXA1 x =>
    exact holds_of_commit h (exec_opEXA1 s x) (onlyWrites_fault s _ (List.cons_ne_nil _ _)) fun _ _ =>
      (onlyWrites_skipIf _ _).of_advancePC hnone
  | opFX07 x =>
    exact holds_of_next h (exec_opFX07 s x) ((onlyWrites_writeV _ x _).of_advancePC (by rintro _ rfl; exact rfl))
  | opFX0A x =>
    refine holds_of_next h (exec_opFX0A s x) ((onlyWrites_pollKey _ x).of_advancePC ?_)
    rintro _ (rfl | rfl)
    · exact rfl
    · exact trivial
  | opFX15 x =>
    exact holds_of_next h (exec_opFX15 s x) ((onlyWrites_writeDT _ _).of_advancePC (by rintro _ rfl; exact trivial))
  | opFX18 x =>
    exact holds_of_next h (exec_opFX18 s x) ((onlyWrites_writeST _ _).of_advancePC (by rintro _ rfl; exact trivial))
  | opFX1E x =>
    exact holds_of_next h (exec_opFX1E s x) ((onlyWrites_writeI _ _).of_advancePC (by rintro _ rfl; exact trivial))
  | opFX29 x =>
    exact holds_of_next h (exec_opFX29 s x) ((onlyWrites_writeI _ _).of_advancePC (by rintro _ rfl; exact trivial))
  | opFX33 x =>
    refine holds_of_commit h (exec_opFX33 s x) (onlyWrites_fault s _ (List.cons_ne_nil _ _)) fun _ _ =>
      (onlyWrites_writeBytes _ _ _).of_advancePC ?_
    rintro _ ⟨q, hlo, hhi, rfl⟩
    exact ⟨hlo, Nat.le_of_lt_succ hhi⟩
  | opFX55 x =>
    refine holds_of_commit h (exec_opFX55 s x) (onlyWrites_fault s _ (List.cons_ne_nil _ _)) fun _ _ =>
      ((onlyWrites_writeBytes s.advancePC _ _).seq
        (onlyWrites_writeI_indexAfter s.i x (s.advancePC.writeBytes_i _ _))).of_advancePC ?_
    rintro _ (⟨q, hlo, hhi, rfl⟩ | ⟨hq, rfl⟩)
    · exact ⟨hlo, by rw [s.length_lowRegs] at hhi; omega⟩
    · exact hq
  | opFX65 x =>
    refine holds_of_commit h (exec_opFX65 s x) (onlyWrites_fault s _ (List.cons_ne_nil _ _)) fun _ _ =>
      ((onlyWrites_loadLowRegs s.advancePC _ x).seq
        (onlyWrites_writeI_indexAfter s.i x (s.advancePC.loadLowRegs_i _ x))).of_advancePC ?_
    rintro _ (⟨q, hq, rfl⟩ | ⟨hq, rfl⟩)
    · exact hq
    · exact hq

/-- Settles O50, by the frame of each instruction. -/
theorem onlyListedWritersWriteEachPart : Obligations.OnlyListedWritersWriteEachPart :=
  fun _ _ _ h => exec_onlyWrites h

end Sys2Proof.Machine

namespace Sys2Proof.Machine

/-! ### call and return, case by case (R160, R162) -/

theorem exec_op00EE_of_empty (s : State) (h : s.sp = 0) :
    exec .op00EE s = .next (s.takeFault (encode .op00EE) ⟨.stackUnderflow, 0⟩) := by
  rw [exec_op00EE, s.advancePC.pop_error h]
  rfl

theorem exec_op00EE_of_entry (s : State) (h : s.sp ≠ 0) :
    exec .op00EE s =
      .next { s.advancePC with pc := s.stackAt (s.sp.val - 1), sp := ⟨s.sp.val - 1, by omega⟩ } := by
  have hpop : s.advancePC.pop = .ok (s.stackAt (s.sp.val - 1), { s.advancePC with sp := ⟨s.sp.val - 1, by omega⟩ }) :=
    if_neg fun hsp => h (Fin.ext hsp)
  rw [exec_op00EE, hpop]
  rfl

theorem exec_op2NNN_of_full (s : State) (nnn : BitVec 12) (h : s.sp = 12) :
    exec (.op2NNN nnn) s = .next (s.takeFault (encode (.op2NNN nnn)) ⟨.stackOverflow, 12⟩) := by
  rw [exec_op2NNN, s.advancePC.push_error _ h]
  rfl

theorem exec_op2NNN_of_room (s : State) (nnn : BitVec 12) (h : s.sp.val < 12) :
    exec (.op2NNN nnn) s =
      .next { s.advancePC with
        pc := addressOf nnn, stack := s.stack.set s.sp.val (s.pc + 2) h, sp := ⟨s.sp.val + 1, by omega⟩ } := by
  have hpush : s.advancePC.push (s.pc + 2) =
      .ok { s.advancePC with stack := s.stack.set s.sp.val (s.pc + 2) h, sp := ⟨s.sp.val + 1, by omega⟩ } := dif_pos h
  rw [exec_op2NNN, hpush]
  rfl

/-- R38: SP below 12, or a full stack. -/
theorem sp_lt_or_eq (s : State) : s.sp.val < 12 ∨ s.sp = 12 := by omega

/-! ### what an instruction can do to the state -/

/-- Everything an instruction that completes can leave from `s`: the shapes its rule gives the next state. -/
inductive Completes (s : State) : State → Prop
  /-- Registers, I, timers and the draw counter are written; memory, display, stack, keypad and latch are not. -/
  | data (v : Vector Byte 16) (i : Word) (dt st : Byte) (draws : Nat) :
      Completes s { s.advancePC with v := v, i := i, dt := dt, st := st, draws := draws }
  /-- R169. -/
  | skip (c : Bool) : Completes s (s.advancePC.skipIf c)
  /-- R161, R167: no target lies above 4095 + 255. -/
  | jump (w : Word) (hw : w.toNat ≤ 0x10FE) : Completes s (s.advancePC.writePC w)
  /-- R162: the return address goes to one stack entry. -/
  | call (nnn : BitVec 12) (j : Nat) (hj : j < 12) (sp : Fin 13) :
      Completes s { s.advancePC with pc := addressOf nnn, stack := s.stack.set j (s.pc + 2) hj, sp := sp }
  /-- R160: PC is taken from one stack entry. -/
  | ret (j : Nat) (sp : Fin 13) : Completes s { s.advancePC with pc := s.stackAt j, sp := sp }
  /-- R260. -/
  | clear : Completes s s.advancePC.clearDisplay
  /-- R261. -/
  | draw (rows : List Byte) (x0 y0 cols : Nat) : Completes s (s.advancePC.drawSprite rows x0 y0 cols)
  /-- R233, R234: every stored cell passed the write check (R79). -/
  | store (a : Nat) (bs : List Byte) (i : Word) (hlo : 80 ≤ a) (hhi : a + bs.length ≤ 4096) :
      Completes s ((s.advancePC.writeBytes a bs).writeI i)
  /-- R283: a poll that goes on waiting. -/
  | wait : Completes s s
  /-- R283: a poll that latches a key. -/
  | latch (k : Key) : Completes s (s.setLatch .awaitRelease k)
  /-- R283: a poll that sees the latched key released. -/
  | release (x : Reg) (b : Byte) : Completes s ((s.advancePC.writeV x b).setLatch .idle 0)

/-- R283: everything a poll of the key wait can leave. -/
theorem pollKey_cases (s : State) (x : Reg) :
    s.advancePC.pollKey x = s ∨ (∃ k, s.advancePC.pollKey x = s.setLatch .awaitRelease k) ∨
      ∃ b, s.advancePC.pollKey x = (s.advancePC.writeV x b).setLatch .idle 0 := by
  cases hw : s.kwState with
  | idle =>
    cases hk : s.leastPressed with
    | none => exact .inl (pollKey_no_key s x hw hk)
    | some k => exact .inr (.inl ⟨k, pollKey_latch s x hw hk⟩)
  | awaitRelease =>
    cases hk : s.pressed s.kwKey with
    | true => exact .inl (pollKey_held s x hw hk)
    | false => exact .inr (.inr ⟨_, pollKey_release s x hw hk⟩)

/-- R312: `t` is `s` with the record of some fault. -/
def Faulted (s t : State) : Prop := ∃ w e, t = s.takeFault w e

/-- R312: an instruction faults, leaving only the halt record, or it completes. -/
def FaultsOrCompletes (s t : State) : Prop := Faulted s t ∨ Completes s t

theorem FaultsOrCompletes.fault (s : State) (w : Word) (e : Raise) : FaultsOrCompletes s (s.takeFault w e) :=
  .inl ⟨w, e, rfl⟩

theorem FaultsOrCompletes.writeV (s : State) (x : Reg) (b : Byte) : FaultsOrCompletes s (s.advancePC.writeV x b) :=
  .inr (.data _ _ _ _ _)

theorem FaultsOrCompletes.writeWithFlag (s : State) (x : Reg) (b : Byte) (f : Bool) :
    FaultsOrCompletes s (s.advancePC.writeWithFlag x b f) := .inr (.data _ _ _ _ _)

theorem FaultsOrCompletes.writeI (s : State) (w : Word) : FaultsOrCompletes s (s.advancePC.writeI w) :=
  .inr (.data _ _ _ _ _)

theorem FaultsOrCompletes.skipIf (s : State) (c : Bool) : FaultsOrCompletes s (s.advancePC.skipIf c) :=
  .inr (.skip c)

theorem FaultsOrCompletes.writeLogic (s : State) (x : Reg) (b : Byte) :
    FaultsOrCompletes s (s.advancePC.writeLogic x b) := by
  unfold State.writeLogic
  split <;> exact .inr (.data _ _ _ _ _)

theorem FaultsOrCompletes.pollKey (s : State) (x : Reg) : FaultsOrCompletes s (s.advancePC.pollKey x) := by
  rcases pollKey_cases s x with h | ⟨k, h⟩ | ⟨b, h⟩ <;> rw [h]
  · exact .inr .wait
  · exact .inr (.latch k)
  · exact .inr (.release x b)

/-- R79, R80: where the write check of `n + 1` cells passes they all lie in 80..4095. -/
theorem range_of_checkWrite {a n : Nat} {u : Unit} (h : checkEach checkWrite a (n + 1) = .ok u) :
    80 ≤ a ∧ a + (n + 1) ≤ 4096 := by
  rw [checkEach_checkWrite] at h
  split at h
  · cases h
  · split at h
    · omega
    · cases h

/-- What every instruction can do, said once: one shape per constructor. -/
theorem exec_faultsOrCompletes {i : Instr} {s t : State} (h : exec i s = .next t) : FaultsOrCompletes s t := by
  cases i with
  | op00E0 => exact holds_of_next h (exec_op00E0 s) (.inr .clear)
  | op00EE =>
    by_cases hsp : s.sp = 0
    · exact holds_of_next h (exec_op00EE_of_empty s hsp) (.fault s _ _)
    · exact holds_of_next h (exec_op00EE_of_entry s hsp) (.inr (.ret _ _))
  | op1NNN nnn =>
    exact holds_of_next h (exec_op1NNN s nnn) (.inr (.jump _ (by rw [toNat_addressOf]; omega)))
  | op2NNN nnn =>
    rcases sp_lt_or_eq s with hsp | hsp
    · exact holds_of_next h (exec_op2NNN_of_room s nnn hsp) (.inr (.call nnn _ hsp _))
    · exact holds_of_next h (exec_op2NNN_of_full s nnn hsp) (.fault s _ _)
  | op3XNN x nn => exact holds_of_next h (exec_op3XNN s x nn) (.skipIf s _)
  | op4XNN x nn => exact holds_of_next h (exec_op4XNN s x nn) (.skipIf s _)
  | op5XY0 x y => exact holds_of_next h (exec_op5XY0 s x y) (.skipIf s _)
  | op6XNN x nn => exact holds_of_next h (exec_op6XNN s x nn) (.writeV s x _)
  | op7XNN x nn => exact holds_of_next h (exec_op7XNN s x nn) (.writeV s x _)
  | op8XY0 x y => exact holds_of_next h (exec_op8XY0 s x y) (.writeV s x _)
  | op8XY1 x y => exact holds_of_next h (exec_op8XY1 s x y) (.writeLogic s x _)
  | op8XY2 x y => exact holds_of_next h (exec_op8XY2 s x y) (.writeLogic s x _)
  | op8XY3 x y => exact holds_of_next h (exec_op8XY3 s x y) (.writeLogic s x _)
  | op8XY4 x y => exact holds_of_next h (exec_op8XY4 s x y) (.writeWithFlag s x _ _)
  | op8XY5 x y => exact holds_of_next h (exec_op8XY5 s x y) (.writeWithFlag s x _ _)
  | op8XY6 x y => exact holds_of_next h (exec_op8XY6 s x y) (.writeWithFlag s x _ _)
  | op8XY7 x y => exact holds_of_next h (exec_op8XY7 s x y) (.writeWithFlag s x _ _)
  | op8XYE x y => exact holds_of_next h (exec_op8XYE s x y) (.writeWithFlag s x _ _)
  | op9XY0 x y => exact holds_of_next h (exec_op9XY0 s x y) (.skipIf s _)
  | opANNN nnn => exact holds_of_next h (exec_opANNN s nnn) (.writeI s _)
  | opBNNN nnn =>
    refine holds_of_next h (exec_opBNNN s nnn) (.inr (.jump _ ?_))
    rw [toNat_wrap16]
    omega
  | opCXNN x nn => exact holds_of_next h (exec_opCXNN s x nn) (.inr (.data _ _ _ _ _))
  | opDXYN x y n =>
    exact holds_of_commit h (exec_opDXYN s x y n) (.fault s _) fun _ _ => .inr (.draw _ _ _ _)
  | opEX9E x => exact holds_of_commit h (exec_opEX9E s x) (.fault s _) fun _ _ => .skipIf s _
  | opEXA1 x => exact holds_of_commit h (exec_opEXA1 s x) (.fault s _) fun _ _ => .skipIf s _
  | opFX07 x => exact holds_of_next h (exec_opFX07 s x) (.writeV s x _)
  | opFX0A x => exact holds_of_next h (exec_opFX0A s x) (.pollKey s x)
  | opFX15 x => exact holds_of_next h (exec_opFX15 s x) (.inr (.data _ _ _ _ _))
  | opFX18 x => exact holds_of_next h (exec_opFX18 s x) (.inr (.data _ _ _ _ _))
  | opFX1E x => exact holds_of_next h (exec_opFX1E s x) (.writeI s _)
  | opFX29 x => exact holds_of_next h (exec_opFX29 s x) (.writeI s _)
  | opFX33 x =>
    refine holds_of_commit h (exec_opFX33 s x) (.fault s _) fun _ hc => ?_
    obtain ⟨hlo, hhi⟩ := range_of_checkWrite hc
    exact .inr (.store _ (bcdDigits (s.readV x)) s.i hlo hhi)
  | opFX55 x =>
    refine holds_of_commit h (exec_opFX55 s x) (.fault s _) fun _ hc => ?_
    obtain ⟨hlo, hhi⟩ := range_of_checkWrite hc
    exact .inr (.store _ _ _ hlo (by rwa [s.length_lowRegs]))
  | opFX65 x =>
    exact holds_of_commit h (exec_opFX65 s x) (.fault s _) fun _ _ => .inr (.data _ _ _ _ _)

/-- Everything STEP can do: nothing in HALTED, a fault, and, where the fetch passed, an instruction that completes or the
advance of a word that is no instruction. -/
theorem step_cases {s t : State} (h : step s = .next t) :
    t = s ∨ Faulted s t ∨ (s.pc.toNat ≤ 4094 ∧ Completes s t) := by
  rcases stepWith_cases exec s with ⟨_, hs⟩ | ⟨_, e, _, hs⟩ | ⟨_, w, i, hf, _, hs⟩ | ⟨_, w, hf, _, hs⟩ | ⟨_, w, _, _, hs⟩
  · exact .inl (holds_of_next (P := (· = s)) h hs rfl)
  · exact .inr (.inl (holds_of_next (P := Faulted s) h hs ⟨_, _, rfl⟩))
  · obtain ⟨_, hpc, _⟩ := State.fetch_ok hf
    rcases exec_faultsOrCompletes (hs.symm.trans h) with hfault | hc
    · exact .inr (.inl hfault)
    · exact .inr (.inr ⟨hpc, hc⟩)
  · obtain ⟨_, hpc, _⟩ := State.fetch_ok hf
    exact .inr (.inr ⟨hpc, holds_of_next h hs (.skip false)⟩)
  · exact .inr (.inl (holds_of_next (P := Faulted s) h hs ⟨_, _, rfl⟩))

/-! ### the invariants: the stores -/

/-- A state with the same stores meets their invariant too. -/
theorem State.StoresOk.of_eq {s t : State} (hs : s.StoresOk) (hcfg : t.cfg = s.cfg) (hmem : t.mem = s.mem)
    (hdisp : t.disp = s.disp) (hrom : t.romImg = s.romImg) : t.StoresOk := by
  unfold State.StoresOk
  rw [hcfg, hmem, hdisp, hrom]
  exact hs

theorem Completes.storesOk {s t : State} (h : Completes s t) (hs : s.StoresOk) : t.StoresOk := by
  obtain ⟨hcfg, hwf, hcells, hlen, hrows, hrom⟩ := id hs
  cases h with
  | clear => exact ⟨hcfg, hwf, hcells, (blankBitmap_isGrid _ _).1, (blankBitmap_isGrid _ _).2, hrom⟩
  | draw rows x0 y0 cols =>
    have hgrid := drawRows_isGrid (g := ⟨s.disp, false, false⟩) rows x0 y0 cols ⟨hlen, hrows⟩
    exact ⟨hcfg, hwf, hcells, hgrid.1, hgrid.2, hrom⟩
  | store a bs i hlo hhi =>
    refine ⟨hcfg, Memory.writeBytes_wf _ _ a bs hwf, ?_, hlen, hrows, hrom⟩
    refine Memory.writeBytes_cells _ _ (fun p => fontLen ≤ p ∧ p < memSize) a bs hcells fun p h1 h2 => ?_
    simp only [fontLen, memSize]
    omega
  | skip c => exact hs.of_eq (by simp) (by simp) (by simp) (by simp)
  | _ => exact hs.of_eq rfl rfl rfl rfl

/-- Settles O54. A fault leaves the stores, and so does every instruction but the display's and the stores', which keep
the grid and write checked addresses only. -/
theorem stepKeepsStoresOk : Obligations.StepKeepsStoresOk := by
  intro s t hs h
  rcases step_cases h with rfl | ⟨w, e, rfl⟩ | ⟨_, hc⟩
  · exact hs
  · exact hs.of_eq rfl rfl rfl rfl
  · exact hc.storesOk hs

/-! ### the invariants: PC and the stack entries -/

theorem State.AddressesOk.stackAt_le {s : State} (hs : s.AddressesOk) (j : Nat) : (s.stackAt j).toNat ≤ 4096 := by
  by_cases hj : j < 12
  · rw [s.stackAt_def j hj]
    exact hs.2 _ (Vector.mem_toList_iff.mpr (Vector.getElem_mem hj))
  · have hzero : s.stackAt j = 0 := List.getD_eq_default _ _ (by simpa using hj)
    simp [hzero]

theorem Completes.addressesOk {s t : State} (h : Completes s t) (hfetch : s.pc.toNat ≤ 4094) (hs : s.AddressesOk) :
    t.AddressesOk := by
  obtain ⟨hpc, hstack⟩ := id hs
  have h2 : (s.pc + 2).toNat = s.pc.toNat + 2 := by bv_omega
  have hadv : (s.pc + 2).toNat ≤ 0x10FE := by omega
  cases h with
  | skip c =>
    cases c with
    | false => exact ⟨hadv, hstack⟩
    | true =>
      have h4 : (s.pc + 2 + 2).toNat = s.pc.toNat + 4 := by bv_omega
      exact ⟨by simp only [State.skipIf_pc, State.advancePC_pc, if_true]; omega, hstack⟩
  | jump w hw => exact ⟨hw, hstack⟩
  | call nnn j hj sp =>
    have hnnn : (addressOf nnn).toNat ≤ 0x10FE := by rw [toNat_addressOf]; omega
    refine ⟨hnnn, fun w hw => ?_⟩
    rw [Vector.toList_set] at hw
    rcases List.mem_or_eq_of_mem_set hw with hold | rfl
    · exact hstack w hold
    · omega
  | ret j sp => exact ⟨(hs.stackAt_le j).trans (by decide), hstack⟩
  | wait => exact hs
  | latch k => exact hs
  | _ => exact ⟨hadv, hstack⟩

/-- Settles O55. An instruction runs only after a fetch at PC ≤ 4094, so its advances reach at most 4098 and its return
address is at most 4096; a jump reaches at most 4095 + 255. -/
theorem stepKeepsAddressesOk : Obligations.StepKeepsAddressesOk := by
  intro s t hs h
  rcases step_cases h with rfl | ⟨w, e, rfl⟩ | ⟨hpc, hc⟩
  · exact hs
  · exact hs
  · exact hc.addressesOk hpc hs

/-! ### the invariants: the halt record -/

theorem Completes.same_haltRecord {s t : State} (h : Completes s t) : Part.same s t .haltRecord := by
  cases h <;> simp [Part.same]

/-- Settles O57. Only a fault writes the halt record, and it records a cause. -/
theorem stepKeepsHaltRecordOk : Obligations.StepKeepsHaltRecordOk := by
  intro s t hs h
  rcases step_cases h with rfl | ⟨w, e, rfl⟩ | ⟨_, hc⟩
  · exact hs
  · simp [State.HaltRecordOk]
  · obtain ⟨hrun, hcause, hpc, hword, hinfo⟩ := hc.same_haltRecord
    unfold State.HaltRecordOk
    rw [hrun, hcause, hpc, hword, hinfo]
    exact hs

/-! ### the invariants: the latch -/

/-- R147: the word at PC is an FX0A exactly when the fetch passes and its word selects one. -/
theorem atKeyWait_eq_true {s : State} :
    s.atKeyWait = true ↔ ∃ w x, s.fetch = .ok w ∧ classify w = .instr (.opFX0A x) := by
  unfold State.atKeyWait
  constructor
  · intro h
    split at h
    · cases h
    · split at h
      · next w hw _ x hx => exact ⟨w, x, hw, hx⟩
      · cases h
  · rintro ⟨w, x, hw, hx⟩
    simp only [hw, hx]

/-- An instruction other than FX0A keeps the latch (R46). -/
theorem exec_same_latch {i : Instr} {s t : State} (h : exec i s = .next t) (hi : ∀ x, i ≠ .opFX0A x) :
    t.kwState = s.kwState ∧ t.kwKey = s.kwKey := by
  refine exec_onlyWrites h .latch ?_
  cases i with
  | opFX0A x => exact absurd rfl (hi x)
  | _ => exact id

/-- A latch that does not wait for a release and is kept meets its invariant, whatever else changes. -/
theorem State.LatchOk.of_not_waiting {s t : State} (hs : s.LatchOk) (hnot : s.kwState ≠ .awaitRelease)
    (hkept : t.kwState = s.kwState ∧ t.kwKey = s.kwKey) : t.LatchOk := by
  obtain ⟨hstate, hkey⟩ := hkept
  unfold State.LatchOk
  rw [hstate, hkey]
  exact ⟨hs.1, fun hw => absurd hw hnot⟩

/-- R283: FX0A, run where its fetch saw it, keeps the latch's rule. -/
theorem pollKey_latchOk {s : State} (x : Reg) (hs : s.LatchOk) (hrun : s.run = .running) (hat : s.atKeyWait = true) :
    (s.advancePC.pollKey x).LatchOk := by
  rcases pollKey_cases s x with h | ⟨k, h⟩ | ⟨b, h⟩ <;> rw [h]
  · exact hs
  · exact ⟨nofun, fun _ => ⟨hrun, hat⟩⟩
  · exact ⟨fun _ => rfl, nofun⟩

/-- R143: STEP where the word fetched selects an instruction. -/
theorem step_of_instr {s : State} {w : Word} {i : Instr} (hrun : s.run = .running) (hf : s.fetch = .ok w)
    (hc : classify w = .instr i) : step s = exec i s := by
  simp only [step, stepWith, hrun, hf, hc]

/-- R283: a STEP that finds an FX0A keeps the latch's rule. -/
theorem step_latchOk_of_keyWait {s t : State} {w : Word} {x : Reg} (hs : s.LatchOk) (hrun : s.run = .running)
    (hf : s.fetch = .ok w) (hc : classify w = .instr (.opFX0A x)) (h : step s = .next t) : t.LatchOk :=
  holds_of_next (P := State.LatchOk) h ((step_of_instr hrun hf hc).trans (exec_opFX0A s x))
    (pollKey_latchOk x hs hrun (atKeyWait_eq_true.mpr ⟨w, x, hf, hc⟩))

/-- Settles O56. A waiting latch makes the word at PC an FX0A, which starts or goes on to wait only where it stays; every
other outcome of STEP finds an idle latch and keeps it. -/
theorem stepKeepsLatchOk : Obligations.StepKeepsLatchOk := by
  intro s t hs h
  by_cases hw : s.kwState = .awaitRelease
  · obtain ⟨hrun, hat⟩ := hs.2 hw
    obtain ⟨w, x, hf, hc⟩ := atKeyWait_eq_true.mp hat
    exact step_latchOk_of_keyWait hs hrun hf hc h
  · have hkept : ∀ u : State, u.kwState = s.kwState ∧ u.kwKey = s.kwKey → u.LatchOk := fun u => hs.of_not_waiting hw
    rcases stepWith_cases exec s with
      ⟨_, hn⟩ | ⟨_, e, _, hn⟩ | ⟨hrun, w, i, hf, hc, hn⟩ | ⟨_, w, _, _, hn⟩ | ⟨_, w, _, _, hn⟩
    · exact holds_of_next h hn (hkept _ ⟨rfl, rfl⟩)
    · exact holds_of_next h hn (hkept _ ⟨rfl, rfl⟩)
    · by_cases hi : ∃ x, i = .opFX0A x
      · obtain ⟨x, rfl⟩ := hi
        exact step_latchOk_of_keyWait hs hrun hf hc h
      · exact hkept t (exec_same_latch (hn.symm.trans h) fun x hx => hi ⟨x, hx⟩)
    · exact holds_of_next h hn (hkept _ ⟨rfl, rfl⟩)
    · exact holds_of_next h hn (hkept _ ⟨rfl, rfl⟩)

end Sys2Proof.Machine

namespace Sys2Proof.Machine

/-! ### the reset values (R51) -/

/-- R51: every cell after LOAD and after RESET: the ROM from 512 on, and elsewhere what an unlisted address reads as. -/
theorem readMem_baseline (c : Config) (rom : List Byte) (k a : Nat) :
    (baseline c rom k).readMem a =
      if 512 ≤ a ∧ a < 512 + rom.length then rom.getD (a - 512) 0 else unlisted c.font a :=
  Memory.read_writeBytes c.font [] 512 a rom

theorem stackAt_baseline (c : Config) (rom : List Byte) (k j : Nat) : (baseline c rom k).stackAt j = 0 := by
  by_cases hj : j < 12
  · rw [State.stackAt_def _ j hj]
    exact Vector.getElem_replicate hj
  · exact List.getD_eq_default _ _ (by simpa using hj)

theorem readV_baseline (c : Config) (rom : List Byte) (k : Nat) (r : Reg) : (baseline c rom k).readV r = 0 :=
  Vector.getElem_replicate r.isLt

theorem key_baseline (c : Config) (rom : List Byte) (k : Nat) (q : Key) : (baseline c rom k).key.get q = false :=
  Vector.getElem_replicate q.isLt

/-- R360: a LOAD that succeeds had a ROM that fits, and answers the reset values. -/
theorem load_ok {c : Config} {rom : List Byte} {k : Nat} {s : State} (h : load c rom k = .ok s) :
    rom.length ≤ romMax ∧ s = baseline c rom k := by
  unfold load at h
  split at h
  · cases h
  · next hlen =>
    cases h
    exact ⟨by omega, rfl⟩

/-- Settles O1: LOAD and RESET both answer the baseline of the ROM and the configuration. -/
theorem loadAndResetLeaveTheResetValues : Obligations.LoadAndResetLeaveTheResetValues := by
  intro c rom k s hlen hs
  obtain ⟨n, rfl⟩ : ∃ n, s = baseline c rom n := by
    rcases hs with hload | ⟨u, rfl, rfl, hreset⟩
    · exact ⟨k, (load_ok hload).2⟩
    · exact ⟨u.draws, hreset⟩
  refine ⟨fun a h => ?_, fun a h1 h2 => ?_, fun j hj => ?_, fun a h1 h2 => ?_, readV_baseline c rom n, rfl, rfl,
    stackAt_baseline c rom n, rfl, rfl, rfl, readPixel_blankBitmap _ _, rfl, key_baseline c rom n, rfl, rfl, rfl, rfl,
    rfl, rfl, rfl, rfl, rfl⟩
  · rw [readMem_baseline, if_neg (by omega), unlisted, dif_pos h]
  · rw [readMem_baseline, if_neg (by omega), unlisted, dif_neg (by omega)]
  · rw [readMem_baseline, if_pos (by omega), Nat.add_sub_cancel_left]
  · rw [readMem_baseline, if_neg (by omega), unlisted, dif_neg (by omega)]

/-! ### the reset values meet the invariants -/

theorem baseline_storesOk {c : Config} {rom : List Byte} (k : Nat) (hc : c.wf) (hlen : rom.length ≤ romMax) :
    (baseline c rom k).StoresOk := by
  obtain ⟨hrows, hcols⟩ := blankBitmap_isGrid c.width c.height
  refine ⟨hc, Memory.writeBytes_wf c.font [] 512 rom ⟨.nil, by simp⟩, ?_, hrows, hcols, hlen⟩
  refine Memory.writeBytes_cells c.font [] (fun p => fontLen ≤ p ∧ p < memSize) 512 rom (by simp) fun p h1 h2 => ?_
  simp only [fontLen, memSize, romMax] at hlen ⊢
  omega

theorem baseline_addressesOk (c : Config) (rom : List Byte) (k : Nat) : (baseline c rom k).AddressesOk := by
  refine ⟨show (512 : Word).toNat ≤ 0x10FE by decide, fun w hw => ?_⟩
  have hzero : w = 0 := by simpa [baseline] using hw
  simp [hzero]

/-- R51, R360: the state of a LOAD meets every invariant when its configuration is legal and its ROM fits. -/
theorem baseline_allOk {c : Config} {rom : List Byte} (k : Nat) (hc : c.wf) (hlen : rom.length ≤ romMax) :
    (baseline c rom k).AllOk :=
  ⟨baseline_storesOk k hc hlen, baseline_addressesOk c rom k, ⟨fun _ => rfl, nofun⟩,
    ⟨fun _ => ⟨rfl, rfl, rfl, rfl⟩, nofun⟩⟩

/-- The model's reset state is the LOAD of an empty ROM (log 8). -/
theorem reset_eq_baseline : State.reset = baseline bootConfig [] 0 := rfl

/-- Settles O58: a LOAD that succeeds, and State.reset, are baselines. -/
theorem loadEstablishesTheInvariants : Obligations.LoadEstablishesTheInvariants := by
  refine ⟨fun c rom k s hc h => ?_, ?_⟩
  · obtain ⟨hlen, rfl⟩ := load_ok h
    exact baseline_allOk k hc hlen
  · rw [reset_eq_baseline]
    exact baseline_allOk 0 (by decide) (Nat.zero_le _)

end Sys2Proof.Machine

namespace Sys2Proof.Machine

/-! ### two machines side by side: what an instruction does not read -/

/-- Both outcomes are next states, and `R` relates them. -/
def BothNext (R : State → State → Prop) (o o' : Host.Outcome State Fault Refusal) : Prop :=
  ∃ t t', o = .next t ∧ o' = .next t' ∧ R t t'

section
variable {R : State → State → Prop} {s s' : State}

theorem BothNext.of_next {t t' : State} (h : R t t') : BothNext R (.next t) (.next t') := ⟨t, t', rfl, rfl, h⟩

/-- R140: rules with the same check `c` fault together or act together. -/
theorem BothNext.of_commit {α : Type} {w : Word} (c : Except Raise α) {f f' : α → State}
    (hfault : ∀ e, R (s.takeFault w e) (s'.takeFault w e)) (hok : ∀ a, R (f a) (f' a)) :
    BothNext R (s.commit w (c.map f)) (s'.commit w (c.map f')) := by
  cases c with
  | error e => exact .of_next (hfault e)
  | ok a => exact .of_next (hok a)

/-- R169: machines that skip on the same condition stay related. -/
theorem related_skipIf (c : Bool) (hstay : R s s') (hskip : R s.advancePC s'.advancePC) :
    R (s.skipIf c) (s'.skipIf c) := by
  cases c with
  | false => exact hstay
  | true => exact hskip

/-- R195 to R197: machines with the same switch write the same registers. -/
theorem related_writeLogic {x : Reg} {b : Byte} (hcfg : s'.cfg = s.cfg) (hmodern : R (s.writeV x b) (s'.writeV x b))
    (hlegacy : R ((s.writeV x b).writeV flagReg 0) ((s'.writeV x b).writeV flagReg 0)) :
    R (s.writeLogic x b) (s'.writeLogic x b) := by
  unfold State.writeLogic
  rw [hcfg]
  split
  · exact hlegacy
  · exact hmodern

/-- R160: machines with the same SP pop the same entry or fault alike. -/
theorem BothNext.of_return (hsp : s'.sp = s.sp) (hfault : ∀ w e, R (s.takeFault w e) (s'.takeFault w e))
    (hret : ∀ j sp, R { s.advancePC with pc := s.stackAt j, sp := sp }
      { s'.advancePC with pc := s'.stackAt j, sp := sp }) :
    BothNext R (exec .op00EE s) (exec .op00EE s') := by
  by_cases h : s.sp = 0
  · exact ⟨_, _, exec_op00EE_of_empty s h, exec_op00EE_of_empty s' (hsp.trans h), hfault _ _⟩
  · have h' := exec_op00EE_of_entry s' (hsp ▸ h)
    simp only [hsp] at h'
    exact ⟨_, _, exec_op00EE_of_entry s h, h', hret _ _⟩

/-- R162: machines with the same SP, stack and PC push the same entry or fault alike. -/
theorem BothNext.of_call (nnn : BitVec 12) (hsp : s'.sp = s.sp) (hstack : s'.stack = s.stack) (hpc : s'.pc = s.pc)
    (hfault : ∀ w e, R (s.takeFault w e) (s'.takeFault w e))
    (hcall : ∀ stack sp, R { s.advancePC with pc := addressOf nnn, stack := stack, sp := sp }
      { s'.advancePC with pc := addressOf nnn, stack := stack, sp := sp }) :
    BothNext R (exec (.op2NNN nnn) s) (exec (.op2NNN nnn) s') := by
  rcases sp_lt_or_eq s with h | h
  · have h' := exec_op2NNN_of_room s' nnn (by rwa [hsp])
    simp only [hsp, hstack, hpc] at h'
    exact ⟨_, _, exec_op2NNN_of_room s nnn h, h', hcall _ _⟩
  · exact ⟨_, _, exec_op2NNN_of_full s nnn h, exec_op2NNN_of_full s' nnn (hsp.trans h), hfault _ _⟩

/-- R283: machines with the same keys and latch poll alike. -/
theorem related_pollKey (x : Reg) (hkey : s'.key = s.key) (hstate : s'.kwState = s.kwState)
    (hlatched : s'.kwKey = s.kwKey) (hwait : R s s')
    (hlatch : ∀ k, R (s.setLatch .awaitRelease k) (s'.setLatch .awaitRelease k))
    (hrelease : ∀ b, R ((s.advancePC.writeV x b).setLatch .idle 0) ((s'.advancePC.writeV x b).setLatch .idle 0)) :
    R (s.advancePC.pollKey x) (s'.advancePC.pollKey x) := by
  have hpressed : s'.pressed = s.pressed := by
    funext k
    simp only [State.pressed, hkey]
  have hleast : s'.leastPressed = s.leastPressed := by
    simp only [State.leastPressed, hpressed]
  cases hw : s.kwState with
  | idle =>
    have hw' := hstate.trans hw
    cases hk : s.leastPressed with
    | none => rwa [pollKey_no_key s x hw hk, pollKey_no_key s' x hw' (hleast.trans hk)]
    | some k =>
      rw [pollKey_latch s x hw hk, pollKey_latch s' x hw' (hleast.trans hk)]
      exact hlatch k
  | awaitRelease =>
    have hw' := hstate.trans hw
    cases hk : s.pressed s.kwKey with
    | true => rwa [pollKey_held s x hw hk, pollKey_held s' x hw' (by rw [hpressed, hlatched, hk])]
    | false =>
      rw [pollKey_release s x hw hk, pollKey_release s' x hw' (by rw [hpressed, hlatched, hk]), hlatched]
      exact hrelease _

end

/-- `t'` is `t` but for ST and REDRAW. -/
def SameButStRedraw (t t' : State) : Prop := t' = { t with st := t'.st, redraw := t'.redraw }

/-- Settles O51. A rule without a branch computes the same values on both machines; a rule that checks, skips or polls
takes the same branch on both. -/
theorem noInstructionReadsStOrRedraw : Obligations.NoInstructionReadsStOrRedraw := by
  intro i s b r
  show BothNext SameButStRedraw (exec i s) (exec i { s with st := b, redraw := r })
  cases i
  case op00EE => exact .of_return rfl (fun _ _ => rfl) fun _ _ => rfl
  case op2NNN nnn => exact .of_call nnn rfl rfl rfl (fun _ _ => rfl) fun _ _ => rfl
  case op3XNN | op4XNN | op5XY0 | op9XY0 => exact .of_next (related_skipIf _ rfl rfl)
  case op8XY1 | op8XY2 | op8XY3 => exact .of_next (related_writeLogic rfl rfl rfl)
  case opEX9E | opEXA1 => exact .of_commit (keyOf _) (fun _ => rfl) fun _ => related_skipIf _ rfl rfl
  case opDXYN | opFX33 | opFX55 | opFX65 => exact .of_commit (checkEach _ _ _) (fun _ => rfl) fun _ => rfl
  case opFX0A x => exact .of_next (related_pollKey x rfl rfl rfl rfl (fun _ => rfl) fun _ => rfl)
  all_goals exact .of_next rfl

/-- `t'` is `t` with KEY as `keys` gives it. -/
def SameWithKeys (keys : Vector Bool 16) (t t' : State) : Prop := t' = { t with key := keys }

/-- Settles O52. An instruction that does not read KEY runs alike whatever KEY holds, and the table of writers lists none
for KEY. -/
theorem onlyKeyInstructionsReadKeys : Obligations.OnlyKeyInstructionsReadKeys := by
  refine ⟨fun i s keys hi => ?_, fun i s t h => Vector.ext fun k hk => exec_onlyWrites h (.key ⟨k, hk⟩) id⟩
  suffices hboth : BothNext (SameWithKeys keys) (exec i s) (exec i { s with key := keys }) by
    obtain ⟨t, _, h, h', rfl⟩ := hboth
    exact ⟨t, h, h'⟩
  cases i
  case opEX9E | opEXA1 | opFX0A => cases hi
  case op00EE => exact .of_return rfl (fun _ _ => rfl) fun _ _ => rfl
  case op2NNN nnn => exact .of_call nnn rfl rfl rfl (fun _ _ => rfl) fun _ _ => rfl
  case op3XNN | op4XNN | op5XY0 | op9XY0 => exact .of_next (related_skipIf _ rfl rfl)
  case op8XY1 | op8XY2 | op8XY3 => exact .of_next (related_writeLogic rfl rfl rfl)
  case opDXYN | opFX33 | opFX55 | opFX65 => exact .of_commit (checkEach _ _ _) (fun _ => rfl) fun _ => rfl
  all_goals exact .of_next rfl

end Sys2Proof.Machine

namespace Sys2Proof.Machine

/-! ### main memory: the font, and bytes stored to be fetched -/

/-- R79: an instruction that completes stores to no cell below 80, the only cells of the font. -/
theorem Completes.readMem_font {s t : State} (h : Completes s t) {a : Nat} (ha : a < 80) :
    t.readMem a = s.readMem a := by
  cases h with
  | skip c => simp
  | store b bs i hlo _ =>
    have hbelow : ¬(b ≤ a ∧ a < b + bs.length) := by omega
    simp [hbelow]
  | _ => rfl

/-- Settles O53. A fault writes only the halt record, and an instruction that completes leaves the font. -/
theorem fontIsNeverMutated : Obligations.FontIsNeverMutated := by
  intro s t h a ha
  rcases step_cases h with rfl | ⟨w, e, rfl⟩ | ⟨_, hc⟩
  · rfl
  · rfl
  · exact hc.readMem_font ha

/-- R88: the byte at the lower address is the high byte of the fetched word. -/
theorem toNat_wordOfBytes (hi lo : Byte) : (wordOfBytes hi lo).toNat = hi.toNat * 256 + lo.toNat := by
  rw [wordOfBytes, BitVec.toNat_append, ← Nat.shiftLeft_add_eq_or_of_lt lo.isLt, Nat.shiftLeft_eq]

/-- R312: a rule that leaves the machine running passed its check, since a fault halts. -/
theorem commit_running {α : Type} {s t : State} {w : Word} {c : Except Raise α} {f : α → State}
    (h : s.commit w (c.map f) = .next t) (ht : t.run = .running) : ∃ a, c = .ok a ∧ t = f a := by
  cases c with
  | error e =>
    cases h
    cases ht
  | ok a =>
    cases h
    exact ⟨a, rfl, rfl⟩

/-- R234: an FX55 that leaves the machine running stored V0 to VX, no cell of them above 4095. -/
theorem exec_opFX55_running {x : Reg} {s t : State} (h : exec (.opFX55 x) s = .next t) (ht : t.run = .running) :
    s.i.toNat + x.val ≤ 4095 ∧
      t = (s.advancePC.writeBytes s.i.toNat (s.lowRegs x)).writeI (indexAfter s.cfg s.i x) := by
  rw [exec_opFX55] at h
  obtain ⟨_, hcheck, htarget⟩ := commit_running h ht
  obtain ⟨_, hhi⟩ := range_of_checkWrite hcheck
  exact ⟨by omega, htarget⟩

/-- R234: the cell I + q holds Vq after an FX55 that leaves the machine running. -/
theorem readMem_of_exec_opFX55 {x q : Reg} {s t : State} (h : exec (.opFX55 x) s = .next t) (ht : t.run = .running)
    (hq : q ≤ x) : t.readMem (s.i.toNat + q.val) = s.readV q := by
  obtain ⟨_, rfl⟩ := exec_opFX55_running h ht
  have hstored : s.i.toNat ≤ s.i.toNat + q.val ∧ s.i.toNat + q.val < s.i.toNat + (s.lowRegs x).length := by
    have : q.val ≤ x.val := hq
    rw [s.length_lowRegs]
    omega
  rw [State.readMem_writeI, State.readMem_writeBytes, if_pos hstored, Nat.add_sub_cancel_left,
    List.getD_eq_getElem?_getD, s.getElem?_lowRegs x q.val hq, Option.getD_some]

/-- Settles O42. The fetch passes, since FX55 stored below 4096, and reads the two cells FX55 left. -/
theorem storedBytesAreFetched : Obligations.StoredBytesAreFetched := by
  intro x q r s t u _ h ht hq hr hrq hmem hpc hlo heven
  obtain ⟨hhi, _⟩ := exec_opFX55_running h ht
  have hpc4094 : u.pc.toNat ≤ 4094 := by
    have : r.val ≤ x.val := hr
    omega
  have hfirst : u.readMem u.pc.toNat = s.readV q := by
    rw [hmem, hpc, readMem_of_exec_opFX55 h ht hq]
  have hsecond : u.readMem (u.pc.toNat + 1) = s.readV r := by
    rw [hmem, hpc, Nat.add_assoc, ← hrq, readMem_of_exec_opFX55 h ht hr]
  refine ⟨_, State.fetch_of_range hlo hpc4094 heven, ?_⟩
  rw [toNat_wordOfBytes, hfirst, hsecond]

end Sys2Proof.Machine

namespace Sys2Proof

/-! ### the rows of the opcode map exclude each other (R106) -/

/-- Two digits of patterns that no nibble matches both: different literals. -/
def digitsClash : Option (BitVec 4) → Option (BitVec 4) → Bool
  | some k, some l => k != l
  | _, _ => false

/-- Two patterns that differ in a literal digit. -/
def rowsClash (r q : OpcodeRow) : Bool :=
  digitsClash r.d3 q.d3 || digitsClash r.d2 q.d2 || digitsClash r.d1 q.d1 || digitsClash r.d0 q.d0

@[simp] theorem digitMatches_none (b : BitVec 4) : digitMatches none b = true := rfl

@[simp] theorem digitMatches_some (k b : BitVec 4) : digitMatches (some k) b = (b == k) := rfl

theorem rowMatches_iff {w : Word} {r : OpcodeRow} :
    rowMatches w r = true ↔ digitMatches r.d3 (nibbleAt w 12) = true ∧ digitMatches r.d2 (nibbleAt w 8) = true ∧
      digitMatches r.d1 (nibbleAt w 4) = true ∧ digitMatches r.d0 (nibbleAt w 0) = true := by
  simp only [rowMatches, Bool.and_eq_true, and_assoc]

theorem digitsClash_eq_false {d e : Option (BitVec 4)} {b : BitVec 4} (hd : digitMatches d b = true)
    (he : digitMatches e b = true) : digitsClash d e = false := by
  cases d with
  | none => rfl
  | some k =>
    cases e with
    | none => rfl
    | some l =>
      obtain rfl : b = k := eq_of_beq hd
      obtain rfl : b = l := eq_of_beq he
      exact bne_self_eq_false b

theorem rowsClash_eq_false {w : Word} {r q : OpcodeRow} (hr : rowMatches w r = true) (hq : rowMatches w q = true) :
    rowsClash r q = false := by
  obtain ⟨hr3, hr2, hr1, hr0⟩ := rowMatches_iff.mp hr
  obtain ⟨hq3, hq2, hq1, hq0⟩ := rowMatches_iff.mp hq
  simp only [rowsClash, digitsClash_eq_false hr3 hq3, digitsClash_eq_false hr2 hq2, digitsClash_eq_false hr1 hq1,
    digitsClash_eq_false hr0 hq0, Bool.or_self]

/-- A fact about the 34 patterns alone; what it says of words is `rowsClash_eq_false`. -/
theorem opcodeRows_clash : opcodeRows.Pairwise (fun r q => rowsClash r q = true) := by decide

theorem opcodeRows_exclusive (w : Word) :
    opcodeRows.Pairwise (fun r q => ¬ (rowMatches w r = true ∧ rowMatches w q = true)) :=
  opcodeRows_clash.imp fun hclash ⟨hr, hq⟩ => absurd hclash (by simp [rowsClash_eq_false hr hq])

/-- The first row a word matches is the row it matches, since it matches no other. -/
theorem find?_of_rowMatches {w : Word} {r : OpcodeRow} (hmem : r ∈ opcodeRows) (hr : rowMatches w r = true) :
    opcodeRows.find? (rowMatches w) = some r := by
  obtain ⟨before, after, hsplit⟩ := List.append_of_mem hmem
  have hpair := opcodeRows_exclusive w
  rw [hsplit, List.pairwise_append] at hpair
  obtain ⟨-, -, hbefore⟩ := hpair
  rw [List.find?_eq_some_iff_append]
  refine ⟨hr, before, after, hsplit, fun q hq => ?_⟩
  simpa [hr] using hbefore q hq r List.mem_cons_self

/-! ### match and mask (R108) -/

theorem cat4_and (a b c d a' b' c' d' : BitVec 4) :
    (a ++ b ++ c ++ d : BitVec 16) &&& (a' ++ b' ++ c' ++ d' : BitVec 16) =
      ((a &&& a') ++ (b &&& b') ++ (c &&& c') ++ (d &&& d') : BitVec 16) := by
  have h : (a ++ b ++ c ++ d) &&& (a' ++ b' ++ c' ++ d') = (a &&& a') ++ (b &&& b') ++ (c &&& c') ++ (d &&& d') := by
    simp only [BitVec.and_append]
  exact h

theorem cat4_inj {a b c d a' b' c' d' : BitVec 4} :
    (a ++ b ++ c ++ d : BitVec 16) = (a' ++ b' ++ c' ++ d' : BitVec 16) ↔ a = a' ∧ b = b' ∧ c = c' ∧ d = d' := by
  constructor
  · intro h
    obtain ⟨ha, hb, hc, hd⟩ := nibbleAt_cat4 a b c d
    obtain ⟨ha', hb', hc', hd'⟩ := nibbleAt_cat4 a' b' c' d'
    rw [h] at ha hb hc hd
    exact ⟨ha.symm.trans ha', hb.symm.trans hb', hc.symm.trans hc', hd.symm.trans hd'⟩
  · rintro ⟨rfl, rfl, rfl, rfl⟩
    rfl

theorem rowMatches_iff_mask (w : Word) (r : OpcodeRow) : rowMatches w r = true ↔ w &&& rowMask r = rowMatch r := by
  have hw : w &&& rowMask r = ((nibbleAt w 12 &&& digitMask r.d3) ++ (nibbleAt w 8 &&& digitMask r.d2) ++
      (nibbleAt w 4 &&& digitMask r.d1) ++ (nibbleAt w 0 &&& digitMask r.d0) : BitVec 16) := by
    rw [← cat4_and, cat4_nibbleAt, rowMask]
  rw [hw, rowMatch, cat4_inj, rowMatches_iff]
  simp only [digitMatches_iff_mask]

/-- Settles O11. The table is the patterns evaluated; masking a word masks its four nibbles; two rows differ in a literal
digit. -/
theorem opcodeMapIsTheMatchAndMaskTable : Obligations.OpcodeMapIsTheMatchAndMaskTable :=
  ⟨by decide, fun w r _ => rowMatches_iff_mask w r, opcodeRows_exclusive⟩

/-! ### the fields of a word as numbers (R102, R103) -/

theorem toNat_nibbleAt (w : Word) (lo : Nat) : (nibbleAt w lo).toNat = w.toNat / 2 ^ lo % 16 := by
  rw [nibbleAt, BitVec.extractLsb'_toNat, Nat.shiftRight_eq_div_pow]

theorem decode_toNat_t (w : Word) : (decode w).t.toNat = w.toNat / 4096 := by
  have h : (decode w).t.toNat = w.toNat / 4096 % 16 := toNat_nibbleAt w 12
  omega

theorem decode_val_x (w : Word) : (decode w).x.val = w.toNat / 256 % 16 := toNat_nibbleAt w 8

theorem decode_val_y (w : Word) : (decode w).y.val = w.toNat / 16 % 16 := toNat_nibbleAt w 4

theorem decode_toNat_n (w : Word) : (decode w).n.toNat = w.toNat % 16 := by
  have h : (decode w).n.toNat = w.toNat / 1 % 16 := toNat_nibbleAt w 0
  omega

theorem decode_toNat_nn (w : Word) : (decode w).nn.toNat = w.toNat % 256 := by
  simp [decode]

theorem decode_toNat_nnn (w : Word) : (decode w).nnn.toNat = w.toNat % 4096 := by
  simp [decode]

/-! ### every word is put together from its fields (R103) -/

theorem wordA_decode (w : Word) : wordA (decode w).t (decode w).nnn = w := by
  apply BitVec.eq_of_toNat_eq
  rw [toNat_wordA, decode_toNat_t, decode_toNat_nnn]
  omega

theorem wordXK_decode (w : Word) : wordXK (decode w).t (decode w).x (decode w).nn = w := by
  apply BitVec.eq_of_toNat_eq
  rw [toNat_wordXK, decode_toNat_t, decode_val_x, decode_toNat_nn]
  omega

theorem wordXY_decode (w : Word) : wordXY (decode w).t (decode w).x (decode w).y (decode w).n = w := by
  apply BitVec.eq_of_toNat_eq
  rw [toNat_wordXY, decode_toNat_t, decode_val_x, decode_val_y, decode_toNat_n]
  omega

theorem decode_wellFormed (w : Word) : (decode w).wellFormed = true := by
  have hA := congrArg BitVec.toNat (wordA_decode w)
  have hXK := congrArg BitVec.toNat (wordXK_decode w)
  have hXY := congrArg BitVec.toNat (wordXY_decode w)
  rw [toNat_wordA] at hA
  rw [toNat_wordXK] at hXK
  rw [toNat_wordXY] at hXY
  simp only [InstrRecord.wellFormed, Bool.and_eq_true, decide_eq_true_eq]
  exact ⟨⟨hA.symm, hXK.symm⟩, hXY.symm⟩

/-- Settles O13, field by field. -/
theorem decodeExtractsEveryField : Obligations.DecodeExtractsEveryField := fun w =>
  ⟨rfl, decode_toNat_t w, decode_val_x w, decode_val_y w, decode_toNat_n w, decode_toNat_nn w, decode_toNat_nnn w,
    decode_wellFormed w⟩

/-! ### the fields of the words the encoder makes -/

@[simp] theorem decode_wordA_nnn (t : BitVec 4) (nnn : BitVec 12) : (decode (wordA t nnn)).nnn = nnn :=
  nnn_wordA t nnn

@[simp] theorem decode_wordXK_x (t : BitVec 4) (x : Reg) (nn : Byte) : (decode (wordXK t x nn)).x = x := by
  simp [decode]

@[simp] theorem decode_wordXK_nn (t : BitVec 4) (x : Reg) (nn : Byte) : (decode (wordXK t x nn)).nn = nn :=
  nn_wordXK t x nn

@[simp] theorem decode_wordXY_x (t : BitVec 4) (x y : Reg) (n : BitVec 4) : (decode (wordXY t x y n)).x = x := by
  simp [decode]

@[simp] theorem decode_wordXY_y (t : BitVec 4) (x y : Reg) (n : BitVec 4) : (decode (wordXY t x y n)).y = y := by
  simp [decode]

@[simp] theorem decode_wordXY_n (t : BitVec 4) (x y : Reg) (n : BitVec 4) : (decode (wordXY t x y n)).n = n :=
  nibbleAt_wordXY_0 t x y n

/-! ### the class of a word of each shape whose row is in the map (R104) -/

theorem classify_of_build {w : Word} {r : OpcodeRow} {i : Instr} (hrow : r ∈ opcodeRows) (hr : rowMatches w r = true)
    (hbuild : r.build (decode w) = i) : classify w = .instr i := by
  rw [classify_of_find (find?_of_rowMatches hrow hr), hbuild]

theorem classify_wordA {t : BitVec 4} {f : BitVec 12 → Instr}
    (hrow : ⟨some t, none, none, none, fun r => f r.nnn⟩ ∈ opcodeRows) (nnn : BitVec 12) :
    classify (wordA t nnn) = .instr (f nnn) :=
  classify_of_build hrow (by simp [rowMatches]) (by simp)

theorem classify_wordXK {t : BitVec 4} {f : Reg → Byte → Instr}
    (hrow : ⟨some t, none, none, none, fun r => f r.x r.nn⟩ ∈ opcodeRows) (x : Reg) (nn : Byte) :
    classify (wordXK t x nn) = .instr (f x nn) :=
  classify_of_build hrow (by simp [rowMatches]) (by simp)

/-- Shape XK where the row fixes NN by its two low digits (families E and F). -/
theorem classify_wordXK_of_literal {t : BitVec 4} {nn : Byte} {f : Reg → Instr}
    (hrow : ⟨some t, none, some (nn.extractLsb' 4 4), some (nn.extractLsb' 0 4), fun r => f r.x⟩ ∈ opcodeRows)
    (x : Reg) : classify (wordXK t x nn) = .instr (f x) :=
  classify_of_build hrow (by simp [rowMatches]) (by simp)

theorem classify_wordXY {t n : BitVec 4} {f : Reg → Reg → Instr}
    (hrow : ⟨some t, none, none, some n, fun r => f r.x r.y⟩ ∈ opcodeRows) (x y : Reg) :
    classify (wordXY t x y n) = .instr (f x y) :=
  classify_of_build hrow (by simp [rowMatches]) (by simp)

theorem classify_wordXYN {t : BitVec 4} {f : Reg → Reg → BitVec 4 → Instr}
    (hrow : ⟨some t, none, none, none, fun r => f r.x r.y r.n⟩ ∈ opcodeRows) (x y : Reg) (n : BitVec 4) :
    classify (wordXY t x y n) = .instr (f x y n) :=
  classify_of_build hrow (by simp [rowMatches]) (by simp)

/-- R108: the class of an instruction's own word, by the shape of the word. -/
theorem classify_encode {i : Instr} (hi : i.wellFormed = true) : classify (encode i) = .instr i := by
  cases i
  case op00E0 | op00EE => decide
  case op1NNN nnn | op2NNN nnn | opANNN nnn | opBNNN nnn =>
    exact classify_wordA (by simp [opcodeRows, opcodeRowsLow, opcodeRowsHigh]) nnn
  case op3XNN x nn | op4XNN x nn | op6XNN x nn | op7XNN x nn | opCXNN x nn =>
    exact classify_wordXK (by simp [opcodeRows, opcodeRowsLow, opcodeRowsHigh]) x nn
  case op5XY0 x y | op9XY0 x y =>
    exact classify_wordXY (by simp [opcodeRows, opcodeRowsLow, opcodeRowsHigh]) x y
  case op8XY0 x y | op8XY1 x y | op8XY2 x y | op8XY3 x y | op8XY4 x y | op8XY5 x y | op8XY6 x y | op8XY7 x y
      | op8XYE x y =>
    exact classify_wordXY (by simp [opcodeRows, opcodeRowsAlu]) x y
  case opDXYN x y n =>
    have hn : (BitVec.ofNat 4 n).toNat = n := Nat.mod_eq_of_lt (of_decide_eq_true hi)
    have h := classify_wordXYN (t := 0xD) (f := fun x y n => .opDXYN x y n.toNat)
      (by simp [opcodeRows, opcodeRowsHigh]) x y (BitVec.ofNat 4 n)
    rwa [hn] at h
  case opEX9E x | opEXA1 x | opFX07 x | opFX0A x | opFX15 x | opFX18 x | opFX1E x | opFX29 x | opFX33 x | opFX55 x
      | opFX65 x =>
    exact classify_wordXK_of_literal (by simp [opcodeRows, opcodeRowsMisc]) x

/-- R75: the two bytes of a word, the high byte first, give the word back. -/
theorem wordOfBytes_highByte_lowByte (w : Word) : wordOfBytes (highByte w) (lowByte w) = w :=
  BitVec.extractLsb'_append_extractLsb'

/-- Settles O9. The two bytes give the instruction's word back, and that word's class is the instruction. -/
theorem decodingAnEncodedInstructionGivesItBack : Obligations.DecodingAnEncodedInstructionGivesItBack := by
  intro i rest hi
  show decodeBytes (highByte (encode i) :: lowByte (encode i) :: rest) = .ok (i, rest)
  simp only [decodeBytes, wordOfBytes_highByte_lowByte, classify_encode hi]

/-- Settles O14: closed evaluations of the decoder. -/
theorem sampleWordsDecode : Obligations.SampleWordsDecode := by
  unfold Obligations.SampleWordsDecode
  decide

/-! ### a row's instruction keeps every bit of a word that matches the row (R108) -/

/-- The instruction a row makes of a word that matches it is well formed and has that word. -/
def EncodesBack (r : OpcodeRow) : Prop :=
  ∀ w, rowMatches w r = true → (r.build (decode w)).wellFormed = true ∧ encode (r.build (decode w)) = w

/-- A row of four literal digits. -/
theorem EncodesBack.ofWord {i : Instr} {a b c d : BitVec 4} (hi : i.wellFormed = true)
    (hword : encode i = (a ++ b ++ c ++ d : BitVec 16)) :
    EncodesBack ⟨some a, some b, some c, some d, fun _ => i⟩ := by
  intro w hr
  simp only [rowMatches_iff, digitMatches_some, beq_iff_eq] at hr
  obtain ⟨rfl, rfl, rfl, rfl⟩ := hr
  exact ⟨hi, hword.trans (cat4_nibbleAt w)⟩

theorem EncodesBack.ofA {t : BitVec 4} {f : BitVec 12 → Instr}
    (hf : ∀ nnn, (f nnn).wellFormed = true ∧ encode (f nnn) = wordA t nnn) :
    EncodesBack ⟨some t, none, none, none, fun r => f r.nnn⟩ := by
  intro w hr
  obtain ⟨ht, -⟩ := rowMatches_iff.mp hr
  obtain rfl : (decode w).t = t := eq_of_beq ht
  exact ⟨(hf _).1, (hf _).2.trans (wordA_decode w)⟩

theorem EncodesBack.ofXK {t : BitVec 4} {f : Reg → Byte → Instr}
    (hf : ∀ x nn, (f x nn).wellFormed = true ∧ encode (f x nn) = wordXK t x nn) :
    EncodesBack ⟨some t, none, none, none, fun r => f r.x r.nn⟩ := by
  intro w hr
  obtain ⟨ht, -⟩ := rowMatches_iff.mp hr
  obtain rfl : (decode w).t = t := eq_of_beq ht
  exact ⟨(hf _ _).1, (hf _ _).2.trans (wordXK_decode w)⟩

theorem EncodesBack.ofXY {t n : BitVec 4} {f : Reg → Reg → Instr}
    (hf : ∀ x y, (f x y).wellFormed = true ∧ encode (f x y) = wordXY t x y n) :
    EncodesBack ⟨some t, none, none, some n, fun r => f r.x r.y⟩ := by
  intro w hr
  obtain ⟨ht, -, -, hn⟩ := rowMatches_iff.mp hr
  obtain rfl : (decode w).t = t := eq_of_beq ht
  obtain rfl : (decode w).n = n := eq_of_beq hn
  exact ⟨(hf _ _).1, (hf _ _).2.trans (wordXY_decode w)⟩

theorem EncodesBack.ofXYN {t : BitVec 4} {f : Reg → Reg → BitVec 4 → Instr}
    (hf : ∀ x y n, (f x y n).wellFormed = true ∧ encode (f x y n) = wordXY t x y n) :
    EncodesBack ⟨some t, none, none, none, fun r => f r.x r.y r.n⟩ := by
  intro w hr
  obtain ⟨ht, -⟩ := rowMatches_iff.mp hr
  obtain rfl : (decode w).t = t := eq_of_beq ht
  exact ⟨(hf _ _ _).1, (hf _ _ _).2.trans (wordXY_decode w)⟩

theorem decode_nn_of_nibbles {w : Word} {nn : Byte} (hhi : nibbleAt w 4 = nn.extractLsb' 4 4)
    (hlo : nibbleAt w 0 = nn.extractLsb' 0 4) : (decode w).nn = nn := by
  have hhi' := congrArg BitVec.toNat hhi
  have hlo' := congrArg BitVec.toNat hlo
  simp only [toNat_nibbleAt, BitVec.extractLsb'_toNat, Nat.shiftRight_eq_div_pow] at hhi' hlo'
  apply BitVec.eq_of_toNat_eq
  rw [decode_toNat_nn]
  omega

/-- A row that fixes NN by its two low digits. -/
theorem EncodesBack.ofX (nn : Byte) {t : BitVec 4} {f : Reg → Instr}
    (hf : ∀ x, (f x).wellFormed = true ∧ encode (f x) = wordXK t x nn) :
    EncodesBack ⟨some t, none, some (nn.extractLsb' 4 4), some (nn.extractLsb' 0 4), fun r => f r.x⟩ := by
  intro w hr
  obtain ⟨ht, -, hhi, hlo⟩ := rowMatches_iff.mp hr
  obtain rfl : (decode w).t = t := eq_of_beq ht
  obtain rfl : (decode w).nn = nn := decode_nn_of_nibbles (eq_of_beq hhi) (eq_of_beq hlo)
  exact ⟨(hf _).1, (hf _).2.trans (wordXK_decode w)⟩

theorem opcodeRowsLow_encodesBack : ∀ r ∈ opcodeRowsLow, EncodesBack r := by
  simp only [opcodeRowsLow, List.forall_mem_cons]
  exact ⟨.ofWord rfl rfl, .ofWord rfl rfl, .ofA fun _ => ⟨rfl, rfl⟩, .ofA fun _ => ⟨rfl, rfl⟩,
    .ofXK fun _ _ => ⟨rfl, rfl⟩, .ofXK fun _ _ => ⟨rfl, rfl⟩, .ofXY fun _ _ => ⟨rfl, rfl⟩,
    .ofXK fun _ _ => ⟨rfl, rfl⟩, .ofXK fun _ _ => ⟨rfl, rfl⟩, List.forall_mem_nil _⟩

theorem opcodeRowsAlu_encodesBack : ∀ r ∈ opcodeRowsAlu, EncodesBack r := by
  simp only [opcodeRowsAlu, List.forall_mem_cons]
  exact ⟨.ofXY fun _ _ => ⟨rfl, rfl⟩, .ofXY fun _ _ => ⟨rfl, rfl⟩, .ofXY fun _ _ => ⟨rfl, rfl⟩,
    .ofXY fun _ _ => ⟨rfl, rfl⟩, .ofXY fun _ _ => ⟨rfl, rfl⟩, .ofXY fun _ _ => ⟨rfl, rfl⟩,
    .ofXY fun _ _ => ⟨rfl, rfl⟩, .ofXY fun _ _ => ⟨rfl, rfl⟩, .ofXY fun _ _ => ⟨rfl, rfl⟩, List.forall_mem_nil _⟩

/-- R105: a nibble is a row count below 16, and the encoder keeps it. -/
theorem encode_opDXYN_toNat (x y : Reg) (n : BitVec 4) :
    (Instr.opDXYN x y n.toNat).wellFormed = true ∧ encode (.opDXYN x y n.toNat) = wordXY 0xD x y n :=
  ⟨decide_eq_true n.isLt, by rw [encode, BitVec.ofNat_toNat, BitVec.setWidth_eq]⟩

theorem opcodeRowsHigh_encodesBack : ∀ r ∈ opcodeRowsHigh, EncodesBack r := by
  simp only [opcodeRowsHigh, List.forall_mem_cons]
  exact ⟨.ofXY fun _ _ => ⟨rfl, rfl⟩, .ofA fun _ => ⟨rfl, rfl⟩, .ofA fun _ => ⟨rfl, rfl⟩,
    .ofXK fun _ _ => ⟨rfl, rfl⟩, .ofXYN encode_opDXYN_toNat, List.forall_mem_nil _⟩

theorem opcodeRowsMisc_encodesBack : ∀ r ∈ opcodeRowsMisc, EncodesBack r := by
  simp only [opcodeRowsMisc, List.forall_mem_cons]
  exact ⟨.ofX 0x9E fun _ => ⟨rfl, rfl⟩, .ofX 0xA1 fun _ => ⟨rfl, rfl⟩, .ofX 0x07 fun _ => ⟨rfl, rfl⟩,
    .ofX 0x0A fun _ => ⟨rfl, rfl⟩, .ofX 0x15 fun _ => ⟨rfl, rfl⟩, .ofX 0x18 fun _ => ⟨rfl, rfl⟩,
    .ofX 0x1E fun _ => ⟨rfl, rfl⟩, .ofX 0x29 fun _ => ⟨rfl, rfl⟩, .ofX 0x33 fun _ => ⟨rfl, rfl⟩,
    .ofX 0x55 fun _ => ⟨rfl, rfl⟩, .ofX 0x65 fun _ => ⟨rfl, rfl⟩, List.forall_mem_nil _⟩

theorem mem_opcodeRows {r : OpcodeRow} :
    r ∈ opcodeRows ↔ r ∈ opcodeRowsLow ∨ r ∈ opcodeRowsAlu ∨ r ∈ opcodeRowsHigh ∨ r ∈ opcodeRowsMisc := by
  simp only [opcodeRows, List.mem_append, or_assoc]

theorem opcodeRows_encodesBack {r : OpcodeRow} (hr : r ∈ opcodeRows) : EncodesBack r := by
  rcases mem_opcodeRows.mp hr with h | h | h | h
  · exact opcodeRowsLow_encodesBack r h
  · exact opcodeRowsAlu_encodesBack r h
  · exact opcodeRowsHigh_encodesBack r h
  · exact opcodeRowsMisc_encodesBack r h

/-- Settles O10. A classified word matches the row that makes its instruction, and every row keeps the word's bits. -/
theorem encodingAClassifiedWordGivesItBack : Obligations.EncodingAClassifiedWordGivesItBack := by
  intro w i h
  obtain ⟨r, hmem, hr, rfl⟩ := classify_instr h
  exact opcodeRows_encodesBack hmem w hr

/-! ### the words that match a row of each shape, as numbers -/

theorem digitMatches_nibbleAt (k : BitVec 4) (w : Word) (lo : Nat) :
    digitMatches (some k) (nibbleAt w lo) = true ↔ w.toNat / 2 ^ lo % 16 = k.toNat := by
  rw [digitMatches_some, beq_iff_eq, ← BitVec.toNat_inj, toNat_nibbleAt]

section
variable {w : Word} {a b c d : BitVec 4} {build : InstrRecord → Instr}

theorem rowMatches_word : rowMatches w ⟨some a, some b, some c, some d, build⟩ = true ↔
    w.toNat = a.toNat * 4096 + b.toNat * 256 + c.toNat * 16 + d.toNat := by
  simp only [rowMatches_iff, digitMatches_nibbleAt]
  omega

theorem rowMatches_family : rowMatches w ⟨some a, none, none, none, build⟩ = true ↔ w.toNat / 4096 = a.toNat := by
  simp only [rowMatches_iff, digitMatches_nibbleAt, digitMatches_none, and_true]
  omega

theorem rowMatches_family_n : rowMatches w ⟨some a, none, none, some d, build⟩ = true ↔
    w.toNat / 4096 = a.toNat ∧ w.toNat % 16 = d.toNat := by
  simp only [rowMatches_iff, digitMatches_nibbleAt, digitMatches_none, true_and]
  omega

theorem rowMatches_family_nn : rowMatches w ⟨some a, none, some c, some d, build⟩ = true ↔
    w.toNat / 4096 = a.toNat ∧ w.toNat % 256 = c.toNat * 16 + d.toNat := by
  simp only [rowMatches_iff, digitMatches_nibbleAt, digitMatches_none, true_and]
  omega

end

/-! ### the words that match a row of each table (R107) -/

/-- Some row of a table matches the word. -/
def Selects (rows : List OpcodeRow) (w : Word) : Prop := ∃ r ∈ rows, rowMatches w r = true

theorem selects_low (w : Word) : Selects opcodeRowsLow w ↔
    w.toNat = 0x00E0 ∨ w.toNat = 0x00EE ∨ w.toNat / 4096 ∈ [0x1, 0x2, 0x3, 0x4] ∨
      (w.toNat / 4096 = 0x5 ∧ w.toNat % 16 = 0x0) ∨ w.toNat / 4096 ∈ [0x6, 0x7] := by
  simp [Selects, opcodeRowsLow, rowMatches_word, rowMatches_family, rowMatches_family_n, or_assoc]

theorem selects_alu (w : Word) : Selects opcodeRowsAlu w ↔
    w.toNat / 4096 = 0x8 ∧ w.toNat % 16 ∈ [0x0, 0x1, 0x2, 0x3, 0x4, 0x5, 0x6, 0x7, 0xE] := by
  simp [Selects, opcodeRowsAlu, rowMatches_family_n, ← and_or_left]

theorem selects_high (w : Word) : Selects opcodeRowsHigh w ↔
    (w.toNat / 4096 = 0x9 ∧ w.toNat % 16 = 0x0) ∨ w.toNat / 4096 ∈ [0xA, 0xB, 0xC, 0xD] := by
  simp [Selects, opcodeRowsHigh, rowMatches_family, rowMatches_family_n]

theorem selects_misc (w : Word) : Selects opcodeRowsMisc w ↔
    (w.toNat / 4096 = 0xE ∧ w.toNat % 256 ∈ [0x9E, 0xA1]) ∨
      (w.toNat / 4096 = 0xF ∧ w.toNat % 256 ∈ [0x07, 0x0A, 0x15, 0x18, 0x1E, 0x29, 0x33, 0x55, 0x65]) := by
  simp [Selects, opcodeRowsMisc, rowMatches_family_nn, and_or_left, or_assoc]

theorem selects_opcodeRows (w : Word) : Selects opcodeRows w ↔
    Selects opcodeRowsLow w ∨ Selects opcodeRowsAlu w ∨ Selects opcodeRowsHigh w ∨ Selects opcodeRowsMisc w := by
  simp only [Selects, mem_opcodeRows, or_and_right, exists_or]

/-! ### the words that match no row (R109, R110) -/

theorem disputedRecord_decode (w : Word) : disputedRecord (decode w) = true ↔
    (w.toNat / 4096 = 0x0 ∧ (w.toNat % 16 = 0x0 ∨ w.toNat % 16 = 0xE)) ∨ w.toNat / 4096 = 0x5 ∨ w.toNat / 4096 = 0x9 ∨
      (w.toNat / 4096 = 0xE ∧ (w.toNat % 16 = 0x1 ∨ w.toNat % 16 = 0xE)) := by
  simp [disputedRecord, ← BitVec.toNat_inj, decode_toNat_t, decode_toNat_n, or_assoc]

theorem find?_eq_none_iff (w : Word) : opcodeRows.find? (rowMatches w) = none ↔ ¬ Selects opcodeRows w := by
  simp [Selects]

theorem classify_eq_unrecognized_iff (w : Word) :
    classify w = .unrecognized ↔ ¬ Selects opcodeRows w ∧ ¬ disputedRecord (decode w) = true := by
  rw [← find?_eq_none_iff, classify]
  cases opcodeRows.find? (rowMatches w) with
  | some r => simp
  | none => simp

theorem classify_eq_disputed_iff (w : Word) :
    classify w = .disputed ↔ ¬ Selects opcodeRows w ∧ disputedRecord (decode w) = true := by
  rw [← find?_eq_none_iff, classify]
  cases opcodeRows.find? (rowMatches w) with
  | some r => simp
  | none => simp

/-- Settles O12, one family digit after the other: in each, the words that match no row are those the tables name. -/
theorem otherWordsAreUnrecognizedOrDisputed : Obligations.OtherWordsAreUnrecognizedOrDisputed := by
  intro w
  dsimp only
  have ht : w.toNat / 4096 < 16 := by omega
  have hn : w.toNat % 16 < 16 := by omega
  have hE0 : w.toNat = 0x00E0 → w.toNat / 4096 = 0x0 ∧ w.toNat % 16 = 0x0 := by omega
  have hEE : w.toNat = 0x00EE → w.toNat / 4096 = 0x0 ∧ w.toNat % 16 = 0xE := by omega
  rw [classify_eq_unrecognized_iff, classify_eq_disputed_iff, selects_opcodeRows, selects_low, selects_alu,
    selects_high, selects_misc, disputedRecord_decode]
  generalize w.toNat / 4096 = t at *
  generalize w.toNat % 16 = n at *
  generalize w.toNat % 256 = nn at *
  interval_cases t <;> simp_all <;> omega

end Sys2Proof

namespace Sys2Proof.Machine

/-! ### every step answers a next state (R111) -/

theorem exec_total (i : Instr) (s : State) : ∃ t, exec i s = .next t := by
  obtain ⟨rule, hrule⟩ := exec_is_rule i
  rw [hrule]
  exact runRule_total _ rule s

theorem step_total (s : State) : ∃ t, step s = .next t := by
  rcases stepWith_cases exec s with ⟨_, hs⟩ | ⟨_, e, _, hs⟩ | ⟨_, w, i, _, _, hs⟩ | ⟨_, w, _, _, hs⟩ | ⟨_, w, _, _, hs⟩
  · exact ⟨_, hs⟩
  · exact ⟨_, hs⟩
  · obtain ⟨t, ht⟩ := exec_total i s
    exact ⟨t, hs.trans ht⟩
  · exact ⟨_, hs⟩
  · exact ⟨_, hs⟩

/-- Settles O20. Every instruction is the frame of a step around a rule, and the frame answers a next state whether the
rule raises or not. -/
theorem everyStepAnswersANextState : Obligations.EveryStepAnswersANextState := ⟨exec_total, step_total⟩

end Sys2Proof.Machine

namespace Sys2Proof.Machine

/-! ### STEP in each case of the dispatch (R140, R144, R145, R148) -/

section
variable {s : State} {w : Word} {e : Raise}

/-- R148. -/
theorem step_of_halted (hrun : s.run = .halted) : step s = .next s := by
  simp only [step, stepWith, hrun]

theorem step_of_fetch_error (hrun : s.run = .running) (hf : s.fetch = .error e) : step s = .next (s.takeFault 0 e) := by
  simp only [step, stepWith, hrun, hf]

theorem step_of_unrecognized (hrun : s.run = .running) (hf : s.fetch = .ok w) (hc : classify w = .unrecognized) :
    step s = .next s.advancePC := by
  simp only [step, stepWith, hrun, hf, hc]

theorem step_of_disputed (hrun : s.run = .running) (hf : s.fetch = .ok w) (hc : classify w = .disputed) :
    step s = .next (s.takeFault w ⟨.disputedEncoding, w.toNat⟩) := by
  simp only [step, stepWith, hrun, hf, hc]

end

/-! ### the three checks of the fetch (R141) and what a fault leaves (R312) -/

theorem State.fetch_of_outOfRange {s : State} (h : 4094 < s.pc.toNat) :
    s.fetch = .error ⟨.fetchOutOfRange, s.pc.toNat⟩ := if_pos h

theorem State.fetch_of_misaligned {s : State} (hle : s.pc.toNat ≤ 4094) (hodd : s.pc.toNat % 2 = 1) :
    s.fetch = .error ⟨.fetchMisaligned, s.pc.toNat⟩ := by
  unfold State.fetch
  dsimp only
  rw [if_neg (by omega), if_pos hodd]

theorem State.fetch_of_outsideProgram {s : State} (hlt : s.pc.toNat < 512) (heven : s.pc.toNat % 2 = 0) :
    s.fetch = .error ⟨.fetchOutsideProgram, s.pc.toNat⟩ := by
  unfold State.fetch
  dsimp only
  rw [if_neg (by omega), if_neg (by omega), if_pos hlt]

theorem haltsWith_takeFault (s : State) (w : Word) (e : Raise) :
    HaltsWith s (s.takeFault w e) (faultCode (some e.cause)) w e.info :=
  ⟨rfl, rfl, rfl, rfl, rfl, rfl, onlyWrites_takeFault s w e⟩

/-- R141: a check that fails halts with its cause, the word 0 and its info. -/
theorem step_haltsWith_of_fetch_error {s : State} {e : Raise} (hrun : s.run = .running) (hf : s.fetch = .error e) :
    ∃ t, step s = .next t ∧ HaltsWith s t (faultCode (some e.cause)) 0 e.info :=
  ⟨_, step_of_fetch_error hrun hf, haltsWith_takeFault s 0 e⟩

/-! ### the dispatch -/

/-- Settles O16. Each range of PC makes one check fail, and the step halts with that check's cause; where all three pass,
the word is the big-endian value of the two cells. -/
theorem fetchChecksInOrder : Obligations.FetchChecksInOrder := by
  intro s hrun
  refine ⟨fun h => ?outOfRange, fun hle hodd => ?misaligned, fun hlt heven => ?outsideProgram,
    fun hlo hhi heven => ?passes⟩
  case outOfRange => exact step_haltsWith_of_fetch_error hrun (State.fetch_of_outOfRange h)
  case misaligned => exact step_haltsWith_of_fetch_error hrun (State.fetch_of_misaligned hle hodd)
  case outsideProgram => exact step_haltsWith_of_fetch_error hrun (State.fetch_of_outsideProgram hlt heven)
  case passes => exact ⟨_, State.fetch_of_range hlo hhi heven, toNat_wordOfBytes _ _⟩

/-- Settles O15: the step's instruction is the class of the word, and a class keeps the word (O10). -/
theorem stepRunsTheDecodedInstruction : Obligations.StepRunsTheDecodedInstruction := by
  intro s w i hrun hf hc
  obtain ⟨hwf, hword⟩ := encodingAClassifiedWordGivesItBack w i hc
  exact ⟨step_of_instr hrun hf hc, hword, hwf⟩

/-- Settles O17: the step is the fetch's advance alone. -/
theorem unrecognizedWordOnlyAdvancesPc : Obligations.UnrecognizedWordOnlyAdvancesPc :=
  fun s _ hrun hf hc => ⟨_, step_of_unrecognized hrun hf hc, rfl, onlyWrites_advancePC s⟩

/-- Settles O18: the step is fault entry from the state the fetch saw. -/
theorem disputedWordFaults : Obligations.DisputedWordFaults :=
  fun s w hrun hf hc => ⟨_, step_of_disputed hrun hf hc, haltsWith_takeFault s w _⟩

/-! ### the host's operations on a halted machine (R148) -/

/-- R330. -/
theorem toNat_countDown (b : Byte) : (countDown b).toNat = b.toNat - 1 := by
  unfold countDown
  split
  · rw [BitVec.toNat_ofNat, Nat.mod_eq_of_lt (by omega)]
  · omega

theorem key_setKey_self (s : State) (k : Key) (b : Bool) : (s.setKey k b).key.get k = b :=
  Vector.getElem_set_self k.isLt

theorem load_run {c : Config} {rom : List Byte} {k : Nat} {s : State} (h : load c rom k = .ok s) :
    s.run = .running := by
  rw [(load_ok h).2]
  rfl

theorem applyToMachine_load {c : Config} {rom : List Byte} {k : Nat} {s t : State}
    (h : applyToMachine (.load c rom k) s = .next (some t)) : load c rom k = .ok t := by
  have hsome : (load c rom k).toOption = some t := Host.Outcome.next.inj h
  cases hload : load c rom k with
  | error e => rw [hload] at hsome; cases hsome
  | ok u => rw [hload] at hsome; cases hsome; rfl

theorem applyToMachine_step_of_halted {s : State} (hs : s.run = .halted) :
    applyToMachine .step s = .next (some s) := by
  simp only [applyToMachine, step_of_halted hs]

/-- R148: after LOAD and RESET the machine runs; after every other operation RUN is as before. -/
theorem run_applyToMachine_of_halted {s t : State} {op : HostOp} (hs : s.run = .halted)
    (h : applyToMachine op s = .next (some t)) : t.run = .running ↔ op = .reset ∨ isLoad op = true := by
  cases op with
  | load c rom k => exact iff_of_true (load_run (applyToMachine_load h)) (.inr rfl)
  | reset => cases h; exact iff_of_true rfl (.inl rfl)
  | step => rw [applyToMachine_step_of_halted hs] at h; cases h; simp [hs, isLoad]
  | tick | setKey _ _ | read | clearRedraw => cases h; simp [hs, isLoad]

/-- Settles O19, one operation of the host after the other. -/
theorem onlyLoadAndResetLeaveHalted : Obligations.OnlyLoadAndResetLeaveHalted := by
  refine ⟨fun s hs => step_of_halted hs, fun s _ => ⟨?dt, ?st, key_setKey_self s⟩, fun s t op hs h => ?run⟩
  case dt => exact toNat_countDown s.dt
  case st => exact toNat_countDown s.st
  case run => exact run_applyToMachine_of_halted hs h

end Sys2Proof.Machine

namespace Sys2Proof.Machine

/-! ### call and return (R160, R162) -/

/-- R160: a return that finds an entry, in the terms of the stack. -/
theorem exec_op00EE_pops {s : State} (h : s.sp ≠ 0) :
    ∃ t, exec .op00EE s = .next t ∧ t.sp.val = s.sp.val - 1 ∧ t.pc = s.stackAt (s.sp.val - 1) ∧
      OnlyWrites (fun p => p = .stackPointer) s t :=
  ⟨_, exec_op00EE_of_entry s h, rfl, rfl,
    ((onlyWrites_pop s.advancePC (if_neg fun hsp => h (Fin.ext hsp))).writePC _).of_advancePC fun _ => id⟩

/-- R162: a call that finds room, in the terms of the stack. -/
theorem exec_op2NNN_pushes {s : State} (nnn : BitVec 12) (h : s.sp.val < 12) :
    ∃ t, exec (.op2NNN nnn) s = .next t ∧ t.sp.val = s.sp.val + 1 ∧ t.stackAt s.sp.val = s.pc + 2 ∧
      t.pc.toNat = nnn.toNat ∧ OnlyWrites (fun p => p = .stackPointer ∨ p = .stackEntry s.sp.val) s t :=
  ⟨_, exec_op2NNN_of_room s nnn h, rfl, (State.stackAt_def _ _ h).trans (Vector.getElem_set_self h),
    toNat_addressOf nnn, ((onlyWrites_push s.advancePC (dif_pos h)).writePC (addressOf nnn)).of_advancePC fun _ => id⟩

/-- Settles O22: the pop answers the entry below SP, and on an empty stack it raises. -/
theorem returnPopsPc : Obligations.ReturnPopsPc :=
  ⟨rfl, fun s => ⟨exec_op00EE_pops, fun h => ⟨_, exec_op00EE_of_empty s h, haltsWith_takeFault s _ _⟩⟩⟩

/-- Settles O24: the push writes the entry at SP, and on a full stack it raises. -/
theorem callPushesTheReturnAddress : Obligations.CallPushesTheReturnAddress := fun nnn s =>
  ⟨toNat_wordA 0x2 nnn, exec_op2NNN_pushes nnn,
    fun h => ⟨_, exec_op2NNN_of_full s nnn h, haltsWith_takeFault s _ _⟩⟩

/-- Settles O28. The return pops the entry the call pushed, so PC is the call's PC + 2 and SP is back; of the parts the
two write only the entry is left changed. -/
theorem returnUndoesCall : Obligations.ReturnUndoesCall := by
  intro nnn s t hroom hcall
  obtain ⟨t', hcall', hsp, hentry, _, hframe⟩ := exec_op2NNN_pushes nnn hroom
  obtain rfl : t' = t := Host.Outcome.next.inj (hcall'.symm.trans hcall)
  have hne : t'.sp ≠ 0 := fun h => by simp [h] at hsp
  obtain ⟨u, hret, hsp', hpc, hframe'⟩ := exec_op00EE_pops hne
  have htop : t'.sp.val - 1 = s.sp.val := by omega
  rw [htop] at hsp' hpc
  refine ⟨u, hret, hpc.trans hentry, fun p hp => ?_⟩
  by_cases hstackPointer : p = .stackPointer
  · subst hstackPointer
    exact Fin.ext hsp'
  · exact Part.same_trans (hframe p (by tauto)) (hframe' p hstackPointer)

/-! ### jumps and skips (R161, R163 to R167) -/

theorem onlyWrites_advancePC_writePC (s : State) (w : Word) :
    OnlyWrites (fun _ => False) s (s.advancePC.writePC w) := (onlyWrites_advancePC s).writePC w

theorem onlyWrites_advancePC_skipIf (s : State) (c : Bool) :
    OnlyWrites (fun _ => False) s (s.advancePC.skipIf c) := (onlyWrites_skipIf _ c).of_advancePC fun _ => id

/-- R169: a skip moves PC by 2 beyond the fetch's advance. -/
theorem pc_advancePC_skipIf (s : State) (c : Bool) :
    (s.advancePC.skipIf c).pc = if c then s.pc + 4 else s.pc + 2 := by
  rw [State.skipIf_pc, State.advancePC_pc, BitVec.add_assoc]
  rfl

/-- R163, R165. -/
theorem pc_advancePC_skipIf_beq (s : State) (a b : Byte) :
    (s.advancePC.skipIf (a == b)).pc = if a = b then s.pc + 4 else s.pc + 2 := by
  simp only [pc_advancePC_skipIf, beq_iff_eq]

/-- R164, R166. -/
theorem pc_advancePC_skipIf_bne (s : State) (a b : Byte) :
    (s.advancePC.skipIf (a != b)).pc = if a = b then s.pc + 2 else s.pc + 4 := by
  simp only [pc_advancePC_skipIf, bne_iff_ne, ite_not]

/-- Settles O23: BNNN's sum is at most 4095 + 255, so storing it in 16 bits reduces nothing. -/
theorem jumpsLoadPc : Obligations.JumpsLoadPc := by
  intro nnn s
  have hsum : (wrap16 (nnn.toNat + (s.readV 0).toNat)).toNat = nnn.toNat + (s.readV 0).toNat := by
    rw [toNat_wrap16]
    omega
  exact ⟨toNat_wordA 0x1 nnn, toNat_wordA 0xB nnn,
    ⟨_, exec_op1NNN s nnn, toNat_addressOf nnn, onlyWrites_advancePC_writePC s _⟩,
    ⟨_, exec_opBNNN s nnn, hsum, onlyWrites_advancePC_writePC s _⟩⟩

/-- Settles O25, by what a skip does to PC and by its frame. -/
theorem constantSkips : Obligations.ConstantSkips := fun x nn s =>
  ⟨toNat_wordXK 0x3 x nn, toNat_wordXK 0x4 x nn,
    ⟨_, exec_op3XNN s x nn, pc_advancePC_skipIf_beq s _ _, onlyWrites_advancePC_skipIf s _⟩,
    ⟨_, exec_op4XNN s x nn, pc_advancePC_skipIf_bne s _ _, onlyWrites_advancePC_skipIf s _⟩⟩

/-- Settles O26, by what a skip does to PC and by its frame. -/
theorem registerSkips : Obligations.RegisterSkips := fun x y s =>
  ⟨toNat_wordXY 0x5 x y 0x0, toNat_wordXY 0x9 x y 0x0,
    ⟨_, exec_op5XY0 s x y, pc_advancePC_skipIf_beq s _ _, onlyWrites_advancePC_skipIf s _⟩,
    ⟨_, exec_op9XY0 s x y, pc_advancePC_skipIf_bne s _ _, onlyWrites_advancePC_skipIf s _⟩⟩

/-! ### the self-jump (R168) -/

theorem advancePC_writePC_pc (s : State) : s.advancePC.writePC s.pc = s := rfl

/-- Settles O27: a halted machine stays as it is, and a running one jumps back to the PC the fetch advanced from. -/
theorem selfJumpIsAFixedPoint : Obligations.SelfJumpIsAFixedPoint := by
  intro s nnn hfetch hself
  cases hrun : s.run with
  | halted => exact step_of_halted hrun
  | running =>
    have htarget : addressOf nnn = s.pc := BitVec.eq_of_toNat_eq ((toNat_addressOf nnn).trans hself)
    calc step s = exec (.op1NNN nnn) s := step_of_instr hrun hfetch (classify_encode rfl)
      _ = .next (s.advancePC.writePC (addressOf nnn)) := exec_op1NNN s nnn
      _ = .next s := by rw [htarget, advancePC_writePC_pc]

end Sys2Proof.Machine

namespace Sys2Proof.Machine

/-! ### the alu's words and functions (R107, R191) -/

/-- R103: the words of family 8, N next to the family digit. -/
theorem toNat_wordXY_alu (x y : Reg) (n : BitVec 4) :
    (wordXY 0x8 x y n).toNat = 0x8000 + n.toNat + x.val * 256 + y.val * 16 := by
  rw [toNat_wordXY]
  have hfamily : (0x8 : BitVec 4).toNat = 8 := rfl
  omega

theorem add8_eq (a b : Byte) : add8 a b = a + b :=
  BitVec.eq_of_toNat_eq (toNat_add8 a b)

/-- R200, R202: the source of a shift, known by its value in each mode. -/
theorem shiftSource_eq {c : Config} {vx vy src : Byte} (hlegacy : c.qShiftVy = true → src = vy)
    (hmodern : c.qShiftVy = false → src = vx) : shiftSource c vx vy = src := by
  unfold shiftSource
  cases hq : c.qShiftVy with
  | true => exact (hlegacy hq).symm
  | false => exact (hmodern hq).symm

/-! ### VX and the flag (R190) -/

theorem readV_writeWithFlag_target {x : Reg} (hx : x ≠ flagReg) (s : State) (b : Byte) (f : Bool) :
    (s.writeWithFlag x b f).readV x = b := by
  rw [State.readV_writeWithFlag, if_neg hx, if_pos rfl]

theorem readV_writeWithFlag_flagReg (s : State) (x : Reg) (b : Byte) (f : Bool) :
    (s.writeWithFlag x b f).readV flagReg = flagByte f := by
  rw [State.readV_writeWithFlag, if_pos rfl]

/-- R190: every register but VF ends as a plain write of VX leaves it. -/
theorem readV_writeWithFlag_of_ne_flagReg {q : Reg} (hq : q ≠ flagReg) (s : State) (x : Reg) (b : Byte) (f : Bool) :
    (s.writeWithFlag x b f).readV q = if q = x then b else s.readV q := by
  rw [State.readV_writeWithFlag, if_neg hq]

/-- R190: all that an instruction that writes VX and then the flag leaves. -/
theorem flagged_result {o : Host.Outcome State Fault Refusal} {s : State} {x : Reg} {b : Byte} {f : Bool}
    (h : o = .next (s.advancePC.writeWithFlag x b f)) :
    ∃ t, o = .next t ∧ t.pc = s.pc + 2 ∧ (x ≠ flagReg → t.readV x = b) ∧ t.readV flagReg = flagByte f ∧
      OnlyWrites (fun p => p = .reg x ∨ p = .reg flagReg) s t :=
  ⟨_, h, rfl, fun hx => readV_writeWithFlag_target hx _ b f, readV_writeWithFlag_flagReg _ x b f,
    (onlyWrites_writeWithFlag _ x b f).of_advancePC fun _ => id⟩

/-! ### logic (R195 to R197) -/

/-- A logic instruction leaves what its rule says, when its result combines the two registers bit by bit. -/
theorem logicResult_writeLogic {f : Bool → Bool → Bool} {x y : Reg} {s : State} {b : Byte}
    (hb : ∀ j, j < 8 → b.getLsbD j = f ((s.readV x).getLsbD j) ((s.readV y).getLsbD j)) :
    LogicResult f x y s (s.advancePC.writeLogic x b) := by
  refine ⟨State.writeLogic_pc _ x b, fun hlegacy => ?flag, fun hkept j hj => ?result,
    (onlyWrites_writeLogic _ x b).of_advancePC fun _ => id⟩
  case flag => rw [State.readV_writeLogic, if_pos ⟨hlegacy, rfl⟩]
  case result =>
    have hnotCleared : ¬ (s.cfg.qLogicVf = true ∧ x = flagReg) := by
      rintro ⟨hlegacy, hx⟩
      exact hkept.elim (by simp [hlegacy]) fun hne => hne hx
    rw [State.readV_writeLogic, State.advancePC_cfg, if_neg hnotCleared, if_pos rfl]
    exact hb j hj

/-- Settles O30: each of the three results is the operation on bits, place by place. -/
theorem logicInstructions : Obligations.LogicInstructions := fun x y s =>
  ⟨toNat_wordXY_alu x y 0x1, toNat_wordXY_alu x y 0x2, toNat_wordXY_alu x y 0x3,
    ⟨_, exec_op8XY1 s x y, logicResult_writeLogic fun _ _ => BitVec.getLsbD_or⟩,
    ⟨_, exec_op8XY2 s x y, logicResult_writeLogic fun _ _ => BitVec.getLsbD_and⟩,
    ⟨_, exec_op8XY3 s x y, logicResult_writeLogic fun _ _ => BitVec.getLsbD_xor⟩⟩

/-! ### sums, differences and shifts (R198 to R202) -/

/-- Settles O31: the result and the flag are the sum's remainder and quotient by 256. -/
theorem addWithCarry : Obligations.AddWithCarry := by
  intro x y s
  obtain ⟨t, hexec, hpc, hsum, hflag, hframe⟩ := flagged_result (exec_op8XY4 s x y)
  refine ⟨toNat_wordXY_alu x y 0x4, t, hexec, hpc, fun hx => ?_, ?_, hframe⟩
  · rw [hsum hx, toNat_add8]
  · rw [hflag, toNat_carryOut]

/-- R199, R201: what a subtraction of `b` from `a` into VX leaves. -/
theorem subtraction_result {o : Host.Outcome State Fault Refusal} {s : State} {x : Reg} {a b : Byte}
    (h : o = .next (s.advancePC.writeWithFlag x (sub8 a b) (noBorrow a b))) :
    ∃ t, o = .next t ∧ t.pc = s.pc + 2 ∧ (x ≠ flagReg → t.readV x = a - b) ∧
      t.readV flagReg = (if a.toNat < b.toNat then 0 else 1) ∧
      OnlyWrites (fun p => p = .reg x ∨ p = .reg flagReg) s t := by
  rw [sub8_eq] at h
  rw [← flagByte_noBorrow]
  exact flagged_result h

/-- Settles O32: the two are one subtraction with its operands exchanged. -/
theorem subtractWithNoBorrow : Obligations.SubtractWithNoBorrow := fun x y s =>
  ⟨toNat_wordXY_alu x y 0x5, toNat_wordXY_alu x y 0x7, subtraction_result (exec_op8XY5 s x y),
    subtraction_result (exec_op8XY7 s x y)⟩

/-- Settles O33: in each mode `src` is the shift's source, and the flag is the bit its half or double drops. -/
theorem shiftsByOne : Obligations.ShiftsByOne := by
  intro x y s
  refine ⟨toNat_wordXY_alu x y 0x6, toNat_wordXY_alu x y 0xE, fun src hlegacy hmodern => ?_⟩
  have hsrc : shiftSource s.cfg (s.readV x) (s.readV y) = src := shiftSource_eq hlegacy hmodern
  constructor
  case left =>
    obtain ⟨t, hexec, hpc, hshift, hflag, hframe⟩ := flagged_result (exec_op8XY6 s x y)
    rw [hsrc] at hshift hflag
    refine ⟨t, hexec, hpc, fun hx => ?_, ?_, hframe⟩
    · rw [hshift hx, toNat_shr1]
    · rw [hflag, toNat_shiftedOutRight]
  case right =>
    obtain ⟨t, hexec, hpc, hshift, hflag, hframe⟩ := flagged_result (exec_op8XYE s x y)
    rw [hsrc] at hshift hflag
    refine ⟨t, hexec, hpc, fun hx => ?_, ?_, hframe⟩
    · rw [hshift hx, toNat_shl1]
    · rw [hflag, toNat_shiftedOutLeft]

/-- Settles O36. Neither instruction writes a register but VX and VF, so the subtraction takes away what was added. -/
theorem addThenSubtractRestores : Obligations.AddThenSubtractRestores := by
  intro x y s t u hxy hx hy hadd hsub r hr
  obtain rfl := Host.Outcome.next.inj ((exec_op8XY4 s x y).symm.trans hadd)
  obtain rfl := Host.Outcome.next.inj ((exec_op8XY5 _ x y).symm.trans hsub)
  rw [readV_writeWithFlag_of_ne_flagReg hr]
  by_cases hrx : r = x
  · subst hrx
    rw [if_pos rfl, readV_writeWithFlag_target hx, readV_writeWithFlag_of_ne_flagReg hy, if_neg hxy.symm, sub8_eq,
      add8_eq]
    exact BitVec.add_sub_cancel _ _
  · rw [if_neg hrx, State.readV_advancePC, readV_writeWithFlag_of_ne_flagReg hr, if_neg hrx, State.readV_advancePC]

/-! ### constants, copies and the random byte (R192 to R194, R203) -/

theorem onlyWrites_advancePC_writeV (s : State) (x : Reg) (b : Byte) :
    OnlyWrites (fun p => p = .reg x) s (s.advancePC.writeV x b) := (onlyWrites_writeV _ x b).of_advancePC fun _ => id

/-- Settles O29: each is one write of VX after the fetch's advance. -/
theorem loadAddAndCopy : Obligations.LoadAddAndCopy := by
  intro x y nn s
  have hsum : ((s.advancePC.writeV x (add8 (s.readV x) nn)).readV x).toNat = ((s.readV x).toNat + nn.toNat) % 256 := by
    rw [State.readV_writeV_same, toNat_add8]
  exact ⟨toNat_wordXK 0x6 x nn, toNat_wordXK 0x7 x nn, toNat_wordXY 0x8 x y 0x0,
    ⟨_, exec_op6XNN s x nn, State.readV_writeV_same _ x _, rfl, onlyWrites_advancePC_writeV s x _⟩,
    ⟨_, exec_op7XNN s x nn, hsum, rfl, onlyWrites_advancePC_writeV s x _⟩,
    ⟨_, exec_op8XY0 s x y, State.readV_writeV_same _ x _, rfl, onlyWrites_advancePC_writeV s x _⟩⟩

/-- Settles O34: VX is read back as the masked byte, and a mask and its complement share no bit. -/
theorem randomByteIsMasked : Obligations.RandomByteIsMasked := by
  intro x nn s
  have hread : (s.advancePC.nextDraw.writeV x (s.draw &&& nn)).readV x = s.draw &&& nn := State.readV_writeV_same _ x _
  refine ⟨toNat_wordXK 0xC x nn, _, exec_opCXNN s x nn, hread, ?masked, rfl, rfl,
    ((onlyWrites_nextDraw _).seq (onlyWrites_writeV _ x _)).of_advancePC fun _ => Or.symm⟩
  case masked =>
    rw [hread, BitVec.and_assoc, BitVec.and_not_self]
    exact BitVec.and_zero

/-! ### two writes of one register (R204) -/

theorem writeV_writeV (s : State) (x : Reg) (a b : Byte) : (s.writeV x a).writeV x b = s.writeV x b := by
  simp only [State.writeV, Vector.set_set]

theorem advancePC_writeV (s : State) (x : Reg) (b : Byte) : (s.writeV x b).advancePC = s.advancePC.writeV x b := rfl

/-- Settles O35: the second write replaces the first, and adds to the constant the first one wrote. -/
theorem loadThenAddIsOneLoad : Obligations.LoadThenAddIsOneLoad := by
  intro x a b s t u v hload hadd hone
  obtain rfl := Host.Outcome.next.inj ((exec_op6XNN s x a).symm.trans hload)
  obtain rfl := Host.Outcome.next.inj ((exec_op7XNN _ x b).symm.trans hadd)
  obtain rfl := Host.Outcome.next.inj ((exec_op6XNN s x _).symm.trans hone)
  calc (s.advancePC.writeV x a).advancePC.writeV x (add8 ((s.advancePC.writeV x a).readV x) b)
      = (s.advancePC.writeV x a).advancePC.writeV x (add8 a b) := by rw [State.readV_writeV_same]
    _ = (s.advancePC.writeV x (add8 a b)).advancePC := by rw [advancePC_writeV, writeV_writeV, advancePC_writeV]

end Sys2Proof.Machine

namespace Sys2Proof.Machine

/-- R103: the words of family F. -/
theorem toNat_wordXK_misc (x : Reg) (nn : Byte) : (wordXK 0xF x nn).toNat = 0xF000 + nn.toNat + x.val * 256 := by
  rw [toNat_wordXK]
  have hfamily : (0xF : BitVec 4).toNat = 15 := rfl
  omega

/-! ### rules that check addresses (R78 to R80) -/

/-- R312: a rule whose check raises halts with what the check raised. -/
theorem haltsWith_of_check_error {α : Type} {o : Host.Outcome State Fault Refusal} {s : State} {w : Word}
    {c : Except Raise α} {f : α → State} {e : Raise} (ho : o = s.commit w (c.map f)) (hc : c = .error e) :
    ∃ t, o = .next t ∧ HaltsWith s t (faultCode (some e.cause)) w e.info := by
  subst hc
  exact ⟨_, ho, haltsWith_takeFault s w e⟩

section
variable {a n : Nat}

theorem checkRead_ok (h : a + n ≤ 4095) : checkEach checkRead a (n + 1) = .ok () := by
  rw [checkEach_checkRead, if_pos (by omega)]

theorem checkRead_error (h : 4095 < a + n) : checkEach checkRead a (n + 1) = .error ⟨.memOutOfRange, max a 4096⟩ := by
  rw [checkEach_checkRead, if_neg (by omega)]

theorem checkWrite_ok (hlo : 80 ≤ a) (hhi : a + n ≤ 4095) : checkEach checkWrite a (n + 1) = .ok () := by
  rw [checkEach_checkWrite, if_neg (by omega), if_pos hhi]

theorem checkWrite_error_of_font (h : a < 80) : checkEach checkWrite a (n + 1) = .error ⟨.fontWrite, a⟩ := by
  rw [checkEach_checkWrite, if_pos h]

theorem checkWrite_error_of_above (hlo : 80 ≤ a) (hhi : 4095 < a + n) :
    checkEach checkWrite a (n + 1) = .error ⟨.memOutOfRange, max a 4096⟩ := by
  rw [checkEach_checkWrite, if_neg (by omega), if_neg (by omega)]

/-- R233, R234: the two faults of a rule that stores at most 16 cells. So few cells do not reach past 4095 from the font,
so the two do not meet. -/
theorem store_haltsWith {o : Host.Outcome State Fault Refusal} {s : State} {w : Word} {f : Unit → State}
    (ho : o = s.commit w ((checkEach checkWrite a (n + 1)).map f)) (hn : n < 16) :
    (4095 < a + n → ∃ t, o = .next t ∧ HaltsWith s t 6 w (max a 4096)) ∧
    (a < 80 → ∃ t, o = .next t ∧ HaltsWith s t 7 w a) := by
  constructor
  · intro hhi
    exact haltsWith_of_check_error ho (checkWrite_error_of_above (by omega) hhi)
  · intro hfont
    exact haltsWith_of_check_error ho (checkWrite_error_of_font hfont)

end

/-! ### the cells stored, and I afterwards (R233 to R235) -/

theorem readMem_writeBytes_offset {bs : List Byte} {k : Nat} {b : Byte} (s : State) (a : Nat) (h : bs[k]? = some b) :
    (s.writeBytes a bs).readMem (a + k) = b := by
  obtain ⟨hk, _⟩ := List.getElem?_eq_some_iff.mp h
  rw [State.readMem_writeBytes, if_pos (by omega), Nat.add_sub_cancel_left, List.getD_eq_getElem?_getD, h,
    Option.getD_some]

/-- R234, R235: in legacy mode I ends past the last cell, which lies below 4096. -/
theorem toNat_indexAfter {c : Config} {i : Word} {x : Reg} (h : i.toNat + x.val ≤ 4095) (hq : c.qMemIncI = true) :
    (indexAfter c i x).toNat = i.toNat + x.val + 1 := by
  rw [indexAfter, if_pos hq, toNat_wrap16]
  omega

section
variable {s : State} {x : Reg}

theorem exec_opFX33_of_range (hlo : 80 ≤ s.i.toNat) (hhi : s.i.toNat + 2 ≤ 4095) :
    exec (.opFX33 x) s = .next (s.advancePC.writeBytes s.i.toNat (bcdDigits (s.readV x))) := by
  rw [exec_opFX33, checkWrite_ok hlo hhi]
  rfl

theorem exec_opFX55_of_range (hlo : 80 ≤ s.i.toNat) (hhi : s.i.toNat + x.val ≤ 4095) :
    exec (.opFX55 x) s =
      .next ((s.advancePC.writeBytes s.i.toNat (s.lowRegs x)).writeI (indexAfter s.cfg s.i x)) := by
  rw [exec_opFX55, checkWrite_ok hlo hhi]
  rfl

theorem exec_opFX65_of_range (hhi : s.i.toNat + x.val ≤ 4095) :
    exec (.opFX65 x) s = .next ((s.advancePC.loadLowRegs s.i.toNat x).writeI (indexAfter s.cfg s.i x)) := by
  rw [exec_opFX65, checkRead_ok hhi]
  rfl

/-- R235. -/
theorem readV_exec_opFX65_target {q : Reg} (hq : q ≤ x) (w : Word) :
    ((s.advancePC.loadLowRegs s.i.toNat x).writeI w).readV q = s.readMem (s.i.toNat + q.val) := by
  rw [State.readV_writeI, State.readV_loadLowRegs, if_pos hq, State.readMem_advancePC]

end

/-! ### index and memory -/

/-- Settles O38. The three cells hold the digits `bcdDigits` lists, none of which a byte cuts; the check of three cells
answers the faults. -/
theorem bcdStoresThreeDigits : Obligations.BcdStoresThreeDigits := by
  intro x s
  refine ⟨toNat_wordXK_misc x 0x33, fun hlo hhi => ?completes, store_haltsWith (exec_opFX33 s x) (by decide)⟩
  case completes =>
    have hundreds := readMem_writeBytes_offset (bs := bcdDigits (s.readV x)) (k := 0) s.advancePC s.i.toNat rfl
    have tens := readMem_writeBytes_offset (bs := bcdDigits (s.readV x)) (k := 1) s.advancePC s.i.toNat rfl
    have ones := readMem_writeBytes_offset (bs := bcdDigits (s.readV x)) (k := 2) s.advancePC s.i.toNat rfl
    rw [Nat.add_zero] at hundreds
    refine ⟨_, exec_opFX33_of_range hlo hhi, rfl, ?sum, ?first, ?second, ?third,
      (onlyWrites_writeBytes _ _ _).of_advancePC ?frame⟩
    case frame =>
      rintro _ ⟨q, hq, hlt, rfl⟩
      exact ⟨q, hq, Nat.le_of_lt_succ hlt, rfl⟩
    all_goals
      simp only [hundreds, tens, ones, toNat_wrap8]
      omega

/-- Settles O39. Cell I + q is byte q of V0 to VX; the check of X + 1 cells answers the faults. -/
theorem storeRegistersToMemory : Obligations.StoreRegistersToMemory := by
  intro x s
  refine ⟨toNat_wordXK_misc x 0x55, fun hlo hhi => ?completes, store_haltsWith (exec_opFX55 s x) x.isLt⟩
  case completes =>
    refine ⟨_, exec_opFX55_of_range hlo hhi, rfl,
      fun q hq => readMem_writeBytes_offset _ _ (s.getElem?_lowRegs x q.val hq), toNat_indexAfter hhi,
      ((onlyWrites_writeBytes s.advancePC _ _).seq
        (onlyWrites_writeI_indexAfter s.i x (s.advancePC.writeBytes_i _ _))).of_advancePC ?frame⟩
    case frame =>
      rintro _ (⟨a, ha, hlt, rfl⟩ | hindex)
      · rw [s.length_lowRegs] at hlt
        exact .inl ⟨a, ha, by omega, rfl⟩
      · exact .inr hindex

/-- Settles O40. The loaded registers read the cells, which the fetch's advance leaves; the check of X + 1 cells answers
the fault. -/
theorem loadRegistersFromMemory : Obligations.LoadRegistersFromMemory := fun x s =>
  ⟨toNat_wordXK_misc x 0x65,
    fun hhi => ⟨_, exec_opFX65_of_range hhi, rfl, fun _ hq => readV_exec_opFX65_target hq _, toNat_indexAfter hhi,
      ((onlyWrites_loadLowRegs s.advancePC _ x).seq
        (onlyWrites_writeI_indexAfter s.i x (s.advancePC.loadLowRegs_i _ x))).of_advancePC fun _ => id⟩,
    fun hhi => haltsWith_of_check_error (exec_opFX65 s x) (checkRead_error hhi)⟩

/-- Settles O41. The FX55 that completed stored below 4096, so the FX65 completes too and reads back the cells it left. -/
theorem dumpThenLoadRestoresRegisters : Obligations.DumpThenLoadRestoresRegisters := by
  intro x s t u v _ hdump ht hmem hi hload q hq
  obtain ⟨hhi, _⟩ := exec_opFX55_running hdump ht
  have hrange : u.i.toNat + x.val ≤ 4095 := by rwa [hi]
  obtain rfl := Host.Outcome.next.inj ((exec_opFX65_of_range hrange).symm.trans hload)
  rw [readV_exec_opFX65_target hq, hmem, hi, readMem_of_exec_opFX55 hdump ht hq]

theorem onlyWrites_advancePC_writeI (s : State) (w : Word) :
    OnlyWrites (fun p => p = .index) s (s.advancePC.writeI w) := (onlyWrites_writeI _ w).of_advancePC fun _ => id

/-- Settles O37: each is one write of I after the fetch's advance, and 255 × 5 fits in 16 bits. -/
theorem indexInstructions : Obligations.IndexInstructions := by
  intro nnn x s
  have hsum : (addI s.i (s.readV x)).toNat = (s.i.toNat + (s.readV x).toNat) % 65536 := toNat_wrap16 _
  have hsprite : (wrap16 ((s.readV x).toNat * 5)).toNat = (s.readV x).toNat * 5 := by
    rw [toNat_wrap16]
    omega
  exact ⟨toNat_wordA 0xA nnn, toNat_wordXK_misc x 0x1E, toNat_wordXK_misc x 0x29,
    ⟨_, exec_opANNN s nnn, toNat_addressOf nnn, rfl, onlyWrites_advancePC_writeI s _⟩,
    ⟨_, exec_opFX1E s x, hsum, rfl, onlyWrites_advancePC_writeI s _⟩,
    ⟨_, exec_opFX29 s x, hsprite, rfl, onlyWrites_advancePC_writeI s _⟩⟩

end Sys2Proof.Machine

namespace Sys2Proof.Machine

/-! ### the display cleared (R260) -/

/-- Settles O43: the fetch's advance and then the blank bitmap, which reads 0 at every pixel. -/
theorem clearDisplayClearsEveryPixel : Obligations.ClearDisplayClearsEveryPixel :=
  ⟨rfl, fun s => ⟨_, exec_op00E0 s, fun x y => readPixel_blankBitmap _ _ x y, rfl, rfl,
    (onlyWrites_clearDisplay s.advancePC).of_advancePC fun _ => id⟩⟩

/-! ### the sprite DXYN reads and where it falls (R261) -/

/-- R107: the word of DXYN keeps a row count below 16. -/
theorem toNat_encode_opDXYN (x y : Reg) {n : Nat} (hn : n < 16) :
    (encode (.opDXYN x y n)).toNat = 0xD000 + x.val * 256 + y.val * 16 + n := by
  have hword := toNat_wordXY 0xD x y (BitVec.ofNat 4 n)
  rwa [BitVec.toNat_ofNat, Nat.mod_eq_of_lt hn] at hword

theorem State.length_readBytes (s : State) (a n : Nat) : (s.readBytes a n).length = n := by
  simp [State.readBytes]

theorem State.getD_readBytes (s : State) (a : Nat) {n k : Nat} (h : k < n) :
    (s.readBytes a n).getD k 0 = s.readMem (a + k) := by
  simp [State.readBytes, h]

/-- The sprite the rasterizer draws is the spec's unclipped part: the bytes of the rows above the bottom edge, cut at the
right edge. -/
theorem spriteHits_readBytes (s : State) (a x0 y0 n px py : Nat) :
    spriteHits (s.readBytes a (visibleRows s.cfg y0 n)) x0 y0 (visibleCols s.cfg x0) px py = true ↔
      UnderSpriteBit s a x0 y0 n px py := by
  have hrows : y0 ≤ py → (py < y0 + visibleRows s.cfg y0 n ↔ py < y0 + n ∧ py < s.cfg.height) := by
    unfold visibleRows
    omega
  have hcols : x0 ≤ px → (px < x0 + visibleCols s.cfg x0 ↔ px < x0 + 8 ∧ px < s.cfg.width) := by
    unfold visibleCols
    omega
  have hbit : y0 ≤ py → py < y0 + visibleRows s.cfg y0 n →
      spriteBit ((s.readBytes a (visibleRows s.cfg y0 n)).getD (py - y0) 0) (px - x0) =
        (s.readMem (a + (py - y0))).getLsbD (7 - (px - x0)) := fun hy hpy => by
    rw [s.getD_readBytes a (by omega), spriteBit]
  simp only [spriteHits, UnderSpriteBit, State.length_readBytes, Bool.and_eq_true, decide_eq_true_eq]
  constructor
  · rintro ⟨⟨⟨⟨hy, hpy⟩, hx⟩, hpx⟩, hset⟩
    rw [hbit hy hpy] at hset
    obtain ⟨hlow, hheight⟩ := (hrows hy).mp hpy
    obtain ⟨hright, hwidth⟩ := (hcols hx).mp hpx
    exact ⟨hx, hright, hwidth, hy, hlow, hheight, hset⟩
  · rintro ⟨hx, hright, hwidth, hy, hlow, hheight, hset⟩
    have hpy := (hrows hy).mpr ⟨hlow, hheight⟩
    rw [← hbit hy hpy] at hset
    exact ⟨⟨⟨⟨hy, hpy⟩, hx⟩, (hcols hx).mpr ⟨hright, hwidth⟩⟩, hset⟩

/-- R261: the origin lies on the display, so the unclipped columns end within it. -/
theorem originX_add_visibleCols {c : Config} (hc : c.wf) (vx : Byte) :
    originX c vx + visibleCols c (originX c vx) ≤ c.width := by
  have horigin : originX c vx < c.width := Nat.mod_lt _ hc.1
  unfold visibleCols
  omega

theorem originY_add_visibleRows {c : Config} (hc : c.wf) (vy : Byte) (n : Nat) :
    originY c vy + visibleRows c (originY c vy) n ≤ c.height := by
  have horigin : originY c vy < c.height := Nat.mod_lt _ hc.2
  unfold visibleRows
  omega

/-- The pixels under a set bit of the sprite that DXYN draws from `s` (R261). -/
def UnderDrawnSprite (s : State) (x y : Reg) (n px py : Nat) : Prop :=
  UnderSpriteBit s s.i.toNat (originX s.cfg (s.readV x)) (originY s.cfg (s.readV y)) n px py

/-- The sprite depends on VX, VY, I, memory and the configuration alone. -/
theorem underDrawnSprite_congr {s t : State} {x y : Reg} (hcfg : t.cfg = s.cfg) (hx : t.readV x = s.readV x)
    (hy : t.readV y = s.readV y) (hi : t.i = s.i) (hmem : ∀ a, t.readMem a = s.readMem a) (n px py : Nat) :
    UnderDrawnSprite t x y n px py ↔ UnderDrawnSprite s x y n px py := by
  simp only [UnderDrawnSprite, UnderSpriteBit, hcfg, hx, hy, hi, hmem]

/-! ### the state a completed DXYN leaves (R261) -/

/-- The rows of the sprite that DXYN checks and reads. -/
def State.drawnRows (s : State) (y : Reg) (n : Nat) : Nat := visibleRows s.cfg (originY s.cfg (s.readV y)) n

/-- No row that DXYN reads lies above 4095. -/
def State.RowsReadable (s : State) (y : Reg) (n : Nat) : Prop :=
  s.drawnRows y n = 0 ∨ s.i.toNat + s.drawnRows y n ≤ 4096

/-- What the rule of DXYN leaves when its checks pass. -/
def State.drawn (s : State) (x y : Reg) (n : Nat) : State :=
  s.advancePC.drawSprite (s.readBytes s.i.toNat (s.drawnRows y n)) (originX s.cfg (s.readV x))
    (originY s.cfg (s.readV y)) (visibleCols s.cfg (originX s.cfg (s.readV x)))

theorem exec_opDXYN_eq_commit (s : State) (x y : Reg) (n : Nat) :
    exec (.opDXYN x y n) s = s.commit (encode (.opDXYN x y n))
      ((checkEach checkRead s.i.toNat (s.drawnRows y n)).map fun _ => s.drawn x y n) :=
  exec_opDXYN s x y n

theorem exec_opDXYN_of_readable {s : State} {y : Reg} {n : Nat} (x : Reg) (h : s.RowsReadable y n) :
    exec (.opDXYN x y n) s = .next (s.drawn x y n) := by
  rw [exec_opDXYN_eq_commit, (checkEach_checkRead _ _).trans (if_pos h)]
  rfl

/-- R262: the fault names the first row above 4095. -/
theorem exec_opDXYN_haltsWith {s : State} {y : Reg} {n : Nat} (x : Reg) (h : ¬ s.RowsReadable y n) :
    ∃ t, exec (.opDXYN x y n) s = .next t ∧ HaltsWith s t 6 (encode (.opDXYN x y n)) (max s.i.toNat 4096) :=
  haltsWith_of_check_error (exec_opDXYN_eq_commit s x y n) ((checkEach_checkRead _ _).trans (if_neg h))

/-- A DXYN that leaves the machine running found every row readable. -/
theorem exec_opDXYN_running {s t : State} {x y : Reg} {n : Nat} (h : exec (.opDXYN x y n) s = .next t)
    (ht : t.run = .running) : s.RowsReadable y n ∧ t = s.drawn x y n := by
  rw [exec_opDXYN_eq_commit] at h
  obtain ⟨_, hcheck, htarget⟩ := commit_running h ht
  refine ⟨?_, htarget⟩
  by_contra hrows
  rw [(checkEach_checkRead _ _).trans (if_neg hrows)] at hcheck
  cases hcheck

/-! ### what the drawn state holds, on a grid of the configured size (R261) -/

theorem bool_xor_ne_left_iff : ∀ a b : Bool, (a ^^ b) ≠ a ↔ b = true := by decide

theorem bool_eq_of_ne_iff_ne : ∀ a b c : Bool, (a ≠ b ↔ b ≠ c) → a = c := by decide

section
variable {s : State} (x y : Reg) (n : Nat)

theorem spriteHits_drawn_iff (px py : Nat) :
    spriteHits (s.readBytes s.i.toNat (s.drawnRows y n)) (originX s.cfg (s.readV x)) (originY s.cfg (s.readV y))
      (visibleCols s.cfg (originX s.cfg (s.readV x))) px py = true ↔ UnderDrawnSprite s x y n px py :=
  spriteHits_readBytes s _ _ _ n px py

theorem originY_add_length_readBytes (hc : s.cfg.wf) :
    originY s.cfg (s.readV y) + (s.readBytes s.i.toNat (s.drawnRows y n)).length ≤ s.cfg.height := by
  rw [s.length_readBytes]
  exact originY_add_visibleRows hc (s.readV y) n

/-- R261: the display's pixels after the draw, by the rasterizer's XOR. -/
theorem pixel_drawn_ne_iff (hc : s.cfg.wf) (hd : IsGrid s.disp s.cfg.width s.cfg.height) (px py : Nat) :
    (s.drawn x y n).pixel px py ≠ s.pixel px py ↔ UnderDrawnSprite s x y n px py := by
  have hpixel : (s.drawn x y n).pixel px py = _ := readPixel_drawRows (g := ⟨s.disp, false, false⟩) _ hd
    (originX_add_visibleCols hc (s.readV x)) (originY_add_length_readBytes y n hc) px py
  rw [hpixel, ← spriteHits_drawn_iff]
  exact bool_xor_ne_left_iff _ _

theorem readV_drawn_of_ne_flagReg {q : Reg} (hq : q ≠ flagReg) : (s.drawn x y n).readV q = s.readV q :=
  (State.readV_drawSprite s.advancePC _ _ _ _ q).trans (if_neg hq)

theorem readV_drawn_flagReg : (s.drawn x y n).readV flagReg = 1 ∨ (s.drawn x y n).readV flagReg = 0 := by
  rw [State.drawn, State.readV_drawSprite, if_pos rfl]
  exact flagByte_cases _

/-- R261: VF is the collision. -/
theorem readV_drawn_flagReg_eq_one_iff (hc : s.cfg.wf) (hd : IsGrid s.disp s.cfg.width s.cfg.height) :
    (s.drawn x y n).readV flagReg = 1 ↔ ∃ px py, UnderDrawnSprite s x y n px py ∧ s.pixel px py = true := by
  rw [State.drawn, State.readV_drawSprite, if_pos rfl]
  refine (flagByte_eq_one _).trans ((drawRows_collision _ hd (originX_add_visibleCols hc (s.readV x))
    (originY_add_length_readBytes y n hc)).trans ?_)
  simp only [Bool.false_eq_true, false_or, spriteHits_drawn_iff]
  rfl

/-- R261: REDRAW is set by a pixel that changes and is never cleared. -/
theorem redraw_drawn_iff :
    (s.drawn x y n).redraw = true ↔ s.redraw = true ∨ ∃ px py, UnderDrawnSprite s x y n px py := by
  rw [State.drawn, State.drawSprite_redraw, Bool.or_eq_true, drawRows_changed]
  simp only [Bool.false_eq_true, false_or, spriteHits_drawn_iff]
  rfl

theorem onlyWrites_drawn (hc : s.cfg.wf) (hd : IsGrid s.disp s.cfg.width s.cfg.height) :
    OnlyWrites (fun p => p = .reg flagReg ∨ p = .redraw ∨ ∃ px py, UnderDrawnSprite s x y n px py ∧ p = .pixel px py) s
      (s.drawn x y n) := by
  intro p hp
  by_cases hpixel : ∃ px py, p = .pixel px py
  · obtain ⟨px, py, rfl⟩ := hpixel
    by_contra hne
    exact hp (.inr (.inr ⟨px, py, (pixel_drawn_ne_iff x y n hc hd px py).mp hne, rfl⟩))
  · refine (onlyWrites_drawSprite s.advancePC _ _ _ _).of_advancePC (fun _ => id) p ?_
    rintro (hflag | hpix | hredraw)
    · exact hp (.inl hflag)
    · exact hpixel hpix
    · exact hp (.inr (.inl hredraw))

theorem isGrid_drawn (hd : IsGrid s.disp s.cfg.width s.cfg.height) :
    IsGrid (s.drawn x y n).disp s.cfg.width s.cfg.height :=
  drawRows_isGrid (g := ⟨s.disp, false, false⟩) _ _ _ _ hd

end

/-! ### drawing -/

theorem State.StoresOk.isGrid {s : State} (hs : s.StoresOk) : IsGrid s.disp s.cfg.width s.cfg.height := by
  obtain ⟨_, _, _, hlen, hrows, _⟩ := hs
  exact ⟨hlen, hrows⟩

/-- Settles O44. The rows the check reads are the unclipped ones: when they are readable the rule leaves the drawn state,
and else the check raises. -/
theorem drawXorsTheClippedSprite : Obligations.DrawXorsTheClippedSprite := by
  intro x y n s hn hs
  have hc : s.cfg.wf := hs.1
  have hd := hs.isGrid
  refine ⟨toNat_encode_opDXYN x y hn, ?_⟩
  rintro _ _ _ rfl rfl rfl
  constructor
  · intro hreadable
    exact ⟨_, exec_opDXYN_of_readable x hreadable, rfl, pixel_drawn_ne_iff x y n hc hd, readV_drawn_flagReg x y n,
      readV_drawn_flagReg_eq_one_iff x y n hc hd, redraw_drawn_iff x y n, onlyWrites_drawn x y n hc hd⟩
  · intro hrows habove
    exact exec_opDXYN_haltsWith x (not_or.mpr ⟨hrows, Nat.not_le.mpr habove⟩)

/-- Settles O45. The second draw finds the same rows readable and the same sprite, so it flips the pixels the first
flipped; it collides where the first left a set pixel under the sprite, that is where the pixel was clear before. -/
theorem drawingTwiceRestoresTheDisplay : Obligations.DrawingTwiceRestoresTheDisplay := by
  intro x y n s t t' u hx hy hs _ hfirst ht _ hcfg hdisp hvx hvy hi hmem hsecond
  obtain ⟨hreadable, rfl⟩ := exec_opDXYN_running hfirst ht
  have hvx' : t'.readV x = s.readV x := hvx.trans (readV_drawn_of_ne_flagReg x y n hx)
  have hvy' : t'.readV y = s.readV y := hvy.trans (readV_drawn_of_ne_flagReg x y n hy)
  have hreadable' : t'.RowsReadable y n := by
    unfold State.RowsReadable State.drawnRows
    rw [hcfg, hvy', hi]
    exact hreadable
  obtain rfl := Host.Outcome.next.inj ((exec_opDXYN_of_readable x hreadable').symm.trans hsecond)
  have hsprite := underDrawnSprite_congr hcfg hvx' hvy' hi hmem n
  have hwf' : t'.cfg.wf := by rw [hcfg]; exact hs.1
  have hgrid' : IsGrid t'.disp t'.cfg.width t'.cfg.height := by
    rw [hcfg, hdisp]
    exact isGrid_drawn x y n hs.isGrid
  have hbetween : ∀ px py, t'.pixel px py = (s.drawn x y n).pixel px py := fun px py =>
    congrArg (fun d => readPixel d px py) hdisp
  have hflip := pixel_drawn_ne_iff x y n hs.1 hs.isGrid
  have hflip' := pixel_drawn_ne_iff x y n hwf' hgrid'
  have hflag : (t'.drawn x y n).readV flagReg = 1 ↔
      ∃ px py, UnderDrawnSprite s x y n px py ∧ s.pixel px py = false := by
    rw [readV_drawn_flagReg_eq_one_iff x y n hwf' hgrid']
    refine exists_congr fun px => exists_congr fun py => ?_
    rw [hsprite, hbetween]
    refine and_congr_right fun hunder => ?_
    rw [Bool.eq_not_of_ne ((hflip px py).mpr hunder), Bool.not_eq_true']
  refine ⟨fun px py => ?_, hflag, fun hclear => hflag.trans ?_⟩
  · have hboth := (hflip' px py).trans ((hsprite px py).trans (hflip px py).symm)
    rw [hbetween] at hboth
    exact bool_eq_of_ne_iff_ne _ _ _ hboth
  · exact exists_congr fun px => exists_congr fun py => and_iff_left_of_imp (hclear px py)

end Sys2Proof.Machine

namespace Sys2Proof.Machine

/-! ### the skips on a key (R280, R281) -/

/-- R103: the words of family E. -/
theorem toNat_wordXK_key (x : Reg) (nn : Byte) : (wordXK 0xE x nn).toNat = 0xE000 + nn.toNat + x.val * 256 :=
  (toNat_wordXK 0xE x nn).trans (Nat.add_right_comm _ _ _)

theorem keyOf_eq_ok {vx : Byte} {k : Key} (h : vx.toNat = k.val) : keyOf vx = .ok k :=
  (keyOf_ok (by omega)).trans (congrArg Except.ok (Fin.ext h))

/-- A skip on a key that completes, in the terms of PC and the frame. -/
theorem keySkip_completes {o : Host.Outcome State Fault Refusal} {s : State} {w : Word} {vx : Byte} {c : Key → Bool}
    {k : Key} (ho : o = s.commit w ((keyOf vx).map fun j => s.advancePC.skipIf (c j))) (hk : vx.toNat = k.val) :
    ∃ t, o = .next t ∧ t.pc = (if c k = true then s.pc + 4 else s.pc + 2) ∧ OnlyWrites (fun _ => False) s t := by
  rw [keyOf_eq_ok hk] at ho
  exact ⟨_, ho, pc_advancePC_skipIf s (c k), onlyWrites_advancePC_skipIf s (c k)⟩

/-- Settles O46. Up to 15 the check answers the key VX names, whose level decides the skip; above 15 it raises. -/
theorem keySkips : Obligations.KeySkips := by
  intro x s
  refine ⟨toNat_wordXK_key x 0x9E, toNat_wordXK_key x 0xA1, fun k hk => ⟨?pressed, ?notPressed⟩,
    fun h => ⟨haltsWith_of_check_error (exec_opEX9E s x) (keyOf_error h),
      haltsWith_of_check_error (exec_opEXA1 s x) (keyOf_error h)⟩⟩
  case pressed => exact keySkip_completes (exec_opEX9E s x) hk
  case notPressed =>
    obtain ⟨t, hexec, hpc, hframe⟩ := keySkip_completes (c := fun j => !s.pressed j) (exec_opEXA1 s x) hk
    simp only [Bool.not_eq_true', ← Bool.not_eq_true, ite_not] at hpc
    exact ⟨t, hexec, hpc, hframe⟩

/-! ### the timers (R282, R284, R285) -/

/-- R44. -/
theorem soundEn_iff (s : State) : s.soundEn = true ↔ s.st ≠ 0 := bne_iff_ne

/-- Settles O47: each is one write after the fetch's advance, of VX, of DT or of ST. -/
theorem timerMoves : Obligations.TimerMoves := fun x s =>
  ⟨toNat_wordXK_misc x 0x07, toNat_wordXK_misc x 0x15, toNat_wordXK_misc x 0x18,
    ⟨_, exec_opFX07 s x, State.readV_writeV_same _ x _, rfl, onlyWrites_advancePC_writeV s x _⟩,
    ⟨_, exec_opFX15 s x, rfl, rfl, (onlyWrites_writeDT _ _).of_advancePC fun _ => id⟩,
    ⟨_, exec_opFX18 s x, rfl, soundEn_iff _, rfl, (onlyWrites_writeST _ _).of_advancePC fun _ => id⟩⟩

/-! ### the key wait (R283): what FX0A answers in each case of its poll -/

section
variable {s : State} (x : Reg)

theorem exec_opFX0A_of_no_key (hidle : s.kwState = .idle) (hnone : ∀ k, s.pressed k = false) :
    exec (.opFX0A x) s = .next s := by
  rw [exec_opFX0A, pollKey_no_key s x hidle ((leastPressed_eq_none s).mpr hnone)]

theorem exec_opFX0A_of_press {k : Key} (hidle : s.kwState = .idle) (hk : s.pressed k = true)
    (hleast : ∀ j, j < k → s.pressed j = false) : exec (.opFX0A x) s = .next (s.setLatch .awaitRelease k) := by
  rw [exec_opFX0A, pollKey_latch s x hidle (leastPressed_eq_some s hk hleast)]

theorem exec_opFX0A_of_held (hwait : s.kwState = .awaitRelease) (hheld : s.pressed s.kwKey = true) :
    exec (.opFX0A x) s = .next s := by
  rw [exec_opFX0A, pollKey_held s x hwait hheld]

/-- What the poll that sees the release leaves. -/
theorem exec_opFX0A_of_release (hwait : s.kwState = .awaitRelease) (hfree : s.pressed s.kwKey = false) :
    ∃ t, exec (.opFX0A x) s = .next t ∧ (t.readV x).toNat = s.kwKey.val ∧ t.kwState = .idle ∧ t.kwKey = 0 ∧
      t.pc = s.pc + 2 ∧ OnlyWrites (fun p => p = .reg x ∨ p = .latch) s t := by
  refine ⟨(s.advancePC.writeV x (BitVec.ofNat 8 s.kwKey.val)).setLatch .idle 0, ?exec, ?index, rfl, rfl, rfl,
    ((onlyWrites_writeV _ x _).seq (onlyWrites_setLatch _ _ _)).of_advancePC fun _ => id⟩
  case exec => rw [exec_opFX0A, pollKey_release s x hwait hfree]
  case index =>
    rw [State.readV_setLatch, State.readV_writeV_same, BitVec.toNat_ofNat]
    omega

end

/-- Settles O48, case by case of the poll; the poll that latches writes the latch alone. -/
theorem keyWaitPoll : Obligations.KeyWaitPoll := fun x s =>
  ⟨toNat_wordXK_misc x 0x0A, exec_opFX0A_of_no_key x,
    fun k hidle hk hleast =>
      ⟨_, exec_opFX0A_of_press x hidle hk hleast, rfl, rfl, rfl, onlyWrites_setLatch s .awaitRelease k⟩,
    exec_opFX0A_of_held x, exec_opFX0A_of_release x⟩

/-! ### STEP at a key wait, the host setting keys between (R147, R286) -/

theorem pressed_setKey_self (s : State) (k : Key) (b : Bool) : (s.setKey k b).pressed k = b := key_setKey_self s k b

theorem pressed_setKey_of_ne {k j : Key} (h : j ≠ k) (s : State) (b : Bool) :
    (s.setKey k b).pressed j = s.pressed j :=
  Vector.getElem_set_ne k.isLt j.isLt fun hval => h (Fin.ext hval.symm)

/-- R140: a STEP that fetches an FX0A answers what its poll answers. -/
theorem step_of_poll {s t : State} {x : Reg} (hpoll : exec (.opFX0A x) s = .next t) (hrun : s.run = .running)
    (hf : s.fetch = .ok (encode (.opFX0A x))) : step s = .next t :=
  (step_of_instr hrun hf (classify_encode rfl)).trans hpoll

/-- Settles O49. The STEPs are the four cases of the poll: the keys and the latch are no part of what the fetch reads,
and k, the only key pressed, is the least. -/
theorem keyWaitScenario : Obligations.KeyWaitScenario := by
  intro x k s hrun hf hidle hnone
  have hleast : ∀ j, j < k → (s.setKey k true).pressed j = false := fun j hj =>
    (pressed_setKey_of_ne hj.ne s true).trans (hnone j)
  have hpress := exec_opFX0A_of_press (s := s.setKey k true) x hidle (pressed_setKey_self s k true) hleast
  have hheld := exec_opFX0A_of_held (s := (s.setKey k true).setLatch .awaitRelease k) x rfl
    (pressed_setKey_self s k true)
  obtain ⟨u, hrelease, hindex, hkw, _, hpc, _⟩ :=
    exec_opFX0A_of_release (s := ((s.setKey k true).setLatch .awaitRelease k).setKey k false) x rfl
      (pressed_setKey_self _ k false)
  exact ⟨step_of_poll (exec_opFX0A_of_no_key x hidle hnone) hrun hf, _, u, step_of_poll hpress hrun hf, rfl, rfl, rfl,
    fun _ => rfl, step_of_poll hheld hrun hf, step_of_poll hrelease hrun hf, hindex, hpc, hkw⟩

end Sys2Proof.Machine

namespace Sys2Proof.Machine

/-! ### what a rule's check raises (R311) -/

/-- R311: a check that raises names one of `causes`. -/
def RaisesOnly {α : Type} (causes : List Fault) (c : Except Raise α) : Prop := ∀ e, c = .error e → e.cause ∈ causes

theorem raisesOnly_pop (s : State) : RaisesOnly [.stackUnderflow] s.pop := by
  intro e h
  unfold State.pop at h
  split at h
  · cases h
    exact List.mem_singleton_self _
  · cases h

theorem raisesOnly_push (s : State) (w : Word) : RaisesOnly [.stackOverflow] (s.push w) := by
  intro e h
  unfold State.push at h
  split at h
  · cases h
  · cases h
    exact List.mem_singleton_self _

theorem raisesOnly_checkRead (a n : Nat) : RaisesOnly [.memOutOfRange] (checkEach checkRead a n) := by
  intro e h
  rw [checkEach_checkRead] at h
  split at h
  · cases h
  · cases h
    exact List.mem_singleton_self _

theorem raisesOnly_checkWrite (a n : Nat) :
    RaisesOnly [.memOutOfRange, .fontWrite] (checkEach checkWrite a (n + 1)) := by
  intro e h
  rw [checkEach_checkWrite] at h
  split at h
  · cases h
    exact List.mem_cons_of_mem _ (List.mem_singleton_self _)
  · split at h
    · cases h
    · cases h
      exact List.mem_cons_self

theorem raisesOnly_keyOf (vx : Byte) : RaisesOnly [.keyIndexOutOfRange] (keyOf vx) := by
  intro e h
  unfold keyOf at h
  split at h
  · cases h
  · cases h
    exact List.mem_singleton_self _

/-! ### precise faults (R312) -/

/-- R311, R312: from `s` the machine still runs with the halt record as it was, or it halts precisely with a cause the rule
of `i` lists. -/
def RunsOrHaltsListed (i : Instr) (s t : State) : Prop :=
  (t.run = .running ∧ Part.same s t .haltRecord) ∨
    ∃ f ∈ causesOf i, t.faultCause = some f ∧ HaltsWith s t (faultCode (some f)) (encode i) t.faultInfo

section
variable {i : Instr} {s t : State}

/-- What keeps the halt record keeps the machine running. -/
theorem RunsOrHaltsListed.of_same (hrun : s.run = .running) (h : Part.same s t .haltRecord) :
    RunsOrHaltsListed i s t := .inl ⟨h.1.trans hrun, h⟩

theorem RunsOrHaltsListed.of_fault {e : Raise} (he : e.cause ∈ causesOf i) :
    RunsOrHaltsListed i s (s.takeFault (encode i) e) :=
  .inr ⟨e.cause, he, rfl, haltsWith_takeFault s (encode i) e⟩

/-- A rule whose check raises only listed causes, and whose action writes parts other than the halt record. -/
theorem RunsOrHaltsListed.of_commit {α : Type} {c : Except Raise α} {f : α → State} (hrun : s.run = .running)
    (h : exec i s = .next t) (ho : exec i s = s.commit (encode i) (c.map f)) (hc : RaisesOnly (causesOf i) c)
    (hf : ∀ a, c = .ok a → Part.same s (f a) .haltRecord) : RunsOrHaltsListed i s t := by
  cases c with
  | error e => exact holds_of_next h ho (.of_fault (hc e rfl))
  | ok a => exact holds_of_next h ho (.of_same hrun (hf a rfl))

end

/-- Settles O21. An instruction without listed causes is no writer of the halt record; each of the eight others checks, for
its listed causes alone, before it writes. -/
theorem faultsArePreciseAndListed : Obligations.FaultsArePreciseAndListed := by
  intro i s t hrun h
  show RunsOrHaltsListed i s t
  cases i with
  | op00EE =>
    exact .of_commit hrun h (exec_op00EE s) (raisesOnly_pop _) fun _ hpop =>
      ((onlyWrites_pop _ hpop).writePC _).of_advancePC (fun _ => id) _ Part.noConfusion
  | op2NNN nnn =>
    exact .of_commit hrun h (exec_op2NNN s nnn) (raisesOnly_push _ _) fun _ hpush =>
      ((onlyWrites_push _ hpush).writePC _).of_advancePC (fun _ => id) _ (by simp)
  | opDXYN x y n =>
    exact .of_commit hrun h (exec_opDXYN s x y n) (raisesOnly_checkRead _ _) fun _ _ => by simp [Part.same]
  | opEX9E x =>
    exact .of_commit hrun h (exec_opEX9E s x) (raisesOnly_keyOf _) fun _ _ =>
      onlyWrites_advancePC_skipIf s _ .haltRecord id
  | opEXA1 x =>
    exact .of_commit hrun h (exec_opEXA1 s x) (raisesOnly_keyOf _) fun _ _ =>
      onlyWrites_advancePC_skipIf s _ .haltRecord id
  | opFX33 x =>
    exact .of_commit hrun h (exec_opFX33 s x) (raisesOnly_checkWrite _ _) fun _ _ => by simp [Part.same]
  | opFX55 x =>
    exact .of_commit hrun h (exec_opFX55 s x) (raisesOnly_checkWrite _ _) fun _ _ => by simp [Part.same]
  | opFX65 x =>
    exact .of_commit hrun h (exec_opFX65 s x) (raisesOnly_checkRead _ _) fun _ _ => by simp [Part.same]
  | _ => exact .of_same hrun (exec_onlyWrites h .haltRecord fun hlists => hlists rfl)

/-! ### the host's writes between two STEPs (R330, R340) -/

theorem onlyWrites_setKey (s : State) (k : Key) (b : Bool) : OnlyWrites (fun p => p = .key k) s (s.setKey k b) := by
  intro p hp
  cases p with
  | key j => exact pressed_setKey_of_ne (fun hj => hp (congrArg Part.key hj)) s b
  | _ => simp [Part.same]

theorem onlyWrites_clearRedraw (s : State) : OnlyWrites (fun p => p = .redraw) s s.clearRedraw := by
  intro p hp
  cases p with
  | redraw => exact absurd rfl hp
  | _ => simp [Part.same]

/-- Settles O8: each is one write, and its frame. -/
theorem setKeyAndClearRedrawWriteOnePart : Obligations.SetKeyAndClearRedrawWriteOnePart :=
  ⟨fun s k b => ⟨key_setKey_self s k b, rfl, onlyWrites_setKey s k b⟩, fun s => ⟨rfl, rfl, onlyWrites_clearRedraw s⟩⟩

/-- Settles O6: each timer counts down, and TICK's frame. -/
theorem tickCountsBothTimersDown : Obligations.TickCountsBothTimersDown := fun s =>
  ⟨toNat_countDown s.dt, toNat_countDown s.st, rfl, onlyWrites_tick s⟩

/-- R330, R331: `k` TICKs take `k` from ST, or leave it 0. -/
theorem toNat_st_tickTimes (k : Nat) (s : State) : (tickTimes k s).st.toNat = s.st.toNat - k := by
  induction k generalizing s with
  | zero => rfl
  | succ k ih =>
    have htick : s.tick.st.toNat = s.st.toNat - 1 := toNat_countDown s.st
    rw [tickTimes, ih, htick]
    omega

/-- Settles O7. SOUND_EN is 1 as long as ST is not 0, which after k TICKs means that ST started above k. -/
theorem soundLastsExactlyItsTicks : Obligations.SoundLastsExactlyItsTicks := by
  intro s k
  have hst := toNat_st_tickTimes k s
  refine ⟨hst, ?_⟩
  have hzero : (0 : Byte).toNat = 0 := rfl
  rw [soundEn_iff, Ne, ← BitVec.toNat_inj, hst, hzero]
  omega

/-! ### the invariants along a schedule (R342) -/

/-- The four invariants together: each is kept by STEP. -/
theorem step_allOk {s t : State} (hs : s.AllOk) (h : step s = .next t) : t.AllOk := by
  obtain ⟨hstores, haddresses, hlatch, hrecord⟩ := hs
  exact ⟨stepKeepsStoresOk s t hstores h, stepKeepsAddressesOk s t haddresses h, stepKeepsLatchOk s t hlatch h,
    stepKeepsHaltRecordOk s t hrecord h⟩

/-- R362: RESET needs of the state before it only its configuration and its ROM_IMG. -/
theorem resetOp_allOk {s : State} (hs : s.AllOk) : s.resetOp.AllOk := by
  obtain ⟨⟨hcfg, _, _, _, _, hrom⟩, _⟩ := hs
  exact baseline_allOk s.draws hcfg hrom

/-- R360: no machine exists, or one that meets the invariants. -/
def MachineOk (m : Option State) : Prop := ∀ s, m = some s → s.AllOk

theorem machineOk_some {s : State} (hs : s.AllOk) : MachineOk (some s) := by
  rintro _ ⟨⟩
  exact hs

theorem machineOk_none : MachineOk none := nofun

theorem machineOk_load {c : Config} (hc : c.wf) (rom : List Byte) (k : Nat) :
    MachineOk (load c rom k).toOption := by
  cases h : load c rom k with
  | error e => exact machineOk_none
  | ok s =>
    obtain ⟨hload, _⟩ := loadEstablishesTheInvariants
    exact machineOk_some (hload c rom k s hc h)

/-- A LOAD among the host's operations has a legal configuration (R8). -/
def LegalOp (op : HostOp) : Prop := ∀ c rom k, op = .load c rom k → c.wf

section
variable {op : HostOp} {m' : Option State}

/-- TICK, SET_KEY and CLEAR_REDRAW write only parts that no invariant speaks of. -/
theorem applyToMachine_machineOk {s : State} (hop : LegalOp op) (hs : s.AllOk)
    (h : applyToMachine op s = .next m') : MachineOk m' := by
  cases op with
  | load c rom k =>
    cases h
    exact machineOk_load (hop c rom k rfl) rom k
  | reset =>
    cases h
    exact machineOk_some (resetOp_allOk hs)
  | step =>
    obtain ⟨t, ht⟩ := step_total s
    simp only [applyToMachine, ht] at h
    cases h
    exact machineOk_some (step_allOk hs ht)
  | tick | setKey _ _ | read | clearRedraw =>
    cases h
    exact machineOk_some hs

/-- R360: without a machine only a LOAD makes one. -/
theorem applyOp_machineOk {m : Option State} (hop : LegalOp op) (hm : MachineOk m) (h : applyOp op m = .next m') :
    MachineOk m' := by
  cases m with
  | some s => exact applyToMachine_machineOk hop (hm s rfl) h
  | none =>
    cases op with
    | load c rom k =>
      cases h
      exact machineOk_load (hop c rom k rfl) rom k
    | reset | step | tick | setKey _ _ | read | clearRedraw =>
      cases h
      exact machineOk_none

end

theorem runOps_machineOk {ops : List HostOp} {m m' : Option State} (hops : ∀ op ∈ ops, LegalOp op) (hm : MachineOk m)
    (h : runOps ops m = .next m') : MachineOk m' := by
  induction ops generalizing m with
  | nil =>
    cases h
    exact hm
  | cons op rest ih =>
    obtain ⟨hop, hrest⟩ := List.forall_mem_cons.mp hops
    rw [runOps] at h
    split at h
    · next m₁ happly => exact ih hrest (applyOp_machineOk hop hm happly) h
    · cases h
    · cases h

/-- Settles O59, by induction on the schedule; between two operations there may be no machine. -/
theorem everyScheduleKeepsTheInvariants : Obligations.EveryScheduleKeepsTheInvariants :=
  fun _ _ t hops hs h => runOps_machineOk hops (machineOk_some hs) h t rfl

end Sys2Proof.Machine

namespace Sys2Proof.Machine

/-! ### what a RESET starts from (R50, R344, R362) -/

/-- R362: `t` has the configuration and the ROM_IMG of `s`, all that a RESET uses. -/
def SameLoaded (s t : State) : Prop := t.cfg = s.cfg ∧ t.romImg = s.romImg

theorem SameLoaded.refl (s : State) : SameLoaded s s := ⟨rfl, rfl⟩

theorem SameLoaded.trans {s t u : State} (h : SameLoaded s t) (h' : SameLoaded t u) : SameLoaded s u :=
  ⟨h'.1.trans h.1, h'.2.trans h.2⟩

/-- R51, R362: with the draw counter set to `k`, RESET gives the reset values of its machine's ROM_IMG. -/
theorem resetOp_with_draws (s : State) (k : Nat) : { s.resetOp with draws := k } = baseline s.cfg s.romImg k := rfl

/-- R362: what RESET gives depends on nothing but what `SameLoaded` keeps, the draw counter aside. -/
theorem SameLoaded.resetOp_eq {s t : State} (h : SameLoaded s t) (k : Nat) :
    { t.resetOp with draws := k } = { s.resetOp with draws := k } := by
  obtain ⟨hcfg, hrom⟩ := h
  rw [resetOp_with_draws, resetOp_with_draws, hcfg, hrom]

/-- R50, R344: no instruction that completes writes ROM_IMG or the configuration. -/
theorem Completes.sameLoaded {s t : State} (h : Completes s t) : SameLoaded s t := by
  cases h with
  | skip c => exact ⟨State.skipIf_cfg _ c, State.skipIf_romImg _ c⟩
  | _ => exact ⟨rfl, rfl⟩

theorem step_sameLoaded {s t : State} (h : step s = .next t) : SameLoaded s t := by
  rcases step_cases h with rfl | ⟨w, e, rfl⟩ | ⟨_, hc⟩
  · exact .refl t
  · exact ⟨s.takeFault_cfg w e, s.takeFault_romImg w e⟩
  · exact hc.sameLoaded

/-- R340: every operation but LOAD answers a machine, and it has the same ROM_IMG and configuration. -/
theorem applyToMachine_sameLoaded {op : HostOp} (s : State) (hop : isLoad op = false) :
    ∃ t, applyToMachine op s = .next (some t) ∧ SameLoaded s t := by
  cases op with
  | load c rom k => cases hop
  | step =>
    obtain ⟨t, ht⟩ := step_total s
    exact ⟨t, by simp only [applyToMachine, ht], step_sameLoaded ht⟩
  | reset | tick | setKey _ _ | read | clearRedraw => exact ⟨_, rfl, rfl, rfl⟩

/-- Settles O60: each operation keeps ROM_IMG and the configuration, and RESET uses nothing else. -/
theorem everyOperationButLoadKeepsTheResetState : Obligations.EveryOperationButLoadKeepsTheResetState := by
  intro op s t hop h
  obtain ⟨u, hu, hsame⟩ := applyToMachine_sameLoaded s hop
  cases hu.symm.trans h
  exact ⟨hsame.1, hsame.2, hsame.resetOp_eq⟩

/-- R342: a run without a LOAD keeps what its first machine was loaded with. -/
theorem runOps_sameLoaded {ops : List HostOp} {s t : State} (hops : ∀ op ∈ ops, isLoad op = false)
    (h : runOps ops (some s) = .next (some t)) : SameLoaded s t := by
  induction ops generalizing s with
  | nil =>
    cases h
    exact .refl _
  | cons op rest ih =>
    obtain ⟨hop, hrest⟩ := List.forall_mem_cons.mp hops
    obtain ⟨u, hu, hsame⟩ := applyToMachine_sameLoaded s hop
    simp only [runOps, applyOp, hu] at h
    exact hsame.trans (ih hrest h)

/-- Settles O5: after the run RESET gives what it would have given on the machine just loaded. -/
theorem resetAfterAnyRunRestoresTheLoad : Obligations.ResetAfterAnyRunRestoresTheLoad :=
  fun _ _ k _ _ hops h => (runOps_sameLoaded hops h).resetOp_eq k

/-! ### the bounds of LOAD (R360, R361) -/

section
variable (c : Config) {rom : List Byte} (k : Nat)

theorem load_of_too_large (h : 3584 < rom.length) : load c rom k = .error .romTooLarge := if_pos h

theorem load_of_fits (h : rom.length ≤ 3584) : load c rom k = .ok (baseline c rom k) := if_neg (Nat.not_lt.mpr h)

/-- R361: the two cells the first STEP fetches after the LOAD of an empty ROM hold 0. -/
theorem fetch_baseline_nil : (baseline c [] k).fetch = .ok 0 := by
  have hzero : ∀ a, 80 ≤ a → (baseline c [] k).readMem a = 0 := fun a ha => by
    rw [readMem_baseline, if_neg (by simp), unlisted, dif_neg (Nat.not_lt.mpr ha)]
  have hpc : (baseline c [] k).pc.toNat = 512 := rfl
  rw [State.fetch_of_range (by omega) (by omega) (by omega), hpc, hzero 512 (by decide), hzero (512 + 1) (by decide)]
  rfl

/-- R110, R361: 0x0000 is disputed, so the first STEP of an empty ROM halts on it. -/
theorem step_baseline_nil : ∃ t, step (baseline c [] k) = .next t ∧ HaltsWith (baseline c [] k) t 9 0 0 :=
  disputedWordFaults _ 0 rfl (fetch_baseline_nil c k) (by decide)

end

/-- Settles O3: the two branches of LOAD's check. -/
theorem loadFailsExactlyAboveTheLimit : Obligations.LoadFailsExactlyAboveTheLimit :=
  fun c _ k => ⟨load_of_too_large c k, fun h => ⟨_, load_of_fits c k h, rfl, rfl, rfl⟩⟩

/-- Settles O4: no bytes fit, and the word the first STEP fetches is disputed. -/
theorem emptyRomFaultsOnItsFirstStep : Obligations.EmptyRomFaultsOnItsFirstStep := by
  intro c k
  obtain ⟨t, ht, hhalts⟩ := step_baseline_nil c k
  exact ⟨_, t, load_of_fits c k (Nat.zero_le _), ht, hhalts⟩

/-- Settles O2: State.reset is the baseline of an empty ROM, whose first STEP halts. -/
theorem resetIsTheEmptyLoad : Obligations.ResetIsTheEmptyLoad := by
  unfold Obligations.ResetIsTheEmptyLoad
  rw [reset_eq_baseline]
  exact ⟨load_of_fits bootConfig 0 (Nat.zero_le _), rfl, rfl, step_baseline_nil bootConfig 0⟩

end Sys2Proof.Machine
